-- ==== Sys2Proof/Word.lean ====
section
/-! DEFINITION. The word types of the block (00_scope.md R9, R10): every value is an unsigned bit vector of the width the
spec gives it, and bit 0 is the least significant. -/

namespace Sys2Proof

/-- One byte of a payload, a response, the capability or the table (R11). -/
abbrev Byte := BitVec 8

/-- An I/O-port number, `msg_ctl`, a table size (R9). -/
abbrev U16 := BitVec 16

/-- CONFIG_ADDRESS, the capability's TABLE and PBA, each field of a table entry (R9). -/
abbrev U32 := BitVec 32

/-- `mmio_base`, `mmio_size` (R9), and a transaction descriptor (R90). -/
abbrev U64 := BitVec 64

/-- The OFF field of a descriptor (R90). -/
abbrev Off := BitVec 48

end Sys2Proof
end

