-- ==== Sys2Proof/Config.lean ====
section
/-! DEFINITION. The implementation parameters (00_scope.md R8) and the values the spec leaves to the outside: OPEN
parameters (D14, D21, D37) and the answers of the external collaborators (10_state.md R45 to R48). A value that nothing in the
spec fixes is an opaque constant: no proof can see what it is (log 4, log 5). -/

namespace Sys2Proof

/-- `ARCH` (R8, D37): the PIO path exists on `x86` only, the device-id call on `aarch64` only. -/
inductive Arch where
  | x86
  | aarch64
  | other
deriving DecidableEq, Repr, Inhabited

/-- `PIO_EXTREG_LSB` (R8, D11, conflict C2): where CONFIG_ADDRESS holds register bits 11:8. -/
inductive ExtregLsb where
  | lsb16
  | lsb24
deriving DecidableEq, Repr, Inhabited

/-- The four 32-bit fields of one MSI-X table entry (10_state.md R41). -/
structure Entry where
  addrLo : U32
  addrHi : U32
  data   : U32
  vctl   : U32
deriving DecidableEq, Repr, Inhabited

/-- The parameters that reach the rules (R8): each is fixed for the life of one block instance. The ranges, `MAX_BUS`, `N`,
the BIRs and the offsets of R8 are operands of the constructors; `CAP_NEXT_INIT` is the constant 0 (D15). -/
structure Params where
  arch       : Arch
  extregLsb  : ExtregLsb
  capIdValue : Byte
  entryReset : Entry
deriving DecidableEq, Repr, Inhabited

/-- What a collaborator answers to a call that can fail (R13, R46): `Ok`, or `Err(e)` for any `e`. -/
inductive Answer where
  | ok
  | err (e : Nat)
deriving DecidableEq, Repr, Inhabited

/-- The OPEN parameter `ARCH` of the machine at reset (D37). -/
opaque Config.arch : Arch

/-- The OPEN parameter `CAP_ID_VALUE` of the machine at reset (D14). -/
opaque Config.capIdValue : Byte

/-- The OPEN parameter `ENTRY_RESET` of the machine at reset (D21). -/
opaque Config.entryReset : Entry

/-- The answer of an interrupt back-end or of the device manager to a call for which the tape holds none (R46, R163). -/
opaque Config.freeAnswer : Nat → Answer

/-- The pending state a back-end reports when the tape holds none (R48). -/
opaque Config.freePending : Nat → Bool

/-- A byte `PciBus` returns when the tape holds none: 'any n-byte string, under no law' (R45). -/
opaque Config.freeByte : Nat → Byte

end Sys2Proof
end

