-- ==== Sys2Proof/Syntax.lean ====
section
/-! DEFINITION. The transactions of the block: one constructor per row of opcode_table.json (30_encoding.md R103), in the
table's order. A write carries its payload `D` (R90), whose length is the LEN field; the typed operands of R95 travel out of
band and are no part of the transaction's bits. -/

namespace Sys2Proof

/-- A transaction. `len` is LEN, `off` is OFF (R90); `lane` is OFF[1:0] of a PIO access whose OFF[47:2] the row fixes. -/
inductive Instr where
  | ecamRd (len : BitVec 8) (off : Off)
  | ecamWr (off : Off) (payload : List Byte)
  | pioRdAddr (len : BitVec 8) (lane : BitVec 2)
  | pioWrAddr (lane : BitVec 2) (payload : List Byte)
  | pioRdData (len : BitVec 8) (lane : BitVec 2)
  | pioWrData (lane : BitVec 2) (payload : List Byte)
  | pioRdOor (len : BitVec 8) (off : Off)
  | pioWrOor (off : Off) (payload : List Byte)
  | capRd8 (off : Off)
  | capWr8 (off : Off) (value : Byte)
  | tblRd (len : BitVec 8) (off : Off)
  | tblWr (off : Off) (payload : List Byte)
  | pbaRd (len : BitVec 8) (off : Off)
  | rootCreate (maxBus : BitVec 8)
  | rootAddBus (id : BitVec 8)
  | rootGetBus (id : BitVec 8)
  | rootActivate
  | rootResources
  | capNew
  | capSetctl (value : U16)
  | capQMasked
  | capQEnabled
  | capQTableOffset
  | capQPbaOffset
  | capQTableBir
  | capQPbaBir
  | capQTableSize
  | msxNew (n : U16)
  | msxSetctl (reg : U16)
  | msxQEnabled
  | msxQMasked
deriving DecidableEq, Repr

end Sys2Proof
end

