-- ==== Sys2Proof/WellFormed.lean ====
section
/-! DEFINITION. Which transactions a descriptor can spell (30_encoding.md R93, R97): a payload fits the 8-bit LEN, and the
`pio.*.oor` rows keep offsets 8 and above. -/

namespace Sys2Proof

/-- A payload of at most 255 bytes: 'longer buffers are not encodable' (R93). -/
def payloadFits (payload : List Byte) : Bool := decide (payload.length ≤ 255)

/-- The offsets the more specific PIO rows leave to the `pio.*.oor` rows (R97, R103). -/
def outsideWindow (off : Off) : Bool := decide (8 ≤ off.toNat)

/-- The transaction is one that a descriptor and a payload of LEN bytes spell. -/
def WellFormed : Instr → Bool
  | .ecamRd _ _ => true
  | .ecamWr _ payload => payloadFits payload
  | .pioRdAddr _ _ => true
  | .pioWrAddr _ payload => payloadFits payload
  | .pioRdData _ _ => true
  | .pioWrData _ payload => payloadFits payload
  | .pioRdOor _ off => outsideWindow off
  | .pioWrOor off payload => outsideWindow off && payloadFits payload
  | .capRd8 _ => true
  | .capWr8 _ _ => true
  | .tblRd _ _ => true
  | .tblWr _ payload => payloadFits payload
  | .pbaRd _ _ => true
  | .rootCreate _ => true
  | .rootAddBus _ => true
  | .rootGetBus _ => true
  | .rootActivate => true
  | .rootResources => true
  | .capNew => true
  | .capSetctl _ => true
  | .capQMasked => true
  | .capQEnabled => true
  | .capQTableOffset => true
  | .capQPbaOffset => true
  | .capQTableBir => true
  | .capQPbaBir => true
  | .capQTableSize => true
  | .msxNew _ => true
  | .msxSetctl _ => true
  | .msxQEnabled => true
  | .msxQMasked => true

end Sys2Proof
end

