-- ==== Sys2Proof/Decode.lean ====
section
/-! DEFINITION. Byte strings (00_scope.md R11), the transaction descriptor and its decoding (30_encoding.md R90 to R104), total
on any bytes and rejecting by name, and after it the encoder and the opcode table itself. A transaction is stored as the eight
bytes of its descriptor, least significant first, and then its payload (log 2). -/

namespace Sys2Proof

/-! ## Byte strings -/

/-- `fill(n, b)` (R11). -/
def fill (n : Nat) (b : Byte) : List Byte := List.replicate n b

/-- `zeros(n)` (R11). -/
def zeros (n : Nat) : List Byte := fill n 0x00

/-- `le(B)`: the sum of `B[k] * 2^(8k)` (R11). -/
def leValue : List Byte → Nat
  | [] => 0
  | b :: rest => b.toNat + 256 * leValue rest

/-- `bytes_le(n, v)`: the little-endian string of `v[8n-1:0]` (R11). -/
def bytesLe : Nat → Nat → List Byte
  | 0, _ => []
  | n + 1, v => BitVec.ofNat 8 v :: bytesLe n (v / 256)

/-! ## The descriptor -/

/-- `TGT[63:60]` (R90). -/
def tgtOf (td : U64) : BitVec 4 := td.extractLsb' 60 4

/-- `OP[59:56]` (R90). -/
def opOf (td : U64) : BitVec 4 := td.extractLsb' 56 4

/-- `LEN[55:48]` (R90). -/
def lenOf (td : U64) : BitVec 8 := td.extractLsb' 48 8

/-- `OFF[47:0]` (R90). -/
def offOf (td : U64) : Off := td.extractLsb' 0 48

/-- The descriptor with the four fields of R90. -/
def mkTd (tgt op : BitVec 4) (len : BitVec 8) (off : Off) : U64 := tgt ++ op ++ len ++ off

/-- The rows of the opcode map (R103), by name. -/
inductive Opcode where
  | ecamRd | ecamWr
  | pioRdAddr | pioWrAddr | pioRdData | pioWrData | pioRdOor | pioWrOor
  | capRd8 | capWr8 | tblRd | tblWr | pbaRd
  | rootCreate | rootAddBus | rootGetBus | rootActivate | rootResources
  | capNew | capSetctl | capQMasked | capQEnabled | capQTableOffset | capQPbaOffset | capQTableBir | capQPbaBir
  | capQTableSize
  | msxNew | msxSetctl | msxQEnabled | msxQMasked
deriving DecidableEq, Repr

/-- Why bytes are no transaction. `reserved` is R104; the other two are bytes that end too early (log 16). -/
inductive DecodeError where
  | reserved
  | shortDescriptor
  | shortPayload
deriving DecidableEq, Repr

/-- The row among the three PIO rows of one OP that OFF selects (R97, R103): `OFF[47:2]` is 0, is 1, or is neither. -/
def pioRow (off : Off) (addr data oor : Opcode) : Opcode :=
  if off.toNat / 4 = 0 then addr else if off.toNat / 4 = 1 then data else oor

/-- A capability row needs `LEN = 1` (R96). -/
def capRow (td : U64) (row : Opcode) : Option Opcode :=
  if lenOf td = 1 then some row else none

/-- An administration row needs `LEN = 0` and an OFF of at most `width` bits (R103, R104 (f)). -/
def adminRow (td : U64) (width : Nat) (row : Opcode) : Option Opcode :=
  if lenOf td = 0 ∧ (offOf td).toNat < 2 ^ width then some row else none

/-- The opcode map (R103); `none` is a reserved descriptor (R104). -/
def opcodeOf (td : U64) : Option Opcode :=
  match (tgtOf td).toNat, (opOf td).toNat with
  | 0x0, 0 => some .ecamRd
  | 0x0, 1 => some .ecamWr
  | 0x1, 0 => some (pioRow (offOf td) .pioRdAddr .pioRdData .pioRdOor)
  | 0x1, 1 => some (pioRow (offOf td) .pioWrAddr .pioWrData .pioWrOor)
  | 0x2, 0 => capRow td .capRd8
  | 0x2, 1 => capRow td .capWr8
  | 0x3, 0 => some .tblRd
  | 0x3, 1 => some .tblWr
  | 0x4, 0 => some .pbaRd
  | 0x8, 0 => adminRow td 8 .rootCreate
  | 0x8, 1 => adminRow td 8 .rootAddBus
  | 0x8, 2 => adminRow td 8 .rootGetBus
  | 0x8, 3 => adminRow td 0 .rootActivate
  | 0x8, 4 => adminRow td 0 .rootResources
  | 0x9, 0 => adminRow td 0 .capNew
  | 0x9, 1 => adminRow td 16 .capSetctl
  | 0x9, 2 => adminRow td 0 .capQMasked
  | 0x9, 3 => adminRow td 0 .capQEnabled
  | 0x9, 4 => adminRow td 0 .capQTableOffset
  | 0x9, 5 => adminRow td 0 .capQPbaOffset
  | 0x9, 6 => adminRow td 0 .capQTableBir
  | 0x9, 7 => adminRow td 0 .capQPbaBir
  | 0x9, 8 => adminRow td 0 .capQTableSize
  | 0xA, 0 => adminRow td 16 .msxNew
  | 0xA, 1 => adminRow td 16 .msxSetctl
  | 0xA, 2 => adminRow td 0 .msxQEnabled
  | 0xA, 3 => adminRow td 0 .msxQMasked
  | _, _ => none

/-- Whether the transaction carries a payload (R90). -/
def Opcode.carriesPayload : Opcode → Bool
  | .ecamWr | .pioWrAddr | .pioWrData | .pioWrOor | .capWr8 | .tblWr => true
  | .ecamRd | .pioRdAddr | .pioRdData | .pioRdOor | .capRd8 | .tblRd | .pbaRd
  | .rootCreate | .rootAddBus | .rootGetBus | .rootActivate | .rootResources
  | .capNew | .capSetctl | .capQMasked | .capQEnabled | .capQTableOffset | .capQPbaOffset | .capQTableBir | .capQPbaBir
  | .capQTableSize | .msxNew | .msxSetctl | .msxQEnabled | .msxQMasked => false

/-- How many payload bytes follow the descriptor: LEN for a write, none for anything else (R90, R106). -/
def payloadLength (row : Opcode) (td : U64) : Nat :=
  if row.carriesPayload then (lenOf td).toNat else 0

/-- `OFF[1:0]`, the byte lane of a PIO access (R84). -/
def laneOf (td : U64) : BitVec 2 := td.extractLsb' 0 2

/-- `OFF[7:0]`, a bus id (R94). -/
def busIdOf (td : U64) : BitVec 8 := td.extractLsb' 0 8

/-- `OFF[15:0]`, a control value or a table size (R94). -/
def controlOf (td : U64) : U16 := td.extractLsb' 0 16

/-- The transaction of one row, its operands taken from the descriptor (R93, R94) and the payload. -/
def assemble (row : Opcode) (td : U64) (payload : List Byte) : Instr :=
  match row with
  | .ecamRd => .ecamRd (lenOf td) (offOf td)
  | .ecamWr => .ecamWr (offOf td) payload
  | .pioRdAddr => .pioRdAddr (lenOf td) (laneOf td)
  | .pioWrAddr => .pioWrAddr (laneOf td) payload
  | .pioRdData => .pioRdData (lenOf td) (laneOf td)
  | .pioWrData => .pioWrData (laneOf td) payload
  | .pioRdOor => .pioRdOor (lenOf td) (offOf td)
  | .pioWrOor => .pioWrOor (offOf td) payload
  | .capRd8 => .capRd8 (offOf td)
  | .capWr8 => .capWr8 (offOf td) (payload.headD 0)
  | .tblRd => .tblRd (lenOf td) (offOf td)
  | .tblWr => .tblWr (offOf td) payload
  | .pbaRd => .pbaRd (lenOf td) (offOf td)
  | .rootCreate => .rootCreate (busIdOf td)
  | .rootAddBus => .rootAddBus (busIdOf td)
  | .rootGetBus => .rootGetBus (busIdOf td)
  | .rootActivate => .rootActivate
  | .rootResources => .rootResources
  | .capNew => .capNew
  | .capSetctl => .capSetctl (controlOf td)
  | .capQMasked => .capQMasked
  | .capQEnabled => .capQEnabled
  | .capQTableOffset => .capQTableOffset
  | .capQPbaOffset => .capQPbaOffset
  | .capQTableBir => .capQTableBir
  | .capQPbaBir => .capQPbaBir
  | .capQTableSize => .capQTableSize
  | .msxNew => .msxNew (controlOf td)
  | .msxSetctl => .msxSetctl (controlOf td)
  | .msxQEnabled => .msxQEnabled
  | .msxQMasked => .msxQMasked

/-- Decode the descriptor and take its payload from the bytes that follow it; the bytes after the payload are handed back. -/
def decodePayload (td : U64) (rest : List Byte) : Except DecodeError (Instr × List Byte) :=
  match opcodeOf td with
  | none => .error .reserved
  | some row =>
    if rest.length < payloadLength row td then .error .shortPayload
    else .ok (assemble row td (rest.take (payloadLength row td)), rest.drop (payloadLength row td))

/-- Decode one transaction from bytes (R97, R106): the transaction and the bytes after it, or the reason there is none. -/
def decode (bytes : List Byte) : Except DecodeError (Instr × List Byte) :=
  if bytes.length < 8 then .error .shortDescriptor
  else decodePayload (BitVec.ofNat 64 (leValue (bytes.take 8))) (bytes.drop 8)

/-! ## The encoder -/

/-- The payload a transaction carries (R90). -/
def payloadOf : Instr → List Byte
  | .ecamWr _ payload => payload
  | .pioWrAddr _ payload => payload
  | .pioWrData _ payload => payload
  | .pioWrOor _ payload => payload
  | .capWr8 _ value => [value]
  | .tblWr _ payload => payload
  | .ecamRd _ _ => []
  | .pioRdAddr _ _ => []
  | .pioRdData _ _ => []
  | .pioRdOor _ _ => []
  | .capRd8 _ => []
  | .tblRd _ _ => []
  | .pbaRd _ _ => []
  | .rootCreate _ => []
  | .rootAddBus _ => []
  | .rootGetBus _ => []
  | .rootActivate => []
  | .rootResources => []
  | .capNew => []
  | .capSetctl _ => []
  | .capQMasked => []
  | .capQEnabled => []
  | .capQTableOffset => []
  | .capQPbaOffset => []
  | .capQTableBir => []
  | .capQPbaBir => []
  | .capQTableSize => []
  | .msxNew _ => []
  | .msxSetctl _ => []
  | .msxQEnabled => []
  | .msxQMasked => []

/-- The LEN field of a write (R93). -/
def payloadLen (payload : List Byte) : BitVec 8 := BitVec.ofNat 8 payload.length

/-- The descriptor of a transaction (R91 to R96, R103). -/
def descriptor : Instr → U64
  | .ecamRd len off => mkTd 0x0 0 len off
  | .ecamWr off payload => mkTd 0x0 1 (payloadLen payload) off
  | .pioRdAddr len lane => mkTd 0x1 0 len (0#46 ++ lane)
  | .pioWrAddr lane payload => mkTd 0x1 1 (payloadLen payload) (0#46 ++ lane)
  | .pioRdData len lane => mkTd 0x1 0 len (1#46 ++ lane)
  | .pioWrData lane payload => mkTd 0x1 1 (payloadLen payload) (1#46 ++ lane)
  | .pioRdOor len off => mkTd 0x1 0 len off
  | .pioWrOor off payload => mkTd 0x1 1 (payloadLen payload) off
  | .capRd8 off => mkTd 0x2 0 1 off
  | .capWr8 off _ => mkTd 0x2 1 1 off
  | .tblRd len off => mkTd 0x3 0 len off
  | .tblWr off payload => mkTd 0x3 1 (payloadLen payload) off
  | .pbaRd len off => mkTd 0x4 0 len off
  | .rootCreate maxBus => mkTd 0x8 0 0 (0#40 ++ maxBus)
  | .rootAddBus id => mkTd 0x8 1 0 (0#40 ++ id)
  | .rootGetBus id => mkTd 0x8 2 0 (0#40 ++ id)
  | .rootActivate => mkTd 0x8 3 0 0
  | .rootResources => mkTd 0x8 4 0 0
  | .capNew => mkTd 0x9 0 0 0
  | .capSetctl value => mkTd 0x9 1 0 (0#32 ++ value)
  | .capQMasked => mkTd 0x9 2 0 0
  | .capQEnabled => mkTd 0x9 3 0 0
  | .capQTableOffset => mkTd 0x9 4 0 0
  | .capQPbaOffset => mkTd 0x9 5 0 0
  | .capQTableBir => mkTd 0x9 6 0 0
  | .capQPbaBir => mkTd 0x9 7 0 0
  | .capQTableSize => mkTd 0x9 8 0 0
  | .msxNew n => mkTd 0xA 0 0 (0#32 ++ n)
  | .msxSetctl reg => mkTd 0xA 1 0 (0#32 ++ reg)
  | .msxQEnabled => mkTd 0xA 2 0 0
  | .msxQMasked => mkTd 0xA 3 0 0

/-- The bytes of a transaction: the descriptor, least significant byte first, then the payload (R90, log 2). -/
def encode (i : Instr) : List Byte := bytesLe 8 (descriptor i).toNat ++ payloadOf i

/-! ## The opcode table as the spec prints it -/

/-- One row of opcode_table.json: a descriptor matches when `TD & mask = pattern` (R97). -/
structure TableRow where
  row     : Opcode
  pattern : U64
  mask    : U64
deriving DecidableEq, Repr

/-- The `match` and `mask` columns of opcode_table.json, in its order. -/
def opcodeTable : List TableRow :=
  [ ⟨.ecamRd, 0x0000000000000000, 0xFF00000000000000⟩,
    ⟨.ecamWr, 0x0100000000000000, 0xFF00000000000000⟩,
    ⟨.pioRdAddr, 0x1000000000000000, 0xFF00FFFFFFFFFFFC⟩,
    ⟨.pioWrAddr, 0x1100000000000000, 0xFF00FFFFFFFFFFFC⟩,
    ⟨.pioRdData, 0x1000000000000004, 0xFF00FFFFFFFFFFFC⟩,
    ⟨.pioWrData, 0x1100000000000004, 0xFF00FFFFFFFFFFFC⟩,
    ⟨.pioRdOor, 0x1000000000000000, 0xFF00000000000000⟩,
    ⟨.pioWrOor, 0x1100000000000000, 0xFF00000000000000⟩,
    ⟨.capRd8, 0x2001000000000000, 0xFFFF000000000000⟩,
    ⟨.capWr8, 0x2101000000000000, 0xFFFF000000000000⟩,
    ⟨.tblRd, 0x3000000000000000, 0xFF00000000000000⟩,
    ⟨.tblWr, 0x3100000000000000, 0xFF00000000000000⟩,
    ⟨.pbaRd, 0x4000000000000000, 0xFF00000000000000⟩,
    ⟨.rootCreate, 0x8000000000000000, 0xFFFFFFFFFFFFFF00⟩,
    ⟨.rootAddBus, 0x8100000000000000, 0xFFFFFFFFFFFFFF00⟩,
    ⟨.rootGetBus, 0x8200000000000000, 0xFFFFFFFFFFFFFF00⟩,
    ⟨.rootActivate, 0x8300000000000000, 0xFFFFFFFFFFFFFFFF⟩,
    ⟨.rootResources, 0x8400000000000000, 0xFFFFFFFFFFFFFFFF⟩,
    ⟨.capNew, 0x9000000000000000, 0xFFFFFFFFFFFFFFFF⟩,
    ⟨.capSetctl, 0x9100000000000000, 0xFFFFFFFFFFFF0000⟩,
    ⟨.capQMasked, 0x9200000000000000, 0xFFFFFFFFFFFFFFFF⟩,
    ⟨.capQEnabled, 0x9300000000000000, 0xFFFFFFFFFFFFFFFF⟩,
    ⟨.capQTableOffset, 0x9400000000000000, 0xFFFFFFFFFFFFFFFF⟩,
    ⟨.capQPbaOffset, 0x9500000000000000, 0xFFFFFFFFFFFFFFFF⟩,
    ⟨.capQTableBir, 0x9600000000000000, 0xFFFFFFFFFFFFFFFF⟩,
    ⟨.capQPbaBir, 0x9700000000000000, 0xFFFFFFFFFFFFFFFF⟩,
    ⟨.capQTableSize, 0x9800000000000000, 0xFFFFFFFFFFFFFFFF⟩,
    ⟨.msxNew, 0xA000000000000000, 0xFFFFFFFFFFFF0000⟩,
    ⟨.msxSetctl, 0xA100000000000000, 0xFFFFFFFFFFFF0000⟩,
    ⟨.msxQEnabled, 0xA200000000000000, 0xFFFFFFFFFFFFFFFF⟩,
    ⟨.msxQMasked, 0xA300000000000000, 0xFFFFFFFFFFFFFFFF⟩ ]

/-- The number of one-bits of a mask (R97). -/
def onesIn (mask : U64) : Nat := ((List.range 64).filter fun k => mask.getLsbD k).length

/-- A descriptor matches a row (R97). -/
def TableRow.accepts (r : TableRow) (td : U64) : Bool := td &&& r.mask == r.pattern

/-- Of two candidate rows the one whose mask has more one-bits (R97); the earlier one where they have equally many. -/
def moreSpecific (best : Option TableRow) (r : TableRow) : Option TableRow :=
  match best with
  | none => some r
  | some b => if onesIn b.mask < onesIn r.mask then some r else some b

/-- The row R97 selects from the table as printed. -/
def tableOpcode (td : U64) : Option Opcode :=
  (((opcodeTable.filter fun r => r.accepts td).foldl moreSpecific none)).map TableRow.row

/-! ## The host's question -/

/-- How many bytes the transaction of a descriptor occupies (R90, R106): eight, and LEN more for a write. -/
def transactionLength (td : U64) : Nat :=
  match opcodeOf td with
  | none => 8
  | some row => 8 + payloadLength row td

/-- The bytes of the instruction whose first `nbits` bits are those of `w` and whose other bits are 0, as far as its row
reads. -/
def tableWordBytes (nbits w : Nat) : List Byte :=
  bytesLe (transactionLength (BitVec.ofNat 64 (w % 2 ^ nbits))) (w % 2 ^ nbits)

/-- The transaction the decoder reads from the instruction whose bits are `w`. -/
def decodeTableWord (nbits w : Nat) : Option Instr :=
  match decode (tableWordBytes nbits w) with
  | .ok (i, _) => some i
  | .error _ => none

end Sys2Proof
end

