-- ==== Sys2Proof/Machine/State.lean ====
section
/-! DEFINITION. The state of the block as plain data (10_state.md), the reasons a step can stop (60_exceptions.md R266, R267),
and the machine right after reset. Fields that are the model's own and not the spec's say so. -/

namespace Sys2Proof.Machine

/-! ## Handles, ranges and operands -/

/-- The opaque handle `f` of an MSI-X function (R20, R95). -/
abbrev FnHandle := Nat

/-- The opaque handle of a `PciBus` (R26, R95). -/
abbrev BusHandle := Nat

/-- Who issues a transaction (R7, R277): a guest vCPU or a thread of the host VMM. -/
inductive Agent where
  | vcpu (n : Nat)
  | host (n : Nat)
deriving DecidableEq, Repr

/-- One element of the resource list of `root.create` (R95): a port range, an MMIO range, or a resource of another kind. -/
inductive Resource where
  | pio (base : U16) (size : Nat)
  | mmio (base size : U64)
  | other (kind value : Nat)
deriving DecidableEq, Repr

/-- The typed operands passed out of band (R95), each under its own name; a transaction reads the ones its rule names. -/
structure Operands where
  fn        : FnHandle
  bus       : BusHandle
  resources : List Resource
  tableBir  : BitVec 8
  tableSize : U16
  tableOff  : U32
  pbaBir    : BitVec 8
  pbaOff    : U32
deriving DecidableEq, Repr

/-- One transaction as its agent issues it. `overlaps` says that the caller issues it while another MSI-X transaction on the
same function is still in progress, which breaks the caller's guarantee (R77, R298, log 21). -/
structure Issue where
  agent    : Agent
  bytes    : List Byte
  operands : Operands
  overlaps : Bool
deriving DecidableEq, Repr

/-! ## Config accesses and the calls to `PciBus` -/

/-- A decoded configuration address (R9, R63). -/
structure CfgAddr where
  bus : BitVec 8
  dev : BitVec 5
  fn  : BitVec 3
  reg : BitVec 12
deriving DecidableEq, Repr

/-- What a config access moves: `n` bytes in, or the payload out. -/
inductive Access where
  | read (n : Nat)
  | write (payload : List Byte)
deriving DecidableEq, Repr

/-- A forwarded access between its decode step and its `PciBus` call (R76): it keeps the target it decoded, the bus handle
among it (R303). -/
structure Forward where
  agent  : Agent
  handle : BusHandle
  addr   : CfgAddr
  access : Access
deriving DecidableEq, Repr

/-- One event of the order in which the agents act (R79): an agent issues a transaction; an agent's forwarded access takes its
second step (R76); something outside the block panics while it holds the root lock (R266, log 9). -/
inductive Slot where
  | issue (iss : Issue)
  | forward (agent : Agent)
  | panic
deriving DecidableEq, Repr

/-- A call issued to a `PciBus` (R45), a read with the bytes it answered. -/
inductive BusCall where
  | read (handle : BusHandle) (addr : CfgAddr) (n : Nat) (answer : List Byte)
  | write (handle : BusHandle) (addr : CfgAddr) (payload : List Byte)
deriving DecidableEq, Repr

/-- The reasons of a fallback (R123). -/
inductive FallbackReason where
  | align
  | offset
  | caDisabled
  | noBus
deriving DecidableEq, Repr

/-! ## The device manager -/

/-- The calls of the registration protocol (R163). -/
inductive MgrCall where
  | beginTx
  | registerDeviceIo (range : Resource)
  | commitTx
  | cancelTx
deriving DecidableEq, Repr

/-- A call to the device manager with its answer. -/
structure MgrEntry where
  call   : MgrCall
  answer : Answer
deriving DecidableEq, Repr

/-! ## The interrupt back-end -/

/-- The only mode the block sets (R46). -/
inductive WorkMode where
  | pciMsix
deriving DecidableEq, Repr

/-- The calls the back-end's interface has (R46). No rule issues `notifier` (R270); `getGroup` stands inside the group calls
and is not logged by itself (log 17). -/
inductive Call where
  | reset
  | setWorkingMode (mode : WorkMode)
  | setMsiHighAddress (idx : Nat) (v : U32)
  | setMsiLowAddress (idx : Nat) (v : U32)
  | setMsiData (idx : Nat) (v : U32)
  | setMsiDeviceId (idx : Nat)
  | enable
  | update (idx : Nat)
  | getGroup
  | mask (idx : Nat)
  | unmask (idx : Nat)
  | getPendingState (idx : Nat)
  | notifier (idx : Nat)
deriving DecidableEq, Repr

/-- What a logged call answered: `Ok` or `Err(e)`, or the boolean of a pending query (R46). -/
inductive CallAnswer where
  | result (a : Answer)
  | pending (b : Bool)
deriving DecidableEq, Repr

/-- One element of `LOG[f]` (R47). -/
structure LogEntry where
  call   : Call
  answer : CallAnswer
deriving DecidableEq, Repr

/-! ## What a transaction returns -/

/-- The error values (R261). `IoError` records the back-end's error, the failing call with its vector, and its position in
`LOG[f]` (log 17). -/
inductive ErrorCode where
  | noResources
  | invalidBusId
  | ioError (e : Nat) (call : Call) (position : Nat)
  | activateFailed (e : Nat)
deriving DecidableEq, Repr

/-- What a transaction returns to its issuer (R90, R260). A fallback returns the same as a completion does (R123). -/
inductive Result where
  | done
  | bytes (response : List Byte)
  | bool (b : Bool)
  | u16 (v : U16)
  | u32 (v : U32)
  | bus (handle : Option BusHandle)
  | resources (ranges : List Resource)
  | error (code : ErrorCode)
deriving DecidableEq, Repr

/-- A result and the agent it went back to. -/
structure Reply where
  agent  : Agent
  result : Result
deriving DecidableEq, Repr

/-! ## The root device and the MSI-X functions -/

/-- `ROOT` (R20, R23 to R27). `buses` is the partial map of R26, one entry a registered id, ids strictly rising. -/
structure Root where
  maxBus     : BitVec 8
  hasPio     : Bool
  ioportBase : U16
  hasMmio    : Bool
  mmioBase   : U64
  mmioSize   : U64
  resources  : List Resource
  ioAddr     : U32
  buses      : List (Nat × BusHandle)
  activated  : Bool
deriving DecidableEq, Repr

/-- `CAP` (R30 to R35). -/
structure Cap where
  capId   : Byte
  capNext : Byte
  msgCtl  : U16
  table   : U32
  pba     : U32
deriving DecidableEq, Repr

/-- `MSX` (R40 to R43). `MSX.N` is the length of `tbl` (log 22). -/
structure Msx where
  enabled : Bool
  masked  : Bool
  tbl     : List Entry
deriving DecidableEq, Repr

/-- `FN[f]` with `LOG[f]` (R20, R47). -/
structure FnRec where
  cap : Option Cap
  msx : Option Msx
  log : List LogEntry
deriving DecidableEq, Repr

/-- The record of a function that nothing has constructed. -/
def FnRec.empty : FnRec := { cap := none, msx := none, log := [] }

/-! ## The oracles -/

/-- The answers the collaborators outside the block will give (R45 to R48), one tape each, read from the front; an empty tape
answers with a free value of Config, numbered by `drawn`. The model's own (log 5). -/
structure Oracle where
  be    : List Answer
  pend  : List Bool
  bus   : List Byte
  mgr   : List Answer
  drawn : Nat
deriving DecidableEq, Repr

/-! ## The state -/

/-- The whole state (10_state.md R20). `root`, `fns`, `faulted`, `refused` are the spec's; `params` are the arguments of R8;
`poisoned` is the condition of the root lock (R75, R266); the other fields are the model's own: the agents' order of events
(`queue`), the transaction being run (`cur`), the forwarded accesses between their two steps (`inflight`, R76), the outside's
answers (`oracle`), and the records of what went out (`replies`, `diag`, `busLog`, `mgrLog`). The block's state lives for the VM's
lifetime: no step removes ROOT, a CAP, an MSX or a mark (R28, R282). -/
structure State where
  params   : Params
  root     : Option Root
  poisoned : Bool
  fns      : List (Nat × FnRec)
  faulted  : Bool
  refused  : Bool
  queue    : List Slot
  cur      : Issue
  inflight : List Forward
  oracle   : Oracle
  replies  : List Reply
  diag     : List FallbackReason
  busLog   : List BusCall
  mgrLog   : List MgrEntry
deriving DecidableEq, Repr

/-- The faults (R266). -/
inductive Fault where
  /-- `F_TABLE_SIZE`: `cap.new` with `table_size >= 2048` (R180). Raised by `execCapNew`. The spec's own fault: safe. -/
  | tableSize
  /-- `F_LOCK_POISONED`: a root transaction takes the root lock and finds it poisoned (R266). Raised by every meaning that
  takes the lock. Only a `panic` event of the outside poisons it (log 9): safe. -/
  | lockPoisoned
  /-- 'after which the block takes no further step' (R266): a step of a state whose mark FAULTED is set. Raised by `step`:
  safe. -/
  | halted
deriving DecidableEq, Repr

/-- The refusals (R267): the model has no step, so no claim about a run that reaches one can be proved, which is safe. -/
inductive Refusal where
  /-- An instruction without a meaning; no arm of `exec` uses it. Safe. -/
  | notModelled (mnemonic : String)
  /-- `RF_RESERVED`: a descriptor no row of the table matches (R104). Raised by `step`. Safe. -/
  | reserved
  /-- Bytes that end before the descriptor or the payload does: no transaction (R90, log 16). Raised by `step`. Safe. -/
  | truncated
  /-- A guest issues a host transaction (R277, log 13). Raised by every host meaning. Safe. -/
  | guestPrivilege
  /-- `RF_NO_RANGE`: an access to a window that is absent, or PIO where ARCH is not X86 (R124, R125, R127). Safe. -/
  | noRange
  /-- `RF_NO_ROOT`: a root transaction before a successful `root.create` (R160, R292). Safe. -/
  | noRoot
  /-- `RF_TWICE`: a second construction or activation (R160, R163, R180, R210). Safe. -/
  | twice
  /-- `RF_AFTER_ACTIVATE`: `root.add_bus` after a successful activation (R161). Safe. -/
  | afterActivate
  /-- `RF_TABLE_SIZE`: a table size of 0 or out of range (R180, R210), or the two sizes of a function that differ (R43, R210,
  log 12). Safe. -/
  | tableSize
  /-- `RF_CONCURRENT`: an MSI-X transaction that overlaps another on its function (R77, R298, log 21). Safe. -/
  | concurrent
  /-- `RF_NO_FN`: a transaction but a constructor before the function's CAP and MSX both exist (R267, R293, log 11). Safe. -/
  | noFn
  /-- A step of a state whose mark REFUSED is set: the mark is never cleared (R28). Raised by `step`. Safe. -/
  | halted
deriving DecidableEq, Repr

/-- The three outcomes of running one transaction. -/
abbrev Exec := Host.Outcome State Fault Refusal

/-- Operands that name nothing: function 0, bus handle 0, no resources, every number zero. -/
def Operands.blank : Operands :=
  { fn := 0, bus := 0, resources := [], tableBir := 0, tableSize := 0, tableOff := 0, pbaBir := 0, pbaOff := 0 }

/-- The transaction register before anything was issued (DESIGN CHOICE, log 23). -/
def Issue.blank : Issue := { agent := .host 0, bytes := [], operands := .blank, overlaps := false }

/-- The parameters of the machine at reset: the OPEN ones are opaque (log 4), PIO_EXTREG_LSB is the default the spec states
(R8, D11). -/
def paramsAtReset : Params :=
  { arch := Config.arch, extregLsb := .lsb16, capIdValue := Config.capIdValue, entryReset := Config.entryReset }

/-- No answers on any tape, nothing drawn. -/
def Oracle.blank : Oracle := { be := [], pend := [], bus := [], mgr := [], drawn := 0 }

/-- The machine right after reset: nothing is constructed (R290, R292, R293, log 3), no mark is set (R49), nothing has been
issued and nothing has gone out. -/
def State.reset : State :=
  { params := paramsAtReset, root := none, poisoned := false, fns := [], faulted := false, refused := false, queue := [],
    cur := .blank, inflight := [], oracle := .blank, replies := [], diag := [], busLog := [], mgrLog := [] }

end Sys2Proof.Machine
end

