-- ==== Sys2Proof/Machine/Ops.lean ====
section
/-! DEFINITION. The named operations over the state: the partial maps BUSES and FN, one update per field of State, the draws
from the oracles, the calls to the back-end and to the device manager, the ways a transaction ends (00_scope.md R13,
60_exceptions.md R260), the preconditions the meanings share, and the second step of a forwarded access (20_memory.md R76). -/

namespace Sys2Proof.Machine

/-! ## Partial maps as lists with strictly rising keys -/

/-- The value at a key, if there is one. -/
def mapGet {α : Type} (key : Nat) : List (Nat × α) → Option α
  | [] => none
  | (k, v) :: rest => if k = key then some v else mapGet key rest

/-- The map with `v` at `key`, replacing an earlier value (D6). -/
def mapPut {α : Type} (key : Nat) (v : α) : List (Nat × α) → List (Nat × α)
  | [] => [(key, v)]
  | (k, w) :: rest =>
    if key < k then (key, v) :: (k, w) :: rest
    else if key = k then (key, v) :: rest
    else (k, w) :: mapPut key v rest

/-- The canonical form: keys strictly rising, so that equal maps are equal lists. -/
def mapWf {α : Type} : List (Nat × α) → Bool
  | [] => true
  | [_] => true
  | (k, _) :: (l, w) :: rest => decide (k < l) && mapWf ((l, w) :: rest)

/-! ## One update per field of State -/

/-- `ROOT` becomes `r`. -/
def State.setRoot (s : State) (r : Root) : State := { s with root := some r }

/-- `FN[f]` becomes `fr`. -/
def State.setFn (s : State) (f : FnHandle) (fr : FnRec) : State := { s with fns := mapPut f fr s.fns }

/-- The oracles after their draws. -/
def State.setOracle (s : State) (o : Oracle) : State := { s with oracle := o }

/-- Return `r` to agent `a`. -/
def State.replyTo (s : State) (a : Agent) (r : Result) : State := { s with replies := s.replies ++ [⟨a, r⟩] }

/-- Send a fallback reason to the diagnostic (R13). -/
def State.diagnose (s : State) (why : FallbackReason) : State := { s with diag := s.diag ++ [why] }

/-- A forwarded access has taken its decode step (R76). -/
def State.launch (s : State) (fw : Forward) : State := { s with inflight := s.inflight ++ [fw] }

/-- The accesses still between their two steps. -/
def State.setInflight (s : State) (l : List Forward) : State := { s with inflight := l }

/-- A call to a `PciBus` has gone out (R45). -/
def State.logBus (s : State) (c : BusCall) : State := { s with busLog := s.busLog ++ [c] }

/-- The device manager's log (R163). -/
def State.setMgrLog (s : State) (l : List MgrEntry) : State := { s with mgrLog := l }

/-- The events still to come. -/
def State.setQueue (s : State) (q : List Slot) : State := { s with queue := q }

/-- The transaction being run. -/
def State.setCur (s : State) (iss : Issue) : State := { s with cur := iss }

/-- The root lock is poisoned: something outside the block has panicked while it held the lock (R266, log 9). -/
def State.poison (s : State) : State := { s with poisoned := true }

/-- `MARK.FAULTED` is set (R28). -/
def State.markFaulted (s : State) : State := { s with faulted := true }

/-- `MARK.REFUSED` is set (R28). -/
def State.markRefused (s : State) : State := { s with refused := true }

/-- The record of function `f`; the empty record where nothing is constructed. -/
def State.fnRec (s : State) (f : FnHandle) : FnRec := (mapGet f s.fns).getD FnRec.empty

/-! ## The ways a transaction ends -/

/-- Return a result to the issuer of the current transaction. -/
def State.reply (s : State) (r : Result) : State := s.replyTo s.cur.agent r

/-- `raise <Error>`: THE ONE OPERATION BY WHICH AN ERROR IS TAKEN. The error is a value returned to the caller; nothing is
saved, no mode changes, no vector is taken, and there is no return from it (R12, R273, R274). -/
def State.raise (s : State) (e : ErrorCode) : State := s.reply (.error e)

/-- What an access that misses its decode returns: all-ones for a read, nothing for a write (R13). -/
def missResult : Access → Result
  | .read n => .bytes (fill n 0xFF)
  | .write _ => .done

/-- `fallback(reason)` (R13, R123). -/
def State.fallback (s : State) (why : FallbackReason) (acc : Access) : State :=
  (s.diagnose why).reply (missResult acc)

/-- The numeric error codes (R261). -/
def ErrorCode.code : ErrorCode → Nat
  | .noResources => 1
  | .invalidBusId => 2
  | .ioError _ _ _ => 3
  | .activateFailed _ => 4

/-- What an agent sees of a result: a guest access that ends in an error completes from the guest's point of view (R276, D40);
the host-side caller sees the error. -/
def seenBy : Agent → Result → Result
  | .vcpu _, .error _ => .done
  | _, r => r

/-! ## Draws from the oracles -/

/-- The next answer of an interrupt back-end (R46). -/
def Oracle.drawBe (o : Oracle) : Answer × Oracle :=
  match o.be with
  | a :: rest => (a, { o with be := rest })
  | [] => (Config.freeAnswer o.drawn, { o with drawn := o.drawn + 1 })

/-- The next pending state a back-end reports (R48). -/
def Oracle.drawPending (o : Oracle) : Bool × Oracle :=
  match o.pend with
  | b :: rest => (b, { o with pend := rest })
  | [] => (Config.freePending o.drawn, { o with drawn := o.drawn + 1 })

/-- The next answer of the device manager (R163). -/
def Oracle.drawMgr (o : Oracle) : Answer × Oracle :=
  match o.mgr with
  | a :: rest => (a, { o with mgr := rest })
  | [] => (Config.freeAnswer o.drawn, { o with drawn := o.drawn + 1 })

/-- The next byte a `PciBus` returns (R45). -/
def Oracle.drawByte (o : Oracle) : Byte × Oracle :=
  match o.bus with
  | b :: rest => (b, { o with bus := rest })
  | [] => (Config.freeByte o.drawn, { o with drawn := o.drawn + 1 })

/-- The `n` bytes a `PciBus` returns for a read of `n` bytes (R45). -/
def drawBytes : Nat → Oracle → List Byte × Oracle
  | 0, o => ([], o)
  | n + 1, o => (o.drawByte.1 :: (drawBytes n o.drawByte.2).1, (drawBytes n o.drawByte.2).2)

/-! ## Calls to the interrupt back-end -/

/-- A failed call: the error, the call and its position in `LOG[f]` (R261). -/
structure CallFailure where
  e        : Nat
  call     : Call
  position : Nat
deriving DecidableEq, Repr

/-- What a sequence of calls leaves: the first failure if there is one, `LOG[f]` and the oracles. -/
structure CallOutcome where
  failure : Option CallFailure
  log     : List LogEntry
  oracle  : Oracle
deriving DecidableEq, Repr

/-- `call BE.op(args)?` for each call in order (R13): every call issued is logged with its answer (R47), and the first `Err`
ends the sequence. -/
def runCalls : List Call → List LogEntry → Oracle → CallOutcome
  | [], log, o => { failure := none, log := log, oracle := o }
  | c :: rest, log, o =>
    match o.drawBe with
    | (.ok, o') => runCalls rest (log ++ [⟨c, .result .ok⟩]) o'
    | (.err e, o') => { failure := some ⟨e, c, log.length⟩, log := log ++ [⟨c, .result (.err e)⟩], oracle := o' }

/-- Store a function's record, its log and the oracles after a sequence of calls. -/
def State.afterCalls (s : State) (f : FnHandle) (fr : FnRec) (out : CallOutcome) : State :=
  (s.setFn f { fr with log := out.log }).setOracle out.oracle

/-- Issue the calls and end the transaction: with `done`, the function's record becoming `onOk`; or with `IoError` at the first
failing call, the record becoming `onErr` (R13, R264). Either way `LOG[f]` holds the calls that were issued. -/
def finishCalls (s : State) (f : FnHandle) (calls : List Call) (log : List LogEntry) (onOk onErr : FnRec) : State :=
  let out := runCalls calls log s.oracle
  match out.failure with
  | none => (s.afterCalls f onOk out).reply .done
  | some bad => (s.afterCalls f onErr out).raise (.ioError bad.e bad.call bad.position)

/-! ## Calls to the device manager -/

/-- What the registration loop leaves: the error if it failed, the manager's log and the oracles. -/
structure MgrOutcome where
  failure : Option Nat
  log     : List MgrEntry
  oracle  : Oracle
deriving DecidableEq, Repr

/-- Register each range and commit; cancel at the first registration that fails (R163, D8). -/
def registerAll : List Resource → List MgrEntry → Oracle → MgrOutcome
  | [], log, o =>
    match o.drawMgr with
    | (.ok, o') => { failure := none, log := log ++ [⟨.commitTx, .ok⟩], oracle := o' }
    | (.err e, o') => { failure := some e, log := log ++ [⟨.commitTx, .err e⟩], oracle := o' }
  | rg :: rest, log, o =>
    match o.drawMgr with
    | (.ok, o') => registerAll rest (log ++ [⟨.registerDeviceIo rg, .ok⟩]) o'
    | (.err e, o') =>
      { failure := some e, log := log ++ [⟨.registerDeviceIo rg, .err e⟩, ⟨.cancelTx, .ok⟩], oracle := o' }

/-! ## Preconditions the meanings share -/

/-- Only the host issues administration transactions (R277). -/
def hostOnly (s : State) (k : Exec) : Exec :=
  match s.cur.agent with
  | .host _ => k
  | .vcpu _ => .refused .guestPrivilege

/-- A root transaction needs `ROOT` (R267 `RF_NO_ROOT`). -/
def withRoot (s : State) (k : Root → Exec) : Exec :=
  match s.root with
  | none => .refused .noRoot
  | some r => k r

/-- A transaction that takes the root lock (R75, R266). -/
def underLock (s : State) (k : Exec) : Exec :=
  if s.poisoned then .fault .lockPoisoned else k

/-- The ECAM window exists (R124, R125). -/
def withEcam (s : State) (k : Root → Exec) : Exec :=
  withRoot s fun r => if r.hasMmio then k r else .refused .noRange

/-- Rule R127's precondition: `ARCH = X86` and a PIO range. -/
def withPio (s : State) (k : Root → Exec) : Exec :=
  withRoot s fun r => if s.params.arch = .x86 ∧ r.hasPio = true then k r else .refused .noRange

/-- The caller's serialization guarantee: an MSI-X transaction that overlaps another on its function is refused (R77, R267
`RF_CONCURRENT`, log 21). -/
def serialized (s : State) (k : Exec) : Exec :=
  if s.cur.overlaps then .refused .concurrent else k

/-- The function of the current transaction has both its CAP and its MSX: 'until both exist, every transaction on the function except
the two constructors is refused' (R293, R267 `RF_NO_FN`, log 11). -/
def withFunction (s : State) (k : Cap → Msx → Exec) : Exec :=
  match (s.fnRec s.cur.operands.fn).cap, (s.fnRec s.cur.operands.fn).msx with
  | none, _ => .refused .noFn
  | some _, none => .refused .noFn
  | some c, some m => k c m

/-! ## The second step of a forwarded access, and the marks -/

/-- The `CfgRead` or `CfgWrite` call of a forwarded access and its return to the agent (R45, R76). The data bytes pass through
unchanged (R69). -/
def State.perform (s : State) (fw : Forward) : State :=
  match fw.access with
  | .read n =>
    ((s.logBus (.read fw.handle fw.addr n (drawBytes n s.oracle).1)).setOracle (drawBytes n s.oracle).2).replyTo fw.agent
      (.bytes (drawBytes n s.oracle).1)
  | .write payload => (s.logBus (.write fw.handle fw.addr payload)).replyTo fw.agent .done

/-- The access an agent has in flight, if it has one. -/
def accessOf (a : Agent) (l : List Forward) : Option Forward := l.find? fun fw => fw.agent == a

/-- The accesses in flight without the first one of agent `a`. -/
def withoutAccessOf (a : Agent) (l : List Forward) : List Forward := l.eraseP fun fw => fw.agent == a

/-- Perform the second step of an access in flight and take it off the list. -/
def State.complete (s : State) (fw : Forward) : State :=
  (s.perform fw).setInflight (withoutAccessOf fw.agent s.inflight)

/-- The state an outcome leaves the machine in, with the marks of R28 set by a fault and by a refusal. -/
def State.settle (s : State) : Exec → State
  | .next t => t
  | .fault _ => s.markFaulted
  | .refused _ => s.markRefused

end Sys2Proof.Machine
end

