-- ==== Sys2Proof/Machine/Operands.lean ====
section
/-! DEFINITION. Every operand form of the spec: the alignment predicate, the ECAM and CONFIG_ADDRESS formats, the byte lanes of
CONFIG_ADDRESS, the capability's fields and image, the table entry's image, the PBA's vectors (20_memory.md, 30_encoding.md
R98 to R102, 40_root_access.md R120 to R123, 42_msix_cap.md), and the dispatch of a decoded config access. -/

namespace Sys2Proof.Machine

/-! ## Alignment -/

/-- `check_align(len, off)` (R70, R120). -/
def checkAlign (len off : Nat) : Bool :=
  (len == 1 || len == 2 || len == 4) && off % len == 0

/-- The byte count of an access. -/
def Access.length : Access → Nat
  | .read n => n
  | .write payload => payload.length

/-! ## Config addresses -/

/-- `parse_mmio(o)` (R98, R121): the register with its low two bits 0; bits 47:28 are ignored. -/
def parseMmio (o : Off) : CfgAddr :=
  { bus := o.extractLsb' 20 8, dev := o.extractLsb' 15 5, fn := o.extractLsb' 12 3, reg := o.extractLsb' 2 10 ++ 0#2 }

/-- The extended-register nibble of CONFIG_ADDRESS (R25, D11). -/
def extreg (lsb : ExtregLsb) (v : U32) : BitVec 4 :=
  match lsb with
  | .lsb16 => v.extractLsb' 16 4
  | .lsb24 => v.extractLsb' 24 4

/-- `parse_io(v)` (R99, R122): the register is `(v[7:0] | (extreg << 8)) & 0xFFC`. -/
def parseIo (lsb : ExtregLsb) (v : U32) : CfgAddr :=
  { bus := v.extractLsb' 16 8, dev := v.extractLsb' 11 5, fn := v.extractLsb' 8 3,
    reg := ((v.extractLsb' 0 8).setWidth 12 ||| ((extreg lsb v).setWidth 12 <<< 8)) &&& 0xFFC#12 }

/-- OR the byte index `OFF & 3` back into a dword-aligned register (R99, R121). -/
def CfgAddr.atByte (a : CfgAddr) (lane : BitVec 2) : CfgAddr := { a with reg := a.reg ||| lane.setWidth 12 }

/-- The ECAM offset that re-encodes a decoded address (R121). -/
def encodeMmio (a : CfgAddr) : Off :=
  (a.bus.setWidth 48 <<< 20) ||| (a.dev.setWidth 48 <<< 15) ||| (a.fn.setWidth 48 <<< 12) ||| a.reg.setWidth 48

/-- `IO_ADDR[31]`, the enable bit of CONFIG_DATA (R25, `CA_ENABLE` of R16). -/
def caEnabled (v : U32) : Bool := v.getLsbD 31

/-- `lookup(b)` (R123). -/
def busLookup (r : Root) (b : BitVec 8) : Option BusHandle := mapGet b.toNat r.buses

/-- Forward a decoded access to its bus, or fall back with `FB_NO_BUS` (R124, R125, R130, R131): this is the decode step, under
the shared lock (R75); the `PciBus` call is the second step (R76). -/
def forwardOrMiss (s : State) (r : Root) (a : CfgAddr) (acc : Access) : State :=
  match busLookup r a.bus with
  | none => s.fallback .noBus acc
  | some h => s.launch { agent := s.cur.agent, handle := h, addr := a, access := acc }

/-- An ECAM access (R124, R125): range presence, alignment, decode and lookup under the lock, in this order (R269). -/
def ecamAccess (off : Off) (acc : Access) (s : State) : Exec :=
  withEcam s fun r =>
    if checkAlign acc.length off.toNat then
      underLock s (.next (forwardOrMiss s r ((parseMmio off).atByte (off.extractLsb' 0 2)) acc))
    else .next (s.fallback .align acc)

/-- A CONFIG_DATA access at window offset `4 + lane` (R130, R131): range presence, alignment, enable bit, lookup (R269). -/
def dataAccess (lane : BitVec 2) (acc : Access) (s : State) : Exec :=
  withPio s fun r =>
    if checkAlign acc.length (4 + lane.toNat) then
      underLock s <|
        if caEnabled r.ioAddr then .next (forwardOrMiss s r ((parseIo s.params.extregLsb r.ioAddr).atByte lane) acc)
        else .next (s.fallback .caDisabled acc)
    else .next (s.fallback .align acc)

/-- A PIO access at a window offset of 8 or more (R132, R133). -/
def oorAccess (acc : Access) (s : State) : Exec :=
  withPio s fun _ => .next (s.fallback .offset acc)

/-! ## The byte lanes of CONFIG_ADDRESS -/

/-- `sh = (OFF & 3) * 8` (R128, R129). -/
def laneShift (lane : BitVec 2) : Nat := lane.toNat * 8

/-- The bytes a read of CONFIG_ADDRESS returns: byte `k` is `v[sh+8k+7 : sh+8k]` (R68, R128). -/
def laneBytes (v : U32) (sh : Nat) : Nat → List Byte
  | 0 => []
  | n + 1 => v.extractLsb' sh 8 :: laneBytes v (sh + 8) n

/-- `m = ((2^(8*LEN) - 1) << sh) & 0xFFFF_FFFF` (R129). -/
def laneMask (len sh : Nat) : U32 := BitVec.ofNat 32 ((2 ^ (8 * len) - 1) * 2 ^ sh)

/-- `(IO_ADDR & ~m) | ((le(D) << sh) & m)` (R68, R129). -/
def laneMerge (v : U32) (sh : Nat) (payload : List Byte) : U32 :=
  (v &&& ~~~(laneMask payload.length sh)) ||| (BitVec.ofNat 32 (leValue payload * 2 ^ sh) &&& laneMask payload.length sh)

/-! ## The capability -/

/-- `FUNCTION_MASK_MASK` (R16). -/
def functionMaskMask : U16 := 0x4000

/-- `MSIX_ENABLE_MASK` (R16). -/
def msixEnableMask : U16 := 0x8000

/-- `IMAGE(CAP)`, the 12 bytes the guest reads (R30). -/
def Cap.image (c : Cap) : List Byte :=
  [c.capId, c.capNext] ++ bytesLe 2 c.msgCtl.toNat ++ bytesLe 4 c.table.toNat ++ bytesLe 4 c.pba.toNat

/-- `(off & 0xFFFF_FFF8) | (bir & 7)` (R34, R35, D16). -/
def packOffset (off : U32) (bir : BitVec 8) : U32 := (off &&& 0xFFFFFFF8#32) ||| (bir &&& 0x7#8).setWidth 32

/-- `reg & 0xFFFF_FFF8` (R186, R187). -/
def offsetOf (reg : U32) : U32 := reg &&& 0xFFFFFFF8#32

/-- `zext_32(reg[2:0])` (R188, R189). -/
def birOf (reg : U32) : U32 := (reg.extractLsb' 0 3).setWidth 32

/-- `zext_16(MSG_CTL[10:0]) + 1` (R190). -/
def Cap.tableSize (c : Cap) : U16 := (c.msgCtl.extractLsb' 0 11).setWidth 16 + 1

/-- Replace bits 15 and 14 of MSG_CTL by those of `data` and keep the others (R36, R182, R183). -/
def Cap.setControl (c : Cap) (data : U16) : Cap :=
  { c with msgCtl := (c.msgCtl &&& ~~~(functionMaskMask ||| msixEnableMask)) |||
      (data &&& (functionMaskMask ||| msixEnableMask)) }

/-- The control value a guest byte written to offset 3 stands for: `zext_16(D[0]) << 8` (R100, R182). -/
def controlByte (value : Byte) : U16 := value.setWidth 16 <<< 8

/-! ## The table -/

/-- `MSX.N` (R43). -/
def Msx.size (m : Msx) : Nat := m.tbl.length

/-- `IMAGE(TBL[i])`, the 16 bytes of an entry (R41). -/
def entryImage (e : Entry) : List Byte :=
  bytesLe 4 e.addrLo.toNat ++ bytesLe 4 e.addrHi.toNat ++ bytesLe 4 e.data.toNat ++ bytesLe 4 e.vctl.toNat

/-- The entry whose image is a 16-byte string (R41). -/
def entryOfImage (b : List Byte) : Entry :=
  { addrLo := BitVec.ofNat 32 (leValue (b.take 4)),
    addrHi := BitVec.ofNat 32 (leValue ((b.drop 4).take 4)),
    data := BitVec.ofNat 32 (leValue ((b.drop 8).take 4)),
    vctl := BitVec.ofNat 32 (leValue ((b.drop 12).take 4)) }

/-- `VCTL[0]`, the per-vector mask (R41). -/
def maskBit (e : Entry) : Bool := e.vctl.getLsbD 0

/-- `index = OFF / 16` (R101). -/
def tableIndex (off : Off) : Nat := off.toNat / 16

/-- `intra = OFF mod 16` (R101). -/
def tableIntra (off : Off) : Nat := off.toNat % 16

/-- A byte string with `payload` over its bytes from `j` on. -/
def overwrite (image : List Byte) (j : Nat) (payload : List Byte) : List Byte :=
  image.take j ++ payload ++ image.drop (j + payload.length)

/-- The entry after `payload` was stored from its byte `j` on (R215, D26). -/
def patchEntry (e : Entry) (j : Nat) (payload : List Byte) : Entry := entryOfImage (overwrite (entryImage e) j payload)

/-- The entry a table access of `len` bytes addresses: none if its index is not below N or it crosses the 16-byte boundary
(R71). -/
def addressedEntry (m : Msx) (off : Off) (len : Nat) : Option Entry :=
  if tableIntra off + len > 16 then none else m.tbl[tableIndex off]?

/-- The response of a table read (R214). -/
def tableBytes (m : Msx) (off : Off) (len : Nat) : List Byte :=
  match addressedEntry m off len with
  | none => fill len 0xFF
  | some e => ((entryImage e).drop (tableIntra off)).take len

/-- The byte at a table offset: byte `off mod 16` of entry `off / 16` (R65). -/
def tableByte (tbl : List Entry) (off : Nat) : Option Byte :=
  (tbl[off / 16]?).bind fun e => (entryImage e)[off % 16]?

/-! ## The pending-bit array -/

/-- `VCTL[0]` of vector `v`, and 0 for a vector at or above N (R216). -/
def vectorMasked (m : Msx) (v : Nat) : Bool :=
  match m.tbl[v]? with
  | none => false
  | some e => maskBit e

/-- What a PBA query leaves. -/
structure PbaOutcome where
  byte   : Byte
  log    : List LogEntry
  oracle : Oracle
deriving DecidableEq, Repr

/-- Bits `b` to `b + count - 1` of the PBA byte that stands for vectors `8*k` to `8*k + 7` (R102, R216): a vector below N that is
individually masked is queried, in ascending order, and each query is a logged draw (R48, D28). -/
def pbaBits (m : Msx) (k : Nat) : Nat → Nat → List LogEntry → Oracle → PbaOutcome
  | 0, _, log, o => { byte := 0, log := log, oracle := o }
  | count + 1, b, log, o =>
    if vectorMasked m (8 * k + b) then
      let rest := pbaBits m k count (b + 1) (log ++ [⟨.getPendingState (8 * k + b), .pending o.drawPending.1⟩]) o.drawPending.2
      { rest with byte := rest.byte ||| (if o.drawPending.1 then 1#8 <<< b else 0) }
    else pbaBits m k count (b + 1) log o

/-- What a PBA read leaves. -/
structure PbaRead where
  bytes  : List Byte
  log    : List LogEntry
  oracle : Oracle
deriving DecidableEq, Repr

/-- `n` PBA bytes from byte `k` on (R216). -/
def pbaBytes (m : Msx) : Nat → Nat → List LogEntry → Oracle → PbaRead
  | 0, _, log, o => { bytes := [], log := log, oracle := o }
  | n + 1, k, log, o =>
    let first := pbaBits m k 8 0 log o
    let rest := pbaBytes m n (k + 1) first.log first.oracle
    { rest with bytes := first.byte :: rest.bytes }

end Sys2Proof.Machine
end

