-- ==== Sys2Proof/Machine/Flags.lean ====
section
/-! DEFINITION. The block's only flags, `MSX.ENABLED` and `MSX.MASKED` (00_scope.md R14, 10_state.md R40): what a control value
makes of them, and the back-end calls each transition and each table write owes (43_msix_state.md R211 to R213, R215). The table
does not change while the calls are issued, so each call sequence is a list computed from it. Loops run in ascending vector
order (D36). -/

namespace Sys2Proof.Machine

/-- `new_en`: bit 15 of the control value (R211). -/
def newEnabled (reg : U16) : Bool := reg &&& msixEnableMask != 0

/-- `new_m`: bit 14 of the control value (R211). -/
def newMasked (reg : U16) : Bool := reg &&& functionMaskMask != 0

/-- Address and data of one vector, in the order high, low, data (R212, R215). -/
def programCalls (i : Nat) (e : Entry) : List Call :=
  [.setMsiHighAddress i e.addrHi, .setMsiLowAddress i e.addrLo, .setMsiData i e.data]

/-- 'device-id on aarch64' (R212). -/
def deviceIdCalls (arch : Arch) (i : Nat) : List Call :=
  match arch with
  | .aarch64 => [.setMsiDeviceId i]
  | .x86 => []
  | .other => []

/-- The programming loop of the enable sequence over the entries from vector `i` on (R212). -/
def programLoop (arch : Arch) : Nat → List Entry → List Call
  | _, [] => []
  | i, e :: rest => programCalls i e ++ deviceIdCalls arch i ++ programLoop arch (i + 1) rest

/-- The loop that issues `op` for each vector whose entry satisfies `which`, from vector `i` on. -/
def vectorLoop (op : Nat → Call) (which : Entry → Bool) : Nat → List Entry → List Call
  | _, [] => []
  | i, e :: rest => (if which e then [op i] else []) ++ vectorLoop op which (i + 1) rest

/-- `enable_sequence(new_m)` (R212, R295). -/
def enableCalls (arch : Arch) (tbl : List Entry) (newM : Bool) : List Call :=
  [.reset, .setWorkingMode .pciMsix] ++ programLoop arch 0 tbl ++ [.enable] ++
    vectorLoop .mask (fun e => maskBit e || newM) 0 tbl

/-- `mask_toggle(old_m, new_m)` (R213): vectors whose own mask bit is set get no call. -/
def toggleCalls (oldM newM : Bool) (tbl : List Entry) : List Call :=
  match oldM, newM with
  | true, false => vectorLoop .unmask (fun e => !maskBit e) 0 tbl
  | false, true => vectorLoop .mask (fun e => !maskBit e) 0 tbl
  | true, true => []
  | false, false => []

/-- The calls of the four rows of the transition table (R211). -/
def transitionCalls (arch : Arch) (m : Msx) (newEn newM : Bool) : List Call :=
  match m.enabled, newEn with
  | false, false => []
  | false, true => enableCalls arch m.tbl newM
  | true, false => [.reset]
  | true, true => toggleCalls m.masked newM m.tbl

/-- The transition of function `f` with record `fr` (R211): nothing to do when no flag changes; otherwise the calls, and the
flags only when every call returned `Ok` (D19). `fr` is stored in every case. -/
def transition (s : State) (f : FnHandle) (fr : FnRec) (m : Msx) (reg : U16) : State :=
  if m.enabled = newEnabled reg ∧ m.masked = newMasked reg then (s.setFn f fr).reply .done
  else
    finishCalls s f (transitionCalls s.params.arch m (newEnabled reg) (newMasked reg)) fr.log
      { fr with msx := some { m with enabled := newEnabled reg, masked := newMasked reg } } fr

/-- The reprogramming calls of a write that touches bytes `[0, 0xC)` of entry `i` (R215, D24). -/
def reprogramCalls (i j : Nat) (e : Entry) : List Call :=
  if j < 0xC then programCalls i e ++ [.update i] else []

/-- The mask call of a write that includes byte 0xC while the function is not masked: level, by the new bit (R215, D25). -/
def propagateCalls (i j len : Nat) (masked : Bool) (e : Entry) : List Call :=
  if j ≤ 0xC ∧ 0xC < j + len ∧ masked = false then [if maskBit e then .mask i else .unmask i] else []

/-- The calls of a table write of `len` bytes at byte `j` of entry `i`, whose new content is `e` (R215). -/
def tableWriteCalls (m : Msx) (i j len : Nat) (e : Entry) : List Call :=
  if m.enabled = true ∧ 0 < len then reprogramCalls i j e ++ propagateCalls i j len m.masked e else []

end Sys2Proof.Machine
end

