-- ==== Sys2Proof/Machine/MsixCap.lean ====
section
/-! DEFINITION. The MSI-X capability structure (42_msix_cap.md). A transaction that overlaps another on its function is refused
(R267 `RF_CONCURRENT`, log 21), and so is one but a constructor before both objects of the function exist (R293, log 11). -/

namespace Sys2Proof.Machine

/-- The capability that `cap.new` builds (R31 to R35, R180); `CAP_NEXT_INIT` is 0 (D15). -/
def newCap (p : Params) (o : Operands) : Cap :=
  { capId := p.capIdValue, capNext := 0, msgCtl := o.tableSize - 1,
    table := packOffset o.tableOff o.tableBir, pba := packOffset o.pbaOff o.pbaBir }

/-- The MSX of the record has another length than `n`. -/
def builtSizeDiffers (fr : FnRec) (n : U16) : Bool :=
  match fr.msx with
  | none => false
  | some m => m.size != n.toNat

/-- `cap.new` (R180). Beside an MSX of another length it is refused: 'pairing a CAP with an MSX of another length is refused' (R43,
R293, log 12). -/
def execCapNew (s : State) : Exec :=
  hostOnly s <| serialized s <|
    if (s.fnRec s.cur.operands.fn).cap.isSome then .refused .twice
    else if s.cur.operands.tableSize = 0 then .refused .tableSize
    else if 2048 ≤ s.cur.operands.tableSize.toNat then .fault .tableSize
    else if builtSizeDiffers (s.fnRec s.cur.operands.fn) s.cur.operands.tableSize then .refused .tableSize
    else .next ((s.setFn s.cur.operands.fn
      { s.fnRec s.cur.operands.fn with cap := some (newCap s.params s.cur.operands) }).reply .done)

/-- `cap.rd8` (R64, R181): an offset past the image reads 0xFF. -/
def execCapRd8 (off : Off) (s : State) : Exec :=
  serialized s <| withFunction s fun c _ => .next (s.reply (.bytes [c.image.getD off.toNat 0xFF]))

/-- `cap.wr8` (R182): only offset 3 is writable; there the two control bits are stored first and the transition runs with the
new MSG_CTL (D18). -/
def execCapWr8 (off : Off) (value : Byte) (s : State) : Exec :=
  serialized s <| withFunction s fun c m =>
    if off ≠ 3 then .next (s.reply .done)
    else
      .next (transition s s.cur.operands.fn
        { s.fnRec s.cur.operands.fn with cap := some (c.setControl (controlByte value)) } m
        (c.setControl (controlByte value)).msgCtl)

/-- `cap.setctl` (R183). -/
def execCapSetctl (value : U16) (s : State) : Exec :=
  hostOnly s <| serialized s <| withFunction s fun c _ =>
    .next ((s.setFn s.cur.operands.fn
      { s.fnRec s.cur.operands.fn with cap := some (c.setControl value) }).reply .done)

/-- A host accessor of the capability: it returns what `f` reads off CAP and changes nothing (R184 to R190). -/
def capQuery (f : Cap → Result) (s : State) : Exec :=
  hostOnly s <| serialized s <| withFunction s fun c _ => .next (s.reply (f c))

/-- `cap.q.masked` (R184). -/
def execCapQMasked (s : State) : Exec :=
  capQuery (fun c => .bool (c.msgCtl.getLsbD 14)) s

/-- `cap.q.enabled` (R185). -/
def execCapQEnabled (s : State) : Exec :=
  capQuery (fun c => .bool (c.msgCtl.getLsbD 15)) s

/-- `cap.q.table_offset` (R186). -/
def execCapQTableOffset (s : State) : Exec :=
  capQuery (fun c => .u32 (offsetOf c.table)) s

/-- `cap.q.pba_offset` (R187). -/
def execCapQPbaOffset (s : State) : Exec :=
  capQuery (fun c => .u32 (offsetOf c.pba)) s

/-- `cap.q.table_bir` (R188). -/
def execCapQTableBir (s : State) : Exec :=
  capQuery (fun c => .u32 (birOf c.table)) s

/-- `cap.q.pba_bir` (R189). -/
def execCapQPbaBir (s : State) : Exec :=
  capQuery (fun c => .u32 (birOf c.pba)) s

/-- `cap.q.table_size` (R190). -/
def execCapQTableSize (s : State) : Exec :=
  capQuery (fun c => .u16 c.tableSize) s

end Sys2Proof.Machine
end

