-- ==== Sys2Proof/Machine/MsixState.lean ====
section
/-! DEFINITION. The MSI-X state machine, the table and the pending-bit array (43_msix_state.md). Each transaction of this file
is one atomic step of its function, and one that overlaps another is refused (R77, R220, log 21). -/

namespace Sys2Proof.Machine

/-- The state machine that `msx.new` builds (R40, R42, R210). -/
def newMsx (p : Params) (n : Nat) : Msx :=
  { enabled := false, masked := false, tbl := List.replicate n p.entryReset }

/-- The CAP of the record declares another table size than `n` (R43, R210). -/
def declaredSizeDiffers (fr : FnRec) (n : U16) : Bool :=
  match fr.cap with
  | none => false
  | some c => c.tableSize != n

/-- `msx.new` (R210). -/
def execMsxNew (n : U16) (s : State) : Exec :=
  hostOnly s <| serialized s <|
    if (s.fnRec s.cur.operands.fn).msx.isSome then .refused .twice
    else if n = 0 ∨ 2048 ≤ n.toNat then .refused .tableSize
    else if declaredSizeDiffers (s.fnRec s.cur.operands.fn) n then .refused .tableSize
    else .next ((s.setFn s.cur.operands.fn
      { s.fnRec s.cur.operands.fn with msx := some (newMsx s.params n.toNat), log := [] }).reply .done)

/-- `msx.setctl` (R211 to R213). -/
def execMsxSetctl (reg : U16) (s : State) : Exec :=
  hostOnly s <| serialized s <| withFunction s fun _ m =>
    .next (transition s s.cur.operands.fn (s.fnRec s.cur.operands.fn) m reg)

/-- `tbl.rd` (R214). -/
def execTblRd (len : BitVec 8) (off : Off) (s : State) : Exec :=
  serialized s <| withFunction s fun _ m => .next (s.reply (.bytes (tableBytes m off len.toNat)))

/-- `tbl.wr` (R215): a write outside the table or across an entry is dropped; otherwise the bytes are stored first and stay
(D26), then the calls are issued from the stored entry. -/
def execTblWr (off : Off) (payload : List Byte) (s : State) : Exec :=
  serialized s <| withFunction s fun _ m =>
    match addressedEntry m off payload.length with
    | none => .next (s.reply .done)
    | some e =>
      let e' := patchEntry e (tableIntra off) payload
      let fr := { s.fnRec s.cur.operands.fn with
        msx := some { m with tbl := m.tbl.set (tableIndex off) e' } }
      .next (finishCalls s s.cur.operands.fn (tableWriteCalls m (tableIndex off) (tableIntra off) payload.length e')
        fr.log fr fr)

/-- `pba.rd` (R216). -/
def execPbaRd (len : BitVec 8) (off : Off) (s : State) : Exec :=
  serialized s <| withFunction s fun _ m =>
    if m.enabled then
      let out := pbaBytes m len.toNat off.toNat (s.fnRec s.cur.operands.fn).log s.oracle
      .next (((s.setFn s.cur.operands.fn { s.fnRec s.cur.operands.fn with log := out.log }).setOracle out.oracle).reply
        (.bytes out.bytes))
    else .next (s.reply (.bytes (zeros len.toNat)))

/-- `msx.q.enabled` (R217). -/
def execMsxQEnabled (s : State) : Exec :=
  hostOnly s <| serialized s <| withFunction s fun _ m => .next (s.reply (.bool m.enabled))

/-- `msx.q.masked` (R218). -/
def execMsxQMasked (s : State) : Exec :=
  hostOnly s <| serialized s <| withFunction s fun _ m => .next (s.reply (.bool m.masked))

end Sys2Proof.Machine
end

