-- ==== Sys2Proof/Machine/RootAccess.lean ====
section
/-! DEFINITION. The guest configuration accesses (40_root_access.md): ECAM, CONFIG_ADDRESS, CONFIG_DATA and the offsets outside
the I/O window. -/

namespace Sys2Proof.Machine

/-- `ecam.rd` (R124). -/
def execEcamRd (len : BitVec 8) (off : Off) (s : State) : Exec := ecamAccess off (.read len.toNat) s

/-- `ecam.wr` (R125). -/
def execEcamWr (off : Off) (payload : List Byte) (s : State) : Exec := ecamAccess off (.write payload) s

/-- `pio.rd.addr` (R128). -/
def execPioRdAddr (len : BitVec 8) (lane : BitVec 2) (s : State) : Exec :=
  withPio s fun r =>
    if checkAlign len.toNat lane.toNat then
      underLock s (.next (s.reply (.bytes (laneBytes r.ioAddr (laneShift lane) len.toNat))))
    else .next (s.fallback .align (.read len.toNat))

/-- `pio.wr.addr` (R129). -/
def execPioWrAddr (lane : BitVec 2) (payload : List Byte) (s : State) : Exec :=
  withPio s fun r =>
    if checkAlign payload.length lane.toNat then
      underLock s (.next ((s.setRoot { r with ioAddr := laneMerge r.ioAddr (laneShift lane) payload }).reply .done))
    else .next (s.fallback .align (.write payload))

/-- `pio.rd.data` (R130). -/
def execPioRdData (len : BitVec 8) (lane : BitVec 2) (s : State) : Exec := dataAccess lane (.read len.toNat) s

/-- `pio.wr.data` (R131). -/
def execPioWrData (lane : BitVec 2) (payload : List Byte) (s : State) : Exec := dataAccess lane (.write payload) s

/-- `pio.rd.oor` (R132). -/
def execPioRdOor (len : BitVec 8) (_off : Off) (s : State) : Exec := oorAccess (.read len.toNat) s

/-- `pio.wr.oor` (R133). -/
def execPioWrOor (_off : Off) (payload : List Byte) (s : State) : Exec := oorAccess (.write payload) s

end Sys2Proof.Machine
end

