-- ==== Sys2Proof/Machine/RootAdmin.lean ====
section
/-! DEFINITION. Root-device administration by the host (41_root_admin.md). -/

namespace Sys2Proof.Machine

/-- The PIO ranges of a resource list, base and size (R160). -/
def pioRanges : List Resource → List (U16 × Nat)
  | [] => []
  | .pio base size :: rest => (base, size) :: pioRanges rest
  | .mmio _ _ :: rest => pioRanges rest
  | .other _ _ :: rest => pioRanges rest

/-- The MMIO ranges of a resource list, base and size (R160). -/
def mmioRanges : List Resource → List (U64 × U64)
  | [] => []
  | .mmio base size :: rest => (base, size) :: mmioRanges rest
  | .pio _ _ :: rest => mmioRanges rest
  | .other _ _ :: rest => mmioRanges rest

/-- `(max_bus_id + 1) * 2^20`, in unbounded integers (R17, R160). -/
def windowMinimum (maxBus : BitVec 8) : Nat := (maxBus.toNat + 1) * 2 ^ 20

/-- Zero or one PIO range, of size 8, and zero or one MMIO range, large enough, and not neither (R160, R262, D5). -/
def resourcesFit (maxBus : BitVec 8) (pio : List (U16 × Nat)) (mmio : List (U64 × U64)) : Bool :=
  decide (pio.length ≤ 1) && decide (mmio.length ≤ 1) && !(pio.isEmpty && mmio.isEmpty) &&
    pio.all (fun p => p.2 == 8) && mmio.all (fun w => decide (windowMinimum maxBus ≤ w.2.toNat))

/-- The `ROOT` that `root.create` builds (R23, R49, R160). -/
def newRoot (maxBus : BitVec 8) (resources : List Resource) : Root :=
  { maxBus := maxBus,
    hasPio := (pioRanges resources).length == 1,
    ioportBase := ((pioRanges resources).map Prod.fst).headD 0,
    hasMmio := (mmioRanges resources).length == 1,
    mmioBase := ((mmioRanges resources).map Prod.fst).headD 0,
    mmioSize := ((mmioRanges resources).map Prod.snd).headD 0,
    resources := resources, ioAddr := 0, buses := [], activated := false }

/-- `root.create` (R160). -/
def execRootCreate (maxBus : BitVec 8) (s : State) : Exec :=
  hostOnly s <|
    if s.root.isSome then .refused .twice
    else if resourcesFit maxBus (pioRanges s.cur.operands.resources) (mmioRanges s.cur.operands.resources) then
      .next ((s.setRoot (newRoot maxBus s.cur.operands.resources)).reply .done)
    else .next (s.raise .noResources)

/-- `root.add_bus` (R161). -/
def execRootAddBus (id : BitVec 8) (s : State) : Exec :=
  hostOnly s <| withRoot s fun r =>
    if r.activated then .refused .afterActivate
    else if r.maxBus.toNat < id.toNat then .next (s.raise .invalidBusId)
    else underLock s (.next ((s.setRoot { r with buses := mapPut id.toNat s.cur.operands.bus r.buses }).reply .done))

/-- `root.get_bus` (R162). -/
def execRootGetBus (id : BitVec 8) (s : State) : Exec :=
  hostOnly s <| withRoot s fun r =>
    if r.maxBus.toNat < id.toNat then .next (s.reply (.bus none))
    else underLock s (.next (s.reply (.bus (busLookup r id))))

/-- The ranges that activation registers: the PIO range, then the MMIO range (R163). -/
def Root.ranges (r : Root) : List Resource :=
  (if r.hasPio then [.pio r.ioportBase 8] else []) ++ (if r.hasMmio then [.mmio r.mmioBase r.mmioSize] else [])

/-- `root.activate` (R163). -/
def execRootActivate (s : State) : Exec :=
  hostOnly s <| withRoot s fun r =>
    if r.activated then .refused .twice
    else
      let out := registerAll r.ranges (s.mgrLog ++ [⟨.beginTx, .ok⟩]) s.oracle
      match out.failure with
      | some e => .next (((s.setMgrLog out.log).setOracle out.oracle).raise (.activateFailed e))
      | none => .next ((((s.setMgrLog out.log).setOracle out.oracle).setRoot { r with activated := true }).reply .done)

/-- `root.resources` (R164). -/
def execRootResources (s : State) : Exec :=
  hostOnly s <| withRoot s fun r => .next (s.reply (.resources r.resources))

end Sys2Proof.Machine
end

