-- ==== Sys2Proof/Machine/Dispatch.lean ====
section
/-! DEFINITION. One arm per transaction, in the order of opcode_table.json; each calls that transaction's meaning. -/

namespace Sys2Proof.Machine

def exec (i : Instr) (s : State) : Host.Outcome State Fault Refusal :=
  match i with
  | .ecamRd len off => Sys2Proof.Machine.execEcamRd len off s
  | .ecamWr off payload => Sys2Proof.Machine.execEcamWr off payload s
  | .pioRdAddr len lane => Sys2Proof.Machine.execPioRdAddr len lane s
  | .pioWrAddr lane payload => Sys2Proof.Machine.execPioWrAddr lane payload s
  | .pioRdData len lane => Sys2Proof.Machine.execPioRdData len lane s
  | .pioWrData lane payload => Sys2Proof.Machine.execPioWrData lane payload s
  | .pioRdOor len off => Sys2Proof.Machine.execPioRdOor len off s
  | .pioWrOor off payload => Sys2Proof.Machine.execPioWrOor off payload s
  | .capRd8 off => Sys2Proof.Machine.execCapRd8 off s
  | .capWr8 off value => Sys2Proof.Machine.execCapWr8 off value s
  | .tblRd len off => Sys2Proof.Machine.execTblRd len off s
  | .tblWr off payload => Sys2Proof.Machine.execTblWr off payload s
  | .pbaRd len off => Sys2Proof.Machine.execPbaRd len off s
  | .rootCreate maxBus => Sys2Proof.Machine.execRootCreate maxBus s
  | .rootAddBus id => Sys2Proof.Machine.execRootAddBus id s
  | .rootGetBus id => Sys2Proof.Machine.execRootGetBus id s
  | .rootActivate => Sys2Proof.Machine.execRootActivate s
  | .rootResources => Sys2Proof.Machine.execRootResources s
  | .capNew => Sys2Proof.Machine.execCapNew s
  | .capSetctl value => Sys2Proof.Machine.execCapSetctl value s
  | .capQMasked => Sys2Proof.Machine.execCapQMasked s
  | .capQEnabled => Sys2Proof.Machine.execCapQEnabled s
  | .capQTableOffset => Sys2Proof.Machine.execCapQTableOffset s
  | .capQPbaOffset => Sys2Proof.Machine.execCapQPbaOffset s
  | .capQTableBir => Sys2Proof.Machine.execCapQTableBir s
  | .capQPbaBir => Sys2Proof.Machine.execCapQPbaBir s
  | .capQTableSize => Sys2Proof.Machine.execCapQTableSize s
  | .msxNew n => Sys2Proof.Machine.execMsxNew n s
  | .msxSetctl reg => Sys2Proof.Machine.execMsxSetctl reg s
  | .msxQEnabled => Sys2Proof.Machine.execMsxQEnabled s
  | .msxQMasked => Sys2Proof.Machine.execMsxQMasked s

end Sys2Proof.Machine
end

