-- ==== Sys2Proof/Machine/Fetch.lean ====
section
/-! DEFINITION. How the next transaction reaches the machine (10_state.md R22: steps are ordered by issue; log 1, log 2): taking an
event off the queue, what undecodable bytes are refused as, and placing one transaction at the front of the queue. -/

namespace Sys2Proof.Machine

/-- The state in which an issued transaction runs: it is the current one, and the events after it remain. -/
def State.load (s : State) (iss : Issue) (rest : List Slot) : State := (s.setCur iss).setQueue rest

/-- What bytes that are no transaction are refused as (R104, log 16). -/
def refusalOf : DecodeError → Refusal
  | .reserved => .reserved
  | .shortDescriptor => .truncated
  | .shortPayload => .truncated

/-- With no event left, the oldest access in flight takes its second step; with none in flight the block does nothing, for it
has no thread of its own (R7, log 6, log 7). -/
def State.idle (s : State) : State :=
  match s.inflight with
  | [] => s
  | fw :: _ => s.complete fw

/-- The `forward` event: the agent's access takes its second step (R76); an agent with none in flight does nothing. -/
def State.forwardEvent (s : State) (a : Agent) (rest : List Slot) : State :=
  match accessOf a s.inflight with
  | none => s.setQueue rest
  | some fw => (s.complete fw).setQueue rest

/-- The `panic` event: something outside the block panics while it holds the root lock, and poisons it (R266). Before `root.create`
there is no ROOT and so no root lock to poison: the event then does nothing (the model's choice, log 9). -/
def State.panicEvent (s : State) (rest : List Slot) : State :=
  match s.root with
  | none => s.setQueue rest
  | some _ => s.poison.setQueue rest

/-- A thread number that no access in flight carries. -/
def freshThread : List Forward → Nat
  | [] => 0
  | fw :: rest =>
    match fw.agent with
    | .vcpu n => max (n + 1) (freshThread rest)
    | .host n => max (n + 1) (freshThread rest)

/-- The agent that may issue a transaction of these bits (R91): the host for TGT 0x8 and above, else a guest vCPU; one that has
no access in flight. -/
def issuerFor (w : Nat) (l : List Forward) : Agent :=
  if 8 ≤ (tgtOf (BitVec.ofNat 64 w)).toNat then .host (freshThread l) else .vcpu (freshThread l)

/-- Out-of-band operands with which every constructor can succeed: the port range of the spec's example (R160) and a table of
one entry. -/
def Operands.sample : Operands := { Operands.blank with resources := [.pio 0xCF8 8], tableSize := 1 }

/-- The issue of the transaction whose first `nbits` bits are those of `w` (log 24). -/
def issueOfWord (s : State) (nbits w : Nat) : Issue :=
  { agent := issuerFor (w % 2 ^ nbits) s.inflight, bytes := tableWordBytes nbits w, operands := Operands.sample,
    overlaps := false }

end Sys2Proof.Machine
end

