-- ==== Sys2Proof/Machine/Run.lean ====
section
/-! DEFINITION. What one event of the queue does (10_state.md R22, 20_memory.md R76 to R79): decoding and running an issued
transaction, the second step of a forwarded access, a panic outside. -/

namespace Sys2Proof.Machine

/-- Decode the bytes of the current transaction and run what they spell (R97). -/
def runCurrent (s : State) : Exec :=
  match decode s.cur.bytes with
  | .error e => .refused (refusalOf e)
  | .ok (i, _) => exec i s

/-- Run an issued transaction: its agent first finishes an access it has in flight, and the issue then waits (R7, log 6). -/
def issueEvent (s : State) (iss : Issue) (rest : List Slot) : Exec :=
  match accessOf iss.agent s.inflight with
  | some fw => .next (s.complete fw)
  | none => runCurrent (s.load iss rest)

/-- What the event at the front of the queue does. -/
def runEvent (s : State) : Slot → List Slot → Exec
  | .issue iss, rest => issueEvent s iss rest
  | .forward a, rest => .next (s.forwardEvent a rest)
  | .panic, rest => .next (s.panicEvent rest)

end Sys2Proof.Machine
end

