-- ==== Sys2Proof/Machine/Step.lean ====
section
/-! DEFINITION. One step of the machine. -/

namespace Sys2Proof.Machine

/-- One step: the next event of the agents. A state with a mark takes none (R28, R266). -/
def step (s : State) : Host.Outcome State Fault Refusal :=
  if s.faulted then .fault .halted
  else if s.refused then .refused .halted
  else
    match s.queue with
    | [] => .next s.idle
    | slot :: rest => runEvent s slot rest

/-- `s` with the transaction whose first `nbits` bits are those of `w` (every other bit 0) issued next (log 24). -/
def State.withFetchWord (s : State) (nbits w : Nat) : State :=
  s.setQueue (.issue (issueOfWord s nbits w) :: s.queue)

end Sys2Proof.Machine
end

