-- ==== Sys2Proof/Machine/Backend.lean ====
section
/-! DEFINITION. What can be read off the logs alone: the derived view of an interrupt back-end (10_state.md R47, D30) and the
ranges the device manager routes (41_root_admin.md R163). Neither is state: both are functions of what went out. -/

namespace Sys2Proof.Machine

/-- The derived view of one vector: `BE_ON`, and `BE_MASK[i]`, `BE_ADDR[i]` (high and low half), `BE_DATA[i]`, each `none` while
it is undefined (R47). `valid` is false from a failed call to the next successful `reset()`: the whole view is undefined then. -/
structure BeView where
  valid : Bool
  on    : Bool
  mask  : Option Bool
  hi    : Option U32
  lo    : Option U32
  data  : Option U32
deriving DecidableEq, Repr

/-- The view after a successful `reset()`, and before any call: nothing is wired, and the rest is undefined (R47, log 18). -/
def BeView.unwired : BeView := { valid := true, on := false, mask := none, hi := none, lo := none, data := none }

/-- What a successful call does to the view of vector `i` (R47). -/
def viewOk (i : Nat) (w : BeView) : Call → BeView
  | .reset => .unwired
  | .setWorkingMode _ => w
  | .setMsiHighAddress j v => if j = i then { w with hi := some v } else w
  | .setMsiLowAddress j v => if j = i then { w with lo := some v } else w
  | .setMsiData j v => if j = i then { w with data := some v } else w
  | .setMsiDeviceId _ => w
  | .enable => { w with on := true, mask := some false }
  | .update _ => w
  | .getGroup => w
  | .mask j => if j = i ∧ w.on = true then { w with mask := some true } else w
  | .unmask j => if j = i ∧ w.on = true then { w with mask := some false } else w
  | .getPendingState _ => w
  | .notifier _ => w

/-- What one logged call does to the view of vector `i`: a failed call makes the view undefined (R47, R264). -/
def viewStep (i : Nat) (w : BeView) (entry : LogEntry) : BeView :=
  match entry.answer with
  | .result .ok => viewOk i w entry.call
  | .result (.err _) => { w with valid := false }
  | .pending _ => w

/-- The derived view of vector `i`, computed from `LOG[f]` alone (R47). -/
def beView (i : Nat) (log : List LogEntry) : BeView := log.foldl (viewStep i) .unwired

/-- The ranges of the open registration transaction, and the ranges routed so far. -/
structure Routing where
  opened : List Resource
  routed : List Resource
deriving DecidableEq, Repr

/-- What one answered call does to the routing: a range is routed only by a commit that succeeds (R163, R265). -/
def routeStep (w : Routing) (entry : MgrEntry) : Routing :=
  match entry.call, entry.answer with
  | .beginTx, _ => { w with opened := [] }
  | .registerDeviceIo rg, .ok => { w with opened := w.opened ++ [rg] }
  | .registerDeviceIo _, .err _ => w
  | .commitTx, .ok => { opened := [], routed := w.routed ++ w.opened }
  | .commitTx, .err _ => { w with opened := [] }
  | .cancelTx, _ => { w with opened := [] }

/-- The address space of a range exists: `AS_PIO` is the x86 I/O-port space (R61, R127). -/
def spaceExists (arch : Arch) : Resource → Bool
  | .pio _ _ => arch == .x86
  | .mmio _ _ => true
  | .other _ _ => true

/-- The ranges the device manager routes to the block (R163). Off X86 there is no port, so a PIO range that was registered is routed
nowhere and the device is 'not registered for any port' (R127, log 25). -/
def routedRanges (arch : Arch) (log : List MgrEntry) : List Resource :=
  (log.foldl routeStep { opened := [], routed := [] }).routed.filter (spaceExists arch)

end Sys2Proof.Machine
end

