-- ==== Sys2Proof/Machine/Pseudo.lean ====
section
/-! DEFINITION. The assembler's choice of a PIO row (30_encoding.md R107) and the pseudo-transactions with their expansions
(R108). Each expansion is a list of transactions, run one after the other and not atomic together. -/

namespace Sys2Proof.Machine

/-- `pio.rd OFF, LEN`: the assembler picks the row from OFF (R107). -/
def asmPioRd (off : Off) (len : BitVec 8) : Instr :=
  if off.toNat / 4 = 0 then .pioRdAddr len (off.extractLsb' 0 2)
  else if off.toNat / 4 = 1 then .pioRdData len (off.extractLsb' 0 2)
  else .pioRdOor len off

/-- `pio.wr OFF, LEN, D` (R107). -/
def asmPioWr (off : Off) (payload : List Byte) : Instr :=
  if off.toNat / 4 = 0 then .pioWrAddr (off.extractLsb' 0 2) payload
  else if off.toNat / 4 = 1 then .pioWrData (off.extractLsb' 0 2) payload
  else .pioWrOor off payload

/-- `CA(B,Dv,F,Rg)` for `Rg <= 0xFF` (R108). -/
def configAddress (bus : BitVec 8) (dev : BitVec 5) (fn : BitVec 3) (reg : BitVec 8) : U32 :=
  0x80000000#32 ||| (bus.setWidth 32 <<< 16) ||| (dev.setWidth 32 <<< 11) ||| (fn.setWidth 32 <<< 8) |||
    (reg &&& 0xFC#8).setWidth 32

/-- The ECAM offset `(B << 20) | (Dv << 15) | (F << 12) | Rg` (R108). -/
def ecamOffset (bus : BitVec 8) (dev : BitVec 5) (fn : BitVec 3) (reg : BitVec 12) : Off :=
  encodeMmio { bus := bus, dev := dev, fn := fn, reg := reg }

/-- `ecam.cfgrd B, Dv, F, Rg, LEN` (R108). -/
def ecamCfgrd (bus : BitVec 8) (dev : BitVec 5) (fn : BitVec 3) (reg : BitVec 12) (len : BitVec 8) : List Instr :=
  [.ecamRd len (ecamOffset bus dev fn reg)]

/-- `ecam.cfgwr B, Dv, F, Rg, LEN, D` (R108). -/
def ecamCfgwr (bus : BitVec 8) (dev : BitVec 5) (fn : BitVec 3) (reg : BitVec 12) (payload : List Byte) : List Instr :=
  [.ecamWr (ecamOffset bus dev fn reg) payload]

/-- `ca.set B, Dv, F, Rg` (R108). -/
def caSet (bus : BitVec 8) (dev : BitVec 5) (fn : BitVec 3) (reg : BitVec 8) : Instr :=
  asmPioWr 0 (bytesLe 4 (configAddress bus dev fn reg).toNat)

/-- `ca.clear` (R108). -/
def caClear : Instr := asmPioWr 0 (zeros 4)

/-- `4 + (Rg & 3)`, the window offset of a CONFIG_DATA access (R108). -/
def dataOffset (reg : BitVec 8) : Off := 4 + (reg &&& 3).setWidth 48

/-- `pio.cfgrd B, Dv, F, Rg, LEN` (R108). -/
def pioCfgrd (bus : BitVec 8) (dev : BitVec 5) (fn : BitVec 3) (reg : BitVec 8) (len : BitVec 8) : List Instr :=
  [caSet bus dev fn reg, asmPioRd (dataOffset reg) len]

/-- `pio.cfgwr B, Dv, F, Rg, LEN, D` (R108). -/
def pioCfgwr (bus : BitVec 8) (dev : BitVec 5) (fn : BitVec 3) (reg : BitVec 8) (payload : List Byte) : List Instr :=
  [caSet bus dev fn reg, asmPioWr (dataOffset reg) payload]

/-- `msix.ctl f, EN, FM` (R108). -/
def msixCtl (en fm : Bool) : Instr :=
  .capWr8 3 (((BitVec.ofBool en).setWidth 8 <<< 7) ||| ((BitVec.ofBool fm).setWidth 8 <<< 6))

/-- The table offset `16*i + j`. -/
def entryOffset (i j : Nat) : Off := BitVec.ofNat 48 (16 * i + j)

/-- `vec.mask f, i` (R108). -/
def vecMask (i : Nat) : Instr := .tblWr (entryOffset i 12) [0x01]

/-- `vec.unmask f, i` (R108). -/
def vecUnmask (i : Nat) : Instr := .tblWr (entryOffset i 12) [0x00]

/-- `vec.prog f, i, lo, hi, data` (R108). -/
def vecProg (i : Nat) (lo hi data : U32) : List Instr :=
  [.tblWr (entryOffset i 0) (bytesLe 4 lo.toNat), .tblWr (entryOffset i 4) (bytesLe 4 hi.toNat),
    .tblWr (entryOffset i 8) (bytesLe 4 data.toNat)]

end Sys2Proof.Machine
end

