-- ==== Sys2Proof/Safety.lean ====
section
/-! DEFINITION. What counts as a safe run, in the terms the statements use: the invariants the spec states of the root device
(10_state.md R23, R26), of a capability and its table (R33, R43), of the config accesses that reach `PciBus` (20_memory.md
R70), and of the back-end's derived view (43_msix_state.md R219); and runs that keep their marks (R28). -/

namespace Sys2Proof.Machine

/-! ## The root device -/

/-- The bus map is in canonical form and 'every registered `bus_id ≤ max_bus_id`' (R26). -/
def busesOk (r : Root) : Bool := mapWf r.buses && r.buses.all fun p => decide (p.1 ≤ r.maxBus.toNat)

/-- 'at least one of the two ranges is configured', an MMIO window holds a MiB for each bus, and an absent range is zero
(R23). -/
def rangesOk (r : Root) : Bool :=
  (r.hasPio || r.hasMmio) && (r.hasPio || r.ioportBase == 0) &&
    (if r.hasMmio then decide (windowMinimum r.maxBus ≤ r.mmioSize.toNat) else r.mmioBase == 0 && r.mmioSize == 0)

/-- The root device of a state, if it exists, keeps both; while there is none, there is no root lock that could be poisoned
(log 9). -/
def rootOk (s : State) : Bool :=
  match s.root with
  | none => !s.poisoned
  | some r => busesOk r && rangesOk r

/-! ## The MSI-X functions -/

/-- Bits 13:11 of MSG_CTL are 0 and the declared size is 1 to 2047 (R33). -/
def capOk (c : Cap) : Bool := c.msgCtl.extractLsb' 11 3 == 0 && decide (c.tableSize.toNat ≤ 2047)

/-- The table has 1 to 2047 entries (R43). -/
def msxOk (m : Msx) : Bool := decide (1 ≤ m.size) && decide (m.size ≤ 2047)

/-- The table's length is the size the capability declares (R43): the second of the two constructors refuses to build a pair that does
not agree (R210, log 12). -/
def sizesAgree (fr : FnRec) : Bool :=
  match fr.cap, fr.msx with
  | some c, some m => m.size == c.tableSize.toNat
  | some _, none => true
  | none, some _ => true
  | none, none => true

/-- What R33 and R43 say of one function. -/
def fnOk (fr : FnRec) : Bool := fr.cap.all capOk && fr.msx.all msxOk && sizesAgree fr

/-- The function map is in canonical form and every function in it is as R33 and R43 say. -/
def fnsOk (s : State) : Bool := mapWf s.fns && s.fns.all fun p => fnOk p.2

/-! ## Config accesses -/

/-- A forwarded access moves 1, 2 or 4 naturally aligned bytes (R70). -/
def accessAligned (addr : CfgAddr) (len : Nat) : Bool := checkAlign len addr.reg.toNat

/-- A logged `PciBus` call is aligned. -/
def busCallAligned : BusCall → Bool
  | .read _ addr n _ => accessAligned addr n
  | .write _ addr payload => accessAligned addr payload.length

/-- Every access in flight and every call that has reached a `PciBus` is aligned. -/
def accessesOk (s : State) : Bool :=
  (s.inflight.all fun fw => accessAligned fw.addr fw.access.length) && s.busLog.all busCallAligned

/-! ## The back-end's derived view -/

/-- The view of vector `i` agrees with its entry: wired, masked exactly when individually or function-masked, programmed with
the entry's address and data (R212, R219). -/
def viewMatches (w : BeView) (e : Entry) (masked : Bool) : Prop :=
  w.on = true ∧ w.mask = some (maskBit e || masked) ∧ w.hi = some e.addrHi ∧ w.lo = some e.addrLo ∧ w.data = some e.data

/-- While the function is enabled, the view of every vector that is defined agrees with the table (R219). -/
def backendTracks (fr : FnRec) : Prop :=
  ∀ m, fr.msx = some m → m.enabled = true → ∀ i e, m.tbl[i]? = some e →
    (beView i fr.log).valid = true → viewMatches (beView i fr.log) e m.masked

/-- The same of every function of a state. -/
def viewsOk (s : State) : Prop := ∀ f, backendTracks (s.fnRec f)

/-! ## Words the statements are made of, written from the spec and not from the meanings -/

/-- `len ∈ {1, 2, 4}` and `off mod len = 0` (R120). -/
def aligned (len off : Nat) : Prop := (len = 1 ∨ len = 2 ∨ len = 4) ∧ off % len = 0

/-- 'reads fill the buffer with 0xFF bytes, writes are dropped' (R123). -/
def missed : Access → Result
  | .read n => .bytes (List.replicate n 0xFF)
  | .write _ => .done

/-- The transaction is issued by the host (R277). -/
def fromHost (s : State) : Bool :=
  match s.cur.agent with
  | .host _ => true
  | .vcpu _ => false

/-- The record of the function that the current transaction names (R95). -/
def ownFn (s : State) : FnRec := s.fnRec s.cur.operands.fn

/-- Every function but the current transaction's is untouched (R77). -/
def othersKept (s t : State) : Prop := ∀ g, g ≠ s.cur.operands.fn → t.fnRec g = s.fnRec g

/-- The host transactions (R91, R277). -/
def isHostInstr : Instr → Bool
  | .ecamRd _ _ => false
  | .ecamWr _ _ => false
  | .pioRdAddr _ _ => false
  | .pioWrAddr _ _ => false
  | .pioRdData _ _ => false
  | .pioWrData _ _ => false
  | .pioRdOor _ _ => false
  | .pioWrOor _ _ => false
  | .capRd8 _ => false
  | .capWr8 _ _ => false
  | .tblRd _ _ => false
  | .tblWr _ _ => false
  | .pbaRd _ _ => false
  | .rootCreate _ => true
  | .rootAddBus _ => true
  | .rootGetBus _ => true
  | .rootActivate => true
  | .rootResources => true
  | .capNew => true
  | .capSetctl _ => true
  | .capQMasked => true
  | .capQEnabled => true
  | .capQTableOffset => true
  | .capQPbaOffset => true
  | .capQTableBir => true
  | .capQPbaBir => true
  | .capQTableSize => true
  | .msxNew _ => true
  | .msxSetctl _ => true
  | .msxQEnabled => true
  | .msxQMasked => true

/-- The guest accesses to the I/O window (R127). -/
def isPioInstr (i : Instr) : Prop :=
  (∃ len lane, i = .pioRdAddr len lane) ∨ (∃ lane payload, i = .pioWrAddr lane payload) ∨
    (∃ len lane, i = .pioRdData len lane) ∨ (∃ lane payload, i = .pioWrData lane payload) ∨
    (∃ len off, i = .pioRdOor len off) ∨ (∃ off payload, i = .pioWrOor off payload)

/-- The OFF width an administration row leaves free (R103). -/
def freeOffBits (tgt op : Nat) : Nat :=
  if tgt = 8 ∧ op ≤ 2 then 8 else if (tgt = 9 ∧ op = 1) ∨ (tgt = 10 ∧ op ≤ 1) then 16 else 0

/-- The reserved descriptors, clauses (a) to (f) of R104, read off the number itself. -/
def reservedTd (td : U64) : Prop :=
  let tgt := td.toNat / 2 ^ 60
  let op := td.toNat / 2 ^ 56 % 16
  let len := td.toNat / 2 ^ 48 % 256
  let off := td.toNat % 2 ^ 48
  (tgt = 5 ∨ tgt = 6 ∨ tgt = 7 ∨ 11 ≤ tgt) ∨ (tgt ≤ 3 ∧ 2 ≤ op) ∨ (tgt = 4 ∧ 1 ≤ op) ∨
    ((tgt = 8 ∧ 5 ≤ op) ∨ (tgt = 9 ∧ 9 ≤ op) ∨ (tgt = 10 ∧ 4 ≤ op)) ∨ (tgt = 2 ∧ len ≠ 1) ∨
    ((tgt = 8 ∨ tgt = 9 ∨ tgt = 10) ∧ (len ≠ 0 ∨ 2 ^ freeOffBits tgt op ≤ off))

/-- A PIO range's base and size (R95). -/
def asPio : Resource → Option (U16 × Nat)
  | .pio base size => some (base, size)
  | .mmio _ _ => none
  | .other _ _ => none

/-- An MMIO range's base and size (R95). -/
def asMmio : Resource → Option (U64 × U64)
  | .mmio base size => some (base, size)
  | .pio _ _ => none
  | .other _ _ => none

/-- What `root.create` accepts (R160, R262). -/
def acceptable (maxBus : BitVec 8) (resources : List Resource) : Prop :=
  (resources.filterMap asPio).length ≤ 1 ∧ (resources.filterMap asMmio).length ≤ 1 ∧
    ¬(resources.filterMap asPio = [] ∧ resources.filterMap asMmio = []) ∧
    (∀ p ∈ resources.filterMap asPio, p.2 = 8) ∧
    ∀ w ∈ resources.filterMap asMmio, (maxBus.toNat + 1) * 2 ^ 20 ≤ w.2.toNat

/-- The 12 bytes of `IMAGE(CAP)` as one little-endian number (R30). -/
def capNumber (c : Cap) : Nat :=
  c.capId.toNat + 2 ^ 8 * c.capNext.toNat + 2 ^ 16 * c.msgCtl.toNat + 2 ^ 32 * c.table.toNat + 2 ^ 64 * c.pba.toNat

/-- The 16 bytes of `IMAGE(TBL[i])` as one little-endian number (R41). -/
def entryNumber (e : Entry) : Nat :=
  e.addrLo.toNat + 2 ^ 32 * e.addrHi.toNat + 2 ^ 64 * e.data.toNat + 2 ^ 96 * e.vctl.toNat

/-- The byte of a table at byte offset `a`, if the table reaches there (R41, R65). -/
def storedByte (tbl : List Entry) (a : Nat) : Option Byte :=
  (tbl[a / 16]?).map fun e => BitVec.ofNat 8 (entryNumber e / 256 ^ (a % 16))

/-- The table accesses that take effect (R71). -/
def insideEntry (m : Msx) (off : Off) (len : Nat) : Prop :=
  off.toNat / 16 < m.tbl.length ∧ off.toNat % 16 + len ≤ 16

/-- Bit 15 of a control value (R211). -/
def enableBit (reg : U16) : Bool := decide (reg.toNat / 2 ^ 15 % 2 = 1)

/-- Bit 14 of a control value (R211). -/
def functionMaskBit (reg : U16) : Bool := decide (reg.toNat / 2 ^ 14 % 2 = 1)

/-- The calls of the enable sequence (R212). -/
def enableSequence (arch : Arch) (tbl : List Entry) (newM : Bool) : List Call :=
  [.reset, .setWorkingMode .pciMsix] ++
    (tbl.zipIdx.flatMap fun p =>
      [.setMsiHighAddress p.2 p.1.addrHi, .setMsiLowAddress p.2 p.1.addrLo, .setMsiData p.2 p.1.data] ++
        (if arch = .aarch64 then [.setMsiDeviceId p.2] else [])) ++
    [.enable] ++ (tbl.zipIdx.filter fun p => p.1.vctl.getLsbD 0 || newM).map fun p => .mask p.2

/-- The vectors whose own mask bit is clear, ascending (R213). -/
def unmaskedVectors (tbl : List Entry) : List Nat :=
  (tbl.zipIdx.filter fun p => !p.1.vctl.getLsbD 0).map Prod.snd

/-- The calls of the transition table's four rows, for a control value that changes a flag (R211 to R213). -/
def owedByTransition (arch : Arch) (m : Msx) (reg : U16) : List Call :=
  if m.enabled then
    if enableBit reg then
      if m.masked then (unmaskedVectors m.tbl).map .unmask else (unmaskedVectors m.tbl).map .mask
    else [.reset]
  else if enableBit reg then enableSequence arch m.tbl (functionMaskBit reg) else []

/-- The calls of a table write of `len` bytes at byte `j` of entry `i`, whose content is now `e` (R215). -/
def owedByTableWrite (m : Msx) (i j len : Nat) (e : Entry) : List Call :=
  if m.enabled = false ∨ len = 0 then []
  else
    (if j < 0xC then
      [.setMsiHighAddress i e.addrHi, .setMsiLowAddress i e.addrLo, .setMsiData i e.data, .update i] else []) ++
    (if j ≤ 0xC ∧ 0xC < j + len ∧ m.masked = false then [if e.vctl.getLsbD 0 then .mask i else .unmask i] else [])

/-- The log entries of calls that all returned `Ok`. -/
def allOk (calls : List Call) : List LogEntry := calls.map fun c => ⟨c, .result .ok⟩

/-- The vectors a PBA read queries: those of its byte range that are below N and individually masked, ascending (R216). -/
def queriedVectors (m : Msx) (off : Off) (len : Nat) : List Nat :=
  (List.range' (8 * off.toNat) (8 * len)).filter fun v => (m.tbl[v]?).any fun e => e.vctl.getLsbD 0

/-- Bits 13:0 of MSG_CTL and every other field of the capability are as they were (R36). -/
def onlyControlBits (c d : Cap) : Prop :=
  d.capId = c.capId ∧ d.capNext = c.capNext ∧ d.table = c.table ∧ d.pba = c.pba ∧
    d.msgCtl.toNat % 2 ^ 14 = c.msgCtl.toNat % 2 ^ 14

/-- The configuration fields of ROOT, which never change (R23). -/
def sameConfiguration (r q : Root) : Prop :=
  q.maxBus = r.maxBus ∧ q.hasPio = r.hasPio ∧ q.ioportBase = r.ioportBase ∧ q.hasMmio = r.hasMmio ∧
    q.mmioBase = r.mmioBase ∧ q.mmioSize = r.mmioSize ∧ q.resources = r.resources

/-! ## Runs -/

/-- The block's 'state lives for VM lifetime' (R282): whatever is constructed in `s` is still there in `t`. -/
def outlives (s t : State) : Prop :=
  (s.root ≠ none → t.root ≠ none) ∧
    ∀ f, ((s.fnRec f).cap ≠ none → (t.fnRec f).cap ≠ none) ∧ ((s.fnRec f).msx ≠ none → (t.fnRec f).msx ≠ none)

/-- A state with a mark set is not final (R28). That a state is final when, besides, no event and no access in flight remains is the
model's choice (log 26). -/
def State.isFinal (s : State) : Bool := !s.faulted && !s.refused && s.queue.isEmpty && s.inflight.isEmpty

/-- One step that keeps its mark (R28). -/
def State.after (s : State) : State := s.settle (step s)

/-- `n` steps that keep their marks. -/
def afterSteps : Nat → State → State
  | 0, s => s
  | n + 1, s => afterSteps n s.after

end Sys2Proof.Machine
end

