-- ==== Sys2Proof/Certificates/Slice0/Obligations.lean ====
section
/-! DEFINITION. The statements for the provers. Each says what the spec's rules say, over every state that meets its hypotheses;
'log n' in a docstring marks a clause that is the model's choice and names its entry in notes/assumptions. -/

open Sys2Proof Sys2Proof.Machine

/-! ## Encoding -/

/-- R90, R93, R103: decoding the bytes of a well-formed transaction gives it back, with the bytes after it untouched. Log 2: the order
of the bytes. -/
def Obligations.DecodeInvertsEncode : Prop :=
  ∀ (i : Instr) (rest : List Byte), WellFormed i = true → decode (encode i ++ rest) = .ok (i, rest)

/-- R97: the decoder selects the row of the printed table whose mask has the most one-bits among those that match; a descriptor no
row matches is reserved; the only overlap is the `oor` rows against the four specific PIO rows. -/
def Obligations.DecoderSelectsTableRow : Prop :=
  (∀ td : U64, opcodeOf td = tableOpcode td) ∧
  (∀ (td : U64) (rest : List Byte), (∀ r ∈ opcodeTable, r.accepts td = false) → decodePayload td rest = .error .reserved) ∧
  (∀ (td : U64) (a b : TableRow), a ∈ opcodeTable → b ∈ opcodeTable → a ≠ b → a.accepts td = true → b.accepts td = true →
    onesIn a.mask ≤ onesIn b.mask →
    (a.row = .pioRdOor ∨ a.row = .pioWrOor) ∧ onesIn a.mask < onesIn b.mask ∧
      (b.row = .pioRdAddr ∨ b.row = .pioRdData ∨ b.row = .pioWrAddr ∨ b.row = .pioWrData))

/-- R104: the reserved descriptors are exactly clauses (a) to (f); the step of an issued one is refused; no ECAM or PIO access is
reserved, whatever its length and offset. -/
def Obligations.ReservedDescriptorsAreRefused : Prop :=
  (∀ td : U64, opcodeOf td = none ↔ reservedTd td) ∧
  (∀ (s : State) (iss : Issue) (rest : List Slot) (td : U64) (tail : List Byte),
    s.faulted = false → s.refused = false → s.queue = .issue iss :: rest → accessOf iss.agent s.inflight = none →
    iss.bytes = bytesLe 8 td.toNat ++ tail → reservedTd td → step s = .refused .reserved) ∧
  (∀ (tgt op : BitVec 4) (len : BitVec 8) (off : Off), tgt.toNat ≤ 1 → op.toNat ≤ 1 → ¬ reservedTd (mkTd tgt op len off))

/-- Descriptors printed in 95_test_vectors.md decode to the transactions printed beside them. -/
def Obligations.PrintedDescriptorsDecode : Prop :=
  decodeTableWord 64 0x000400000010A010 = some (.ecamRd 4 0x10A010) ∧
  decodeTableWord 64 0x1001000000000003 = some (.pioRdAddr 1 3) ∧
  decodeTableWord 64 0x1002000000000006 = some (.pioRdData 2 2) ∧
  decodeTableWord 64 0x1004000000000008 = some (.pioRdOor 4 8) ∧
  decodeTableWord 64 0x8300000000000000 = some .rootActivate ∧
  decodeTableWord 64 0x910000000000FFFF = some (.capSetctl 0xFFFF) ∧
  decodeTableWord 64 0xA10000000000BFFF = some (.msxSetctl 0xBFFF) ∧
  decodeTableWord 64 0x4101000000000000 = none

/-! ## Steps -/

/-- When the event at the front of the queue is an issue whose bytes decode to `i`, and its agent has no access in flight, the
step is `exec i` with that issue as the current one and the queue moved on. -/
def Obligations.StepRunsDecodedTransaction : Prop :=
  ∀ (s : State) (iss : Issue) (rest : List Slot) (i : Instr) (tail : List Byte),
    s.faulted = false → s.refused = false → s.queue = .issue iss :: rest → accessOf iss.agent s.inflight = none →
    decode iss.bytes = .ok (i, tail) → WellFormed i = true →
    step s = exec i { s with cur := iss, queue := rest }

/-- R45, R76: the second step of a forwarded access makes the `PciBus` call and answers the agent: a read with `n` bytes of the
outside (those of the tape while it holds enough, log 5), a write with nothing; everything else is as before. -/
def Obligations.ForwardedAccessSecondStep : Prop :=
  ∀ (s : State) (a : Agent) (rest : List Slot) (fw : Forward),
    s.faulted = false → s.refused = false → s.queue = .forward a :: rest → accessOf a s.inflight = some fw →
    (∀ n, fw.access = .read n →
      ∃ (R : List Byte) (o : Oracle), R.length = n ∧ (n ≤ s.oracle.bus.length → R = s.oracle.bus.take n) ∧
        o.be = s.oracle.be ∧ o.pend = s.oracle.pend ∧ o.mgr = s.oracle.mgr ∧
        step s = .next { s with
          queue := rest, inflight := withoutAccessOf a s.inflight, oracle := o,
          replies := s.replies ++ [⟨a, .bytes R⟩], busLog := s.busLog ++ [.read fw.handle fw.addr n R] }) ∧
    (∀ payload, fw.access = .write payload →
      step s = .next { s with
        queue := rest, inflight := withoutAccessOf a s.inflight,
        replies := s.replies ++ [⟨a, .done⟩], busLog := s.busLog ++ [.write fw.handle fw.addr payload] })

/-- The model's choice, log 6, read from R7: an agent that has an access in flight takes its second step before anything else
it issues, and with no event left the oldest access in flight takes its second step. -/
def Obligations.AgentFinishesItsAccessFirst : Prop :=
  ∀ (s : State) (fw : Forward), s.faulted = false → s.refused = false →
    (∀ (iss : Issue) (rest : List Slot), s.queue = .issue iss :: rest → accessOf iss.agent s.inflight = some fw →
      step s = step { s with queue := .forward iss.agent :: s.queue }) ∧
    (∀ l : List Forward, s.queue = [] → s.inflight = fw :: l → step s = step { s with queue := [.forward fw.agent] })

/-- R28, R266: a fault sets FAULTED, a refusal sets REFUSED, and no number of steps clears a mark. The model's choice, log 8: a
state with either mark takes no step, and setting a mark changes nothing else. -/
def Obligations.MarksAreNeverCleared : Prop :=
  (∀ (s : State) (e : Fault), step s = .fault e → s.after = { s with faulted := true }) ∧
  (∀ (s : State) (e : Refusal), step s = .refused e → s.after = { s with refused := true }) ∧
  (∀ (n : Nat) (s : State), (s.faulted = true ∨ s.refused = true) → (∀ t, step s ≠ .next t) ∧ afterSteps n s = s)

/-! ## Reset and construction -/

/-- After reset nothing is constructed and no mark is set, and PIO_EXTREG_LSB is the default 16 of R8. The block has no reset but
construction (R290): what the machine is before it is the model's inference from R49, R292 and R293, log 3, and that a parameter is
held in the state at reset is the model's choice, log 4. -/
def Obligations.ResetConstructsNothing : Prop :=
  State.reset.root = none ∧ State.reset.fns = [] ∧ State.reset.faulted = false ∧ State.reset.refused = false ∧
    State.reset.params.extregLsb = .lsb16

/-- R267, R292: before `root.create` every other root transaction is refused. Log 15: on every ARCH with this reason. -/
def Obligations.RootTransactionsNeedRoot : Prop :=
  ∀ s : State, s.root = none →
    (∀ len off, exec (.ecamRd len off) s = .refused .noRoot) ∧ (∀ off d, exec (.ecamWr off d) s = .refused .noRoot) ∧
    (∀ i, isPioInstr i → exec i s = .refused .noRoot) ∧
    (fromHost s = true → (∀ id, exec (.rootAddBus id) s = .refused .noRoot) ∧
      (∀ id, exec (.rootGetBus id) s = .refused .noRoot) ∧ exec .rootActivate s = .refused .noRoot ∧
      exec .rootResources s = .refused .noRoot)

/-- R160: what `root.create` builds, what it raises, and when it is refused. -/
def Obligations.RootCreateBuildsOrRaises : Prop :=
  ∀ (s : State) (maxBus : BitVec 8), fromHost s = true →
    (∀ r, s.root = some r → exec (.rootCreate maxBus) s = .refused .twice) ∧
    (s.root = none → ¬ acceptable maxBus s.cur.operands.resources →
      exec (.rootCreate maxBus) s = .next { s with replies := s.replies ++ [⟨s.cur.agent, .error .noResources⟩] }) ∧
    (s.root = none → acceptable maxBus s.cur.operands.resources →
      exec (.rootCreate maxBus) s = .next { s with
        replies := s.replies ++ [⟨s.cur.agent, .done⟩],
        root := some {
        maxBus := maxBus,
        hasPio := !(s.cur.operands.resources.filterMap asPio).isEmpty,
        ioportBase := ((s.cur.operands.resources.filterMap asPio).head?.map Prod.fst).getD 0,
        hasMmio := !(s.cur.operands.resources.filterMap asMmio).isEmpty,
        mmioBase := ((s.cur.operands.resources.filterMap asMmio).head?.map Prod.fst).getD 0,
        mmioSize := ((s.cur.operands.resources.filterMap asMmio).head?.map Prod.snd).getD 0,
        resources := s.cur.operands.resources, ioAddr := 0, buses := [], activated := false } })

/-! ## Configuration accesses -/

/-- R120: the alignment predicate. -/
def Obligations.AlignmentPredicate : Prop :=
  ∀ len off : Nat, checkAlign len off = true ↔ aligned len off

/-- R121: the ECAM decode, its low two bits, and the re-encoding. -/
def Obligations.EcamDecodeReencodes : Prop :=
  ∀ o : Off,
    (parseMmio o).bus.toNat = o.toNat / 2 ^ 20 % 2 ^ 8 ∧ (parseMmio o).dev.toNat = o.toNat / 2 ^ 15 % 2 ^ 5 ∧
    (parseMmio o).fn.toNat = o.toNat / 2 ^ 12 % 2 ^ 3 ∧ (parseMmio o).reg.toNat = o.toNat / 4 % 2 ^ 10 * 4 ∧
    ((parseMmio o).atByte (o.extractLsb' 0 2)).reg.toNat = o.toNat % 2 ^ 12 ∧
    (encodeMmio (parseMmio o)).toNat = o.toNat / 4 % 2 ^ 26 * 4

/-- R122: the CONFIG_ADDRESS decode for both positions of the extended-register nibble. -/
def Obligations.ConfigAddressDecode : Prop :=
  ∀ (lsb : ExtregLsb) (v : U32),
    (parseIo lsb v).bus.toNat = v.toNat / 2 ^ 16 % 2 ^ 8 ∧ (parseIo lsb v).dev.toNat = v.toNat / 2 ^ 11 % 2 ^ 5 ∧
    (parseIo lsb v).fn.toNat = v.toNat / 2 ^ 8 % 2 ^ 3 ∧
    (parseIo lsb v).reg.toNat =
      (v.toNat / 4 % 2 ^ 6) * 4 + 2 ^ 8 * (v.toNat / (match lsb with | .lsb16 => 2 ^ 16 | .lsb24 => 2 ^ 24) % 2 ^ 4)

/-- R124, R125: an ECAM access is refused without a window, falls back where it is misaligned or its bus is unknown, and is
otherwise forwarded to the decoded address; nothing else changes. -/
def Obligations.EcamAccessForwardsOrFallsBack : Prop :=
  ∀ (s : State) (r : Root) (off : Off) (i : Instr) (acc : Access),
    ((∃ len : BitVec 8, i = .ecamRd len off ∧ acc = .read len.toNat) ∨ (∃ d, i = .ecamWr off d ∧ acc = .write d)) →
    s.root = some r →
    (r.hasMmio = false → exec i s = .refused .noRange) ∧
    (r.hasMmio = true → ¬ aligned acc.length off.toNat →
      exec i s = .next { s with diag := s.diag ++ [.align], replies := s.replies ++ [⟨s.cur.agent, missed acc⟩] }) ∧
    (r.hasMmio = true → aligned acc.length off.toNat → s.poisoned = false → mapGet (off.toNat / 2 ^ 20 % 2 ^ 8) r.buses = none →
      exec i s = .next { s with diag := s.diag ++ [.noBus], replies := s.replies ++ [⟨s.cur.agent, missed acc⟩] }) ∧
    (∀ h, r.hasMmio = true → aligned acc.length off.toNat → s.poisoned = false →
      mapGet (off.toNat / 2 ^ 20 % 2 ^ 8) r.buses = some h →
      ∃ a : CfgAddr, a.bus.toNat = off.toNat / 2 ^ 20 % 2 ^ 8 ∧ a.dev.toNat = off.toNat / 2 ^ 15 % 2 ^ 5 ∧
        a.fn.toNat = off.toNat / 2 ^ 12 % 2 ^ 3 ∧ a.reg.toNat = off.toNat % 2 ^ 12 ∧
        exec i s = .next { s with inflight := s.inflight ++ [⟨s.cur.agent, h, a, acc⟩] })

/-- R127: with no I/O range, or where ARCH is not X86, every TGT 0x1 transaction is refused. -/
def Obligations.PioNeedsRangeAndX86 : Prop :=
  ∀ (s : State) (r : Root) (i : Instr), s.root = some r → isPioInstr i → (s.params.arch ≠ .x86 ∨ r.hasPio = false) →
    exec i s = .refused .noRange

/-- R128: a read of CONFIG_ADDRESS returns the addressed lanes, or all-ones where it is misaligned; nothing else changes. -/
def Obligations.ConfigAddressRead : Prop :=
  ∀ (s : State) (r : Root) (len : BitVec 8) (lane : BitVec 2),
    s.root = some r → s.params.arch = .x86 → r.hasPio = true →
    (¬ aligned len.toNat lane.toNat →
      exec (.pioRdAddr len lane) s = .next { s with
        diag := s.diag ++ [.align],
        replies := s.replies ++ [⟨s.cur.agent, .bytes (List.replicate len.toNat 0xFF)⟩] }) ∧
    (aligned len.toNat lane.toNat → s.poisoned = false →
      exec (.pioRdAddr len lane) s = .next { s with
        replies := s.replies ++ [⟨s.cur.agent, .bytes ((List.range len.toNat).map fun k =>
        BitVec.ofNat 8 (r.ioAddr.toNat / 2 ^ (8 * (lane.toNat + k))))⟩] })

/-- R129: a write of CONFIG_ADDRESS replaces the addressed lanes of IO_ADDR and no other lane, or is dropped whole where it is
misaligned; nothing else changes. -/
def Obligations.ConfigAddressWrite : Prop :=
  ∀ (s : State) (r : Root) (lane : BitVec 2) (d : List Byte),
    s.root = some r → s.params.arch = .x86 → r.hasPio = true →
    (¬ aligned d.length lane.toNat →
      exec (.pioWrAddr lane d) s = .next { s with
        diag := s.diag ++ [.align],
        replies := s.replies ++ [⟨s.cur.agent, .done⟩] }) ∧
    (aligned d.length lane.toNat → s.poisoned = false →
      ∃ v : U32, exec (.pioWrAddr lane d) s = .next { s with
        root := some { r with ioAddr := v },
        replies := s.replies ++ [⟨s.cur.agent, .done⟩] } ∧
        ∀ k, k < 4 → some (BitVec.ofNat 8 (v.toNat / 2 ^ (8 * k))) =
          if lane.toNat ≤ k ∧ k < lane.toNat + d.length then d[k - lane.toNat]?
          else some (BitVec.ofNat 8 (r.ioAddr.toNat / 2 ^ (8 * k))))

/-- R68: two 2-byte writes to CONFIG_ADDRESS offsets 0 and 2 leave the same state as one 4-byte write of their concatenation,
but for the two answers. -/
def Obligations.HalfWordWritesCompose : Prop :=
  ∀ (s : State) (r : Root) (a b c d : Byte),
    s.root = some r → s.params.arch = .x86 → r.hasPio = true → s.poisoned = false →
    ∃ t u w, exec (.pioWrAddr 0 [a, b]) s = .next t ∧ exec (.pioWrAddr 2 [c, d]) t = .next u ∧
      exec (.pioWrAddr 0 [a, b, c, d]) s = .next w ∧ { u with replies := w.replies } = w

/-- R130, R131: a CONFIG_DATA access falls back where it is misaligned, CONFIG_ADDRESS is not enabled or the bus is unknown, and is
otherwise forwarded to the address CONFIG_ADDRESS decodes to, with the byte index ORed in; nothing else changes. -/
def Obligations.ConfigDataForwardsOrFallsBack : Prop :=
  ∀ (s : State) (r : Root) (lane : BitVec 2) (i : Instr) (acc : Access),
    ((∃ len : BitVec 8, i = .pioRdData len lane ∧ acc = .read len.toNat) ∨ (∃ d, i = .pioWrData lane d ∧ acc = .write d)) →
    s.root = some r → s.params.arch = .x86 → r.hasPio = true →
    (¬ aligned acc.length (4 + lane.toNat) →
      exec i s = .next { s with diag := s.diag ++ [.align], replies := s.replies ++ [⟨s.cur.agent, missed acc⟩] }) ∧
    (aligned acc.length (4 + lane.toNat) → s.poisoned = false → r.ioAddr.toNat < 2 ^ 31 →
      exec i s = .next { s with diag := s.diag ++ [.caDisabled], replies := s.replies ++ [⟨s.cur.agent, missed acc⟩] }) ∧
    (aligned acc.length (4 + lane.toNat) → s.poisoned = false → 2 ^ 31 ≤ r.ioAddr.toNat →
      mapGet (r.ioAddr.toNat / 2 ^ 16 % 2 ^ 8) r.buses = none →
      exec i s = .next { s with diag := s.diag ++ [.noBus], replies := s.replies ++ [⟨s.cur.agent, missed acc⟩] }) ∧
    (∀ h, aligned acc.length (4 + lane.toNat) → s.poisoned = false → 2 ^ 31 ≤ r.ioAddr.toNat →
      mapGet (r.ioAddr.toNat / 2 ^ 16 % 2 ^ 8) r.buses = some h →
      ∃ a : CfgAddr, a.bus.toNat = r.ioAddr.toNat / 2 ^ 16 % 2 ^ 8 ∧ a.dev.toNat = r.ioAddr.toNat / 2 ^ 11 % 2 ^ 5 ∧
        a.fn.toNat = r.ioAddr.toNat / 2 ^ 8 % 2 ^ 3 ∧
        a.reg.toNat = r.ioAddr.toNat / 4 % 2 ^ 6 * 4 + lane.toNat +
          2 ^ 8 * (r.ioAddr.toNat / (match s.params.extregLsb with | .lsb16 => 2 ^ 16 | .lsb24 => 2 ^ 24) % 2 ^ 4) ∧
        exec i s = .next { s with inflight := s.inflight ++ [⟨s.cur.agent, h, a, acc⟩] })

/-- R132, R133: an access at a window offset of 8 or more falls back, whatever its alignment; nothing else changes. -/
def Obligations.OutOfWindowFallsBack : Prop :=
  ∀ (s : State) (r : Root) (off : Off), s.root = some r → s.params.arch = .x86 → r.hasPio = true → 8 ≤ off.toNat →
    (∀ len : BitVec 8, exec (.pioRdOor len off) s = .next { s with
      diag := s.diag ++ [.offset],
      replies := s.replies ++ [⟨s.cur.agent, .bytes (List.replicate len.toNat 0xFF)⟩] }) ∧
    (∀ d, exec (.pioWrOor off d) s = .next { s with
      diag := s.diag ++ [.offset],
      replies := s.replies ++ [⟨s.cur.agent, .done⟩] })

/-- R108: `pio.cfgrd B, Dv, F, Rg, LEN` reaches bus B, device Dv, function F and register Rg, with the low nibble of B as register
bits 11:8 where PIO_EXTREG_LSB is 16. -/
def Obligations.PioConfigReadReachesTarget : Prop :=
  ∀ (s : State) (r : Root) (bus : BitVec 8) (dev : BitVec 5) (fn : BitVec 3) (reg len : BitVec 8) (h : BusHandle),
    s.root = some r → s.params.arch = .x86 → r.hasPio = true → s.poisoned = false → aligned len.toNat (reg.toNat % 4) →
    mapGet bus.toNat r.buses = some h →
    ∃ (i j : Instr) (t u : State) (a : CfgAddr), pioCfgrd bus dev fn reg len = [i, j] ∧ exec i s = .next t ∧
      exec j t = .next u ∧ u.inflight = s.inflight ++ [⟨s.cur.agent, h, a, .read len.toNat⟩] ∧
      a.bus = bus ∧ a.dev = dev ∧ a.fn = fn ∧
      a.reg.toNat = reg.toNat + (match s.params.extregLsb with | .lsb16 => 2 ^ 8 * (bus.toNat % 16) | .lsb24 => 0)

/-- R294: a CONFIG_ADDRESS write of one agent sends another agent's next CONFIG_DATA access to the first one's target: IO_ADDR is one
register for all. -/
def Obligations.ConfigAddressIsShared : Prop :=
  ∀ (s : State) (r : Root) (a b : Issue) (v w : U32) (len : BitVec 8) (lane : BitVec 2) (h : BusHandle),
    s.root = some r → s.params.arch = .x86 → r.hasPio = true → s.poisoned = false → a.agent ≠ b.agent →
    aligned len.toNat (4 + lane.toNat) → 2 ^ 31 ≤ w.toNat → mapGet (w.toNat / 2 ^ 16 % 2 ^ 8) r.buses = some h →
    ∃ t u x, exec (.pioWrAddr 0 (bytesLe 4 v.toNat)) { s with cur := a } = .next t ∧
      exec (.pioWrAddr 0 (bytesLe 4 w.toNat)) { t with cur := b } = .next u ∧
      exec (.pioRdData len lane) { u with cur := a } = .next x ∧
      x.inflight = s.inflight ++ [⟨a.agent, h, (parseIo s.params.extregLsb w).atByte lane, .read len.toNat⟩]

/-- R75, R266: each of the eight root transactions that take the root lock faults when it finds the lock poisoned. Log 9: where
each takes it, that a `panic` event poisons the lock of an existing ROOT and does nothing where there is no ROOT, and that nothing
else poisons it. -/
def Obligations.PoisonedLockFaults : Prop :=
  (∀ (s : State) (r : Root), s.root = some r → s.poisoned = true →
    (r.hasMmio = true → ∀ off : Off,
      (∀ len : BitVec 8, aligned len.toNat off.toNat → exec (.ecamRd len off) s = .fault .lockPoisoned) ∧
      (∀ d : List Byte, aligned d.length off.toNat → exec (.ecamWr off d) s = .fault .lockPoisoned)) ∧
    (s.params.arch = .x86 → r.hasPio = true → ∀ lane : BitVec 2,
      (∀ len : BitVec 8, aligned len.toNat lane.toNat → exec (.pioRdAddr len lane) s = .fault .lockPoisoned) ∧
      (∀ d : List Byte, aligned d.length lane.toNat → exec (.pioWrAddr lane d) s = .fault .lockPoisoned) ∧
      (∀ len : BitVec 8, aligned len.toNat (4 + lane.toNat) → exec (.pioRdData len lane) s = .fault .lockPoisoned) ∧
      (∀ d : List Byte, aligned d.length (4 + lane.toNat) → exec (.pioWrData lane d) s = .fault .lockPoisoned)) ∧
    (fromHost s = true → ∀ id : BitVec 8, id.toNat ≤ r.maxBus.toNat →
      exec (.rootGetBus id) s = .fault .lockPoisoned ∧
      (r.activated = false → exec (.rootAddBus id) s = .fault .lockPoisoned))) ∧
  (∀ (s : State) (rest : List Slot), s.faulted = false → s.refused = false → s.queue = .panic :: rest →
    (∀ r, s.root = some r → step s = .next { s with queue := rest, poisoned := true }) ∧
    (s.root = none → step s = .next { s with queue := rest })) ∧
  (∀ (i : Instr) (s t : State), exec i s = .next t → t.poisoned = s.poisoned) ∧
  (∀ s t : State, step s = .next t → s.poisoned = false → t.poisoned = true →
    ∃ r rest, s.root = some r ∧ s.queue = .panic :: rest)

/-! ## Root administration -/

/-- R161: `root.add_bus` registers the handle under the id, replacing an earlier one, raises above MAX_BUS, and is refused after
activation; nothing else changes. -/
def Obligations.AddBusRegisters : Prop :=
  ∀ (s : State) (r : Root) (id : BitVec 8), fromHost s = true → s.root = some r →
    (r.activated = true → exec (.rootAddBus id) s = .refused .afterActivate) ∧
    (r.activated = false → r.maxBus.toNat < id.toNat →
      exec (.rootAddBus id) s = .next { s with replies := s.replies ++ [⟨s.cur.agent, .error .invalidBusId⟩] }) ∧
    (r.activated = false → id.toNat ≤ r.maxBus.toNat → s.poisoned = false →
      ∃ m, exec (.rootAddBus id) s = .next { s with
        root := some { r with buses := m },
        replies := s.replies ++ [⟨s.cur.agent, .done⟩] } ∧
        ∀ b, mapGet b m = if b = id.toNat then some s.cur.operands.bus else mapGet b r.buses)

/-- R162: `root.get_bus` returns the registered handle or none, and changes nothing. -/
def Obligations.GetBusLooksUp : Prop :=
  ∀ (s : State) (r : Root) (id : BitVec 8), fromHost s = true → s.root = some r → s.poisoned = false →
    exec (.rootGetBus id) s = .next { s with
      replies := s.replies ++ [⟨s.cur.agent,
      .bus (if id.toNat ≤ r.maxBus.toNat then mapGet id.toNat r.buses else none)⟩] }

/-- R163, R265: activation is all or nothing: either every range is routed and ACTIVATED is set, or `ActivateFailed` is returned,
no range is routed and ROOT is as before; a second one is refused. With every call `Ok` it issues the calls of R163's pseudocode, the
PIO range's on every ARCH. R127, log 25: off X86 no port is routed for it. -/
def Obligations.ActivationIsAllOrNothing : Prop :=
  ∀ (s : State) (r : Root), fromHost s = true → s.root = some r →
    (r.activated = true → exec .rootActivate s = .refused .twice) ∧
    (r.activated = false → ∃ t, exec .rootActivate s = .next t ∧
      { t with root := s.root, mgrLog := s.mgrLog, oracle := s.oracle, replies := s.replies } = s ∧
      ((t.root = some { r with activated := true } ∧ t.replies = s.replies ++ [⟨s.cur.agent, .done⟩] ∧
          routedRanges s.params.arch t.mgrLog = routedRanges s.params.arch s.mgrLog ++
            ((if s.params.arch = .x86 ∧ r.hasPio = true then [.pio r.ioportBase 8] else []) ++
              (if r.hasMmio then [.mmio r.mmioBase r.mmioSize] else []))) ∨
        (∃ e, t.root = some r ∧ t.replies = s.replies ++ [⟨s.cur.agent, .error (.activateFailed e)⟩] ∧
          routedRanges s.params.arch t.mgrLog = routedRanges s.params.arch s.mgrLog))) ∧
    (r.activated = false → ∀ rest, s.oracle.mgr = .ok :: .ok :: .ok :: rest →
      ∃ t, exec .rootActivate s = .next t ∧ t.root = some { r with activated := true } ∧
        t.mgrLog = s.mgrLog ++ ([⟨.beginTx, .ok⟩] ++ (if r.hasPio then [⟨.registerDeviceIo (.pio r.ioportBase 8), .ok⟩] else []) ++
          (if r.hasMmio then [⟨.registerDeviceIo (.mmio r.mmioBase r.mmioSize), .ok⟩] else []) ++ [⟨.commitTx, .ok⟩]))

/-- R164: `root.resources` returns the list given to `root.create` and changes nothing. -/
def Obligations.ResourcesAreReported : Prop :=
  ∀ (s : State) (r : Root), fromHost s = true → s.root = some r →
    exec .rootResources s = .next { s with replies := s.replies ++ [⟨s.cur.agent, .resources r.resources⟩] }

/-! ## The capability -/

/-- R180: what `cap.new` builds, when it is refused and when it faults. R43, log 12: beside an MSX of another length it is refused,
with this reason. -/
def Obligations.CapNewConstructs : Prop :=
  ∀ s : State, fromHost s = true → s.cur.overlaps = false →
    (∀ c, (ownFn s).cap = some c → exec .capNew s = .refused .twice) ∧
    ((ownFn s).cap = none → s.cur.operands.tableSize.toNat = 0 → exec .capNew s = .refused .tableSize) ∧
    ((ownFn s).cap = none → 2048 ≤ s.cur.operands.tableSize.toNat → exec .capNew s = .fault .tableSize) ∧
    (∀ m, (ownFn s).cap = none → 1 ≤ s.cur.operands.tableSize.toNat → s.cur.operands.tableSize.toNat < 2048 →
      (ownFn s).msx = some m → m.tbl.length ≠ s.cur.operands.tableSize.toNat → exec .capNew s = .refused .tableSize) ∧
    ((ownFn s).cap = none → 1 ≤ s.cur.operands.tableSize.toNat → s.cur.operands.tableSize.toNat < 2048 →
      (∀ m, (ownFn s).msx = some m → m.tbl.length = s.cur.operands.tableSize.toNat) →
      ∃ t c, exec .capNew s = .next t ∧ t = { s with fns := t.fns, replies := s.replies ++ [⟨s.cur.agent, .done⟩] } ∧
        othersKept s t ∧ ownFn t = { ownFn s with cap := some c } ∧ c.capId = s.params.capIdValue ∧ c.capNext = 0 ∧
        c.msgCtl.toNat = s.cur.operands.tableSize.toNat - 1 ∧
        c.table.toNat = s.cur.operands.tableOff.toNat / 8 * 8 + s.cur.operands.tableBir.toNat % 8 ∧
        c.pba.toNat = s.cur.operands.pbaOff.toNat / 8 * 8 + s.cur.operands.pbaBir.toNat % 8)

/-- R43, R293: a function whose table has the length its capability declares keeps it so at every step, whichever of the two is built
second. Log 12: `cap.new` refuses as `msx.new` does (R210). -/
def Obligations.TableSizesStayAgreed : Prop :=
  ∀ (s t : State) (f : FnHandle), step s = .next t → sizesAgree (s.fnRec f) = true → sizesAgree (t.fnRec f) = true

/-- R181: a capability byte is the byte of the 12-byte little-endian image, and 0xFF past it; nothing changes. -/
def Obligations.CapByteRead : Prop :=
  ∀ (s : State) (c : Cap) (off : Off), s.cur.overlaps = false → (ownFn s).cap = some c → (ownFn s).msx ≠ none →
    exec (.capRd8 off) s = .next { s with
      replies := s.replies ++ [⟨s.cur.agent,
      .bytes [if off.toNat < 12 then BitVec.ofNat 8 (capNumber c / 256 ^ off.toNat) else 0xFF]⟩] }

/-- R182, on a function with both objects (R293, log 11): a guest byte written anywhere but at offset 3 is ignored; at offset 3 it
replaces MSG_CTL[15:14] by its bits 7:6, and the transition runs on the new MSG_CTL exactly as `msx.setctl` runs it, its answer going
to the issuer. -/
def Obligations.CapByteWrite : Prop :=
  ∀ (s : State) (c : Cap) (v : Byte), s.cur.overlaps = false → (ownFn s).cap = some c →
    ((ownFn s).msx = none → ∀ off : Off, exec (.capWr8 off v) s = .refused .noFn) ∧
    ((ownFn s).msx ≠ none → ∀ off : Off, off.toNat ≠ 3 →
      exec (.capWr8 off v) s = .next { s with replies := s.replies ++ [⟨s.cur.agent, .done⟩] }) ∧
    (∀ m, (ownFn s).msx = some m →
      ∃ (ctl : U16) (t u : State) (res : Result), ctl.toNat = c.msgCtl.toNat % 2 ^ 14 + v.toNat / 64 * 2 ^ 14 ∧
        exec (.capWr8 3 v) s = .next t ∧
        exec (.msxSetctl ctl) { s with
          cur := { s.cur with agent := .host 0 },
          fns := mapPut s.cur.operands.fn { ownFn s with cap := some { c with msgCtl := ctl } } s.fns } = .next u ∧
        u.replies = s.replies ++ [⟨.host 0, res⟩] ∧
        (∀ k, t.fnRec k = u.fnRec k) ∧
        t = { s with fns := t.fns, oracle := u.oracle, replies := s.replies ++ [⟨s.cur.agent, res⟩] })

/-- R183: `cap.setctl` replaces MSG_CTL[15:14] and nothing else: no other function, no MSX, no call. -/
def Obligations.CapSetctlWritesControlBits : Prop :=
  ∀ (s : State) (c : Cap) (value : U16),
    fromHost s = true → s.cur.overlaps = false → (ownFn s).cap = some c → (ownFn s).msx ≠ none →
    ∃ (t : State) (ctl : U16), exec (.capSetctl value) s = .next t ∧
      ctl.toNat = c.msgCtl.toNat % 2 ^ 14 + value.toNat / 2 ^ 14 * 2 ^ 14 ∧
      ownFn t = { ownFn s with cap := some { c with msgCtl := ctl } } ∧ othersKept s t ∧
      t = { s with fns := t.fns, replies := s.replies ++ [⟨s.cur.agent, .done⟩] }

/-- R184 to R190: what the seven accessors of the capability return; none of them changes anything. -/
def Obligations.CapQueriesReturnFields : Prop :=
  ∀ (s : State) (c : Cap), fromHost s = true → s.cur.overlaps = false → (ownFn s).cap = some c → (ownFn s).msx ≠ none →
    (∃ b, exec .capQMasked s = .next { s with replies := s.replies ++ [⟨s.cur.agent, .bool b⟩] } ∧
      (b = true ↔ c.msgCtl.toNat / 2 ^ 14 % 2 = 1)) ∧
    (∃ b, exec .capQEnabled s = .next { s with replies := s.replies ++ [⟨s.cur.agent, .bool b⟩] } ∧
      (b = true ↔ c.msgCtl.toNat / 2 ^ 15 % 2 = 1)) ∧
    (∃ v, exec .capQTableOffset s = .next { s with replies := s.replies ++ [⟨s.cur.agent, .u32 v⟩] } ∧
      v.toNat = c.table.toNat / 8 * 8) ∧
    (∃ v, exec .capQPbaOffset s = .next { s with replies := s.replies ++ [⟨s.cur.agent, .u32 v⟩] } ∧
      v.toNat = c.pba.toNat / 8 * 8) ∧
    (∃ v, exec .capQTableBir s = .next { s with replies := s.replies ++ [⟨s.cur.agent, .u32 v⟩] } ∧
      v.toNat = c.table.toNat % 8) ∧
    (∃ v, exec .capQPbaBir s = .next { s with replies := s.replies ++ [⟨s.cur.agent, .u32 v⟩] } ∧
      v.toNat = c.pba.toNat % 8) ∧
    (∃ v, exec .capQTableSize s = .next { s with replies := s.replies ++ [⟨s.cur.agent, .u16 v⟩] } ∧
      v.toNat = c.msgCtl.toNat % 2 ^ 11 + 1)

/-- R36, R190: whatever a step does, of a capability that exists only MSG_CTL[15:14] can change; in particular its table size stays. -/
def Obligations.OnlyControlBitsChange : Prop :=
  ∀ (s t : State) (f : FnHandle) (c : Cap), step s = .next t → (s.fnRec f).cap = some c →
    ∃ d, (t.fnRec f).cap = some d ∧ onlyControlBits c d ∧ d.tableSize = c.tableSize

/-! ## The state machine -/

/-- R210: what `msx.new` builds and when it is refused. -/
def Obligations.MsxNewConstructs : Prop :=
  ∀ (s : State) (n : U16), fromHost s = true → s.cur.overlaps = false →
    (∀ m, (ownFn s).msx = some m → exec (.msxNew n) s = .refused .twice) ∧
    ((ownFn s).msx = none → (n.toNat = 0 ∨ 2048 ≤ n.toNat) → exec (.msxNew n) s = .refused .tableSize) ∧
    (∀ c, (ownFn s).msx = none → (ownFn s).cap = some c → n.toNat ≠ c.msgCtl.toNat % 2 ^ 11 + 1 →
      exec (.msxNew n) s = .refused .tableSize) ∧
    ((ownFn s).msx = none → 1 ≤ n.toNat → n.toNat < 2048 →
      (∀ c, (ownFn s).cap = some c → n.toNat = c.msgCtl.toNat % 2 ^ 11 + 1) →
      ∃ t, exec (.msxNew n) s = .next t ∧
        ownFn t = {
          cap := (ownFn s).cap, log := [],
          msx := some { enabled := false, masked := false, tbl := List.replicate n.toNat s.params.entryReset } } ∧
        othersKept s t ∧ t = { s with fns := t.fns, replies := s.replies ++ [⟨s.cur.agent, .done⟩] })

/-- R217, R218: the two flag queries return MSX's flags and change nothing. -/
def Obligations.FlagQueriesReturnFlags : Prop :=
  ∀ (s : State) (m : Msx), fromHost s = true → s.cur.overlaps = false → (ownFn s).msx = some m → (ownFn s).cap ≠ none →
    exec .msxQEnabled s = .next { s with replies := s.replies ++ [⟨s.cur.agent, .bool m.enabled⟩] } ∧
    exec .msxQMasked s = .next { s with replies := s.replies ++ [⟨s.cur.agent, .bool m.masked⟩] }

/-- R211 to R213, R261: the transition. It always ends in a next state. With no flag change it does nothing. Otherwise it issues the calls
its row of the table owes, in order: when all return `Ok` the flags become the new ones; at the first failing call the flags keep
their values, no later call is issued, and `IoError` is returned. Nothing else changes. Log 17: what `IoError` records. -/
def Obligations.TransitionIssuesOwedCalls : Prop :=
  ∀ (s : State) (m : Msx) (reg : U16),
    fromHost s = true → s.cur.overlaps = false → (ownFn s).msx = some m → (ownFn s).cap ≠ none →
    (∃ t, exec (.msxSetctl reg) s = .next t ∧ othersKept s t ∧
      t = { s with fns := t.fns, oracle := t.oracle, replies := t.replies }) ∧
    (m.enabled = enableBit reg → m.masked = functionMaskBit reg →
      ∃ t, exec (.msxSetctl reg) s = .next t ∧ ownFn t = ownFn s ∧
        t = { s with fns := t.fns, replies := s.replies ++ [⟨s.cur.agent, .done⟩] }) ∧
    (¬(m.enabled = enableBit reg ∧ m.masked = functionMaskBit reg) →
      (∀ rest, s.oracle.be = List.replicate (owedByTransition s.params.arch m reg).length .ok ++ rest →
        ∃ t, exec (.msxSetctl reg) s = .next t ∧
          ownFn t = {
            cap := (ownFn s).cap,
            msx := some { enabled := enableBit reg, masked := functionMaskBit reg, tbl := m.tbl },
            log := (ownFn s).log ++ allOk (owedByTransition s.params.arch m reg) } ∧
          t = { s with
            fns := t.fns, oracle := { s.oracle with be := rest },
            replies := s.replies ++ [⟨s.cur.agent, .done⟩] }) ∧
      (∀ k c e rest, (owedByTransition s.params.arch m reg)[k]? = some c →
        s.oracle.be = List.replicate k .ok ++ .err e :: rest →
        ∃ t, exec (.msxSetctl reg) s = .next t ∧
          ownFn t = { ownFn s with
            log := (ownFn s).log ++ allOk ((owedByTransition s.params.arch m reg).take k) ++ [⟨c, .result (.err e)⟩] } ∧
          t = { s with
            fns := t.fns, oracle := { s.oracle with be := rest },
            replies := s.replies ++ [⟨s.cur.agent, .error (.ioError e c ((ownFn s).log.length + k))⟩] }))

/-- R44: after a guest write of byte 3 whose transition succeeded, the capability's control bits and MSX's flags agree. -/
def Obligations.ControlWriteBringsAgreement : Prop :=
  ∀ (s t : State) (v : Byte), exec (.capWr8 3 v) s = .next t → t.replies = s.replies ++ [⟨s.cur.agent, .done⟩] →
    ∃ c m, (ownFn t).cap = some c ∧ (ownFn t).msx = some m ∧ m.enabled = enableBit c.msgCtl ∧
      m.masked = functionMaskBit c.msgCtl ∧ enableBit c.msgCtl = v.getLsbD 7 ∧ functionMaskBit c.msgCtl = v.getLsbD 6

/-- R264, R299: after a guest write of byte 3 whose transition failed, the capability holds the new bits and MSX the old flags; the
same write again, with a back-end that now answers `Ok`, succeeds and restores agreement. Log 17: what `IoError` records. -/
def Obligations.RetryAfterFailureRestoresAgreement : Prop :=
  ∀ (s t : State) (m : Msx) (v : Byte) (e : Nat) (call : Call) (pos : Nat), (ownFn s).msx = some m →
    exec (.capWr8 3 v) s = .next t → t.replies = s.replies ++ [⟨s.cur.agent, .error (.ioError e call pos)⟩] →
    (∃ c, (ownFn t).cap = some c ∧ (ownFn t).msx = some m ∧ enableBit c.msgCtl = v.getLsbD 7 ∧
      functionMaskBit c.msgCtl = v.getLsbD 6 ∧ ¬(m.enabled = enableBit c.msgCtl ∧ m.masked = functionMaskBit c.msgCtl)) ∧
    ∀ rest, ∃ u c' m', exec (.capWr8 3 v)
        { t with oracle := { t.oracle with be := List.replicate (5 * m.tbl.length + 3) .ok ++ rest } } = .next u ∧
      u.replies = t.replies ++ [⟨s.cur.agent, .done⟩] ∧ (ownFn u).cap = some c' ∧ (ownFn u).msx = some m' ∧
      m'.enabled = enableBit c'.msgCtl ∧ m'.masked = functionMaskBit c'.msgCtl ∧ m'.tbl = m.tbl

/-! ## The table and the PBA -/

/-- R214: a table read returns the stored bytes, or all-ones where it leaves the table or its entry; nothing changes. -/
def Obligations.TableReadReturnsBytes : Prop :=
  ∀ (s : State) (m : Msx) (len : BitVec 8) (off : Off),
    s.cur.overlaps = false → (ownFn s).msx = some m → (ownFn s).cap ≠ none →
    ∃ R : List Byte, exec (.tblRd len off) s = .next { s with replies := s.replies ++ [⟨s.cur.agent, .bytes R⟩] } ∧
      R.length = len.toNat ∧
      (insideEntry m off len.toNat → ∀ k, k < len.toNat → R[k]? = storedByte m.tbl (off.toNat + k)) ∧
      (¬ insideEntry m off len.toNat → R = List.replicate len.toNat 0xFF)

/-- R215: a table write outside the table or across an entry changes nothing. Any other stores exactly its bytes, whatever the calls
answer; it issues the calls it owes from the stored entry, in order, until one fails; no flag, no capability and no other function
changes. Log 17: what `IoError` records (R261). -/
def Obligations.TableWriteStoresAndCalls : Prop :=
  ∀ (s : State) (m : Msx) (off : Off) (d : List Byte),
    s.cur.overlaps = false → (ownFn s).msx = some m → (ownFn s).cap ≠ none →
    (¬ insideEntry m off d.length →
      exec (.tblWr off d) s = .next { s with replies := s.replies ++ [⟨s.cur.agent, .done⟩] }) ∧
    (insideEntry m off d.length → ∃ t m' e, exec (.tblWr off d) s = .next t ∧
      t = { s with fns := t.fns, oracle := t.oracle, replies := t.replies } ∧ othersKept s t ∧
      (ownFn t).cap = (ownFn s).cap ∧ (ownFn t).msx = some m' ∧ m'.enabled = m.enabled ∧ m'.masked = m.masked ∧
      m'.tbl.length = m.tbl.length ∧
      (∀ a, storedByte m'.tbl a =
        if off.toNat ≤ a ∧ a < off.toNat + d.length then d[a - off.toNat]? else storedByte m.tbl a) ∧
      m'.tbl[off.toNat / 16]? = some e ∧
      (∀ rest, s.oracle.be =
          List.replicate (owedByTableWrite m (off.toNat / 16) (off.toNat % 16) d.length e).length .ok ++ rest →
        (ownFn t).log = (ownFn s).log ++ allOk (owedByTableWrite m (off.toNat / 16) (off.toNat % 16) d.length e) ∧
        t.oracle = { s.oracle with be := rest } ∧ t.replies = s.replies ++ [⟨s.cur.agent, .done⟩]) ∧
      (∀ k c x rest, (owedByTableWrite m (off.toNat / 16) (off.toNat % 16) d.length e)[k]? = some c →
        s.oracle.be = List.replicate k .ok ++ .err x :: rest →
        (ownFn t).log = (ownFn s).log ++
          allOk ((owedByTableWrite m (off.toNat / 16) (off.toNat % 16) d.length e).take k) ++ [⟨c, .result (.err x)⟩] ∧
        t.oracle = { s.oracle with be := rest } ∧
        t.replies = s.replies ++ [⟨s.cur.agent, .error (.ioError x c ((ownFn s).log.length + k))⟩]))

/-- E5 of the source (R214, R215): a write inside an entry followed by a read of the same bytes returns what was written. -/
def Obligations.TableWriteThenReadRoundTrips : Prop :=
  ∀ (s : State) (m : Msx) (len : BitVec 8) (off : Off) (d : List Byte),
    s.cur.overlaps = false → (ownFn s).msx = some m → (ownFn s).cap ≠ none →
    d.length = len.toNat → insideEntry m off d.length →
    ∃ t, exec (.tblWr off d) s = .next t ∧
      exec (.tblRd len off) t = .next { t with replies := t.replies ++ [⟨s.cur.agent, .bytes d⟩] }

/-- R216: a PBA read returns zeros without a query while disabled. While enabled it queries the individually masked vectors of its
range in ascending order, each once, and bit `b` of byte `k` is the answer for vector `8*(OFF+k)+b`, 0 for a vector not queried;
nothing but the log and the draws changes. -/
def Obligations.PbaReadReportsPending : Prop :=
  ∀ (s : State) (m : Msx) (len : BitVec 8) (off : Off),
    s.cur.overlaps = false → (ownFn s).msx = some m → (ownFn s).cap ≠ none →
    (m.enabled = false → exec (.pbaRd len off) s =
      .next { s with replies := s.replies ++ [⟨s.cur.agent, .bytes (List.replicate len.toNat 0)⟩] }) ∧
    (m.enabled = true → ∃ (t : State) (R : List Byte) (answers : List Bool), exec (.pbaRd len off) s = .next t ∧
      answers.length = (queriedVectors m off len.toNat).length ∧
      ((queriedVectors m off len.toNat).length ≤ s.oracle.pend.length →
        answers = s.oracle.pend.take (queriedVectors m off len.toNat).length) ∧
      ownFn t = { ownFn s with
        log := (ownFn s).log ++
        List.zipWith (fun v b => ⟨.getPendingState v, .pending b⟩) (queriedVectors m off len.toNat) answers } ∧
      othersKept s t ∧ t.oracle.be = s.oracle.be ∧
      t = { s with fns := t.fns, oracle := t.oracle, replies := s.replies ++ [⟨s.cur.agent, .bytes R⟩] } ∧
      R.length = len.toNat ∧
      ∀ k b x, k < len.toNat → b < 8 → R[k]? = some x →
        (x.getLsbD b = true ↔ (8 * (off.toNat + k) + b, true) ∈ List.zip (queriedVectors m off len.toNat) answers))

/-! ## Refusals of the MSI-X transactions -/

/-- R267 `RF_CONCURRENT`, R77, R298: an MSI-X transaction, guest or host, that overlaps another on its function is refused. Log 21:
the caller says of an issue that it overlaps, and these are all the transactions that take a function handle (R95). -/
def Obligations.OverlappingMsixIsRefused : Prop :=
  ∀ s : State, s.cur.overlaps = true →
    (∀ off, exec (.capRd8 off) s = .refused .concurrent) ∧ (∀ off v, exec (.capWr8 off v) s = .refused .concurrent) ∧
    (∀ len off, exec (.tblRd len off) s = .refused .concurrent) ∧ (∀ off d, exec (.tblWr off d) s = .refused .concurrent) ∧
    (∀ len off, exec (.pbaRd len off) s = .refused .concurrent) ∧
    (fromHost s = true →
      exec .capNew s = .refused .concurrent ∧ (∀ v, exec (.capSetctl v) s = .refused .concurrent) ∧
      exec .capQMasked s = .refused .concurrent ∧ exec .capQEnabled s = .refused .concurrent ∧
      exec .capQTableOffset s = .refused .concurrent ∧ exec .capQPbaOffset s = .refused .concurrent ∧
      exec .capQTableBir s = .refused .concurrent ∧ exec .capQPbaBir s = .refused .concurrent ∧
      exec .capQTableSize s = .refused .concurrent ∧ (∀ n, exec (.msxNew n) s = .refused .concurrent) ∧
      (∀ reg, exec (.msxSetctl reg) s = .refused .concurrent) ∧ exec .msxQEnabled s = .refused .concurrent ∧
      exec .msxQMasked s = .refused .concurrent)

/-- R293, R267 `RF_NO_FN`: until a function has both its CAP and its MSX, every transaction on it except the two constructors is
refused. Log 11: the vectors of E4 to E6, which name one object only. -/
def Obligations.MsixTransactionsNeedTheirObjects : Prop :=
  ∀ s : State, s.cur.overlaps = false → ((ownFn s).cap = none ∨ (ownFn s).msx = none) →
    (∀ off, exec (.capRd8 off) s = .refused .noFn) ∧ (∀ off v, exec (.capWr8 off v) s = .refused .noFn) ∧
    (∀ len off, exec (.tblRd len off) s = .refused .noFn) ∧ (∀ off d, exec (.tblWr off d) s = .refused .noFn) ∧
    (∀ len off, exec (.pbaRd len off) s = .refused .noFn) ∧
    (fromHost s = true →
      (∀ v, exec (.capSetctl v) s = .refused .noFn) ∧ exec .capQMasked s = .refused .noFn ∧
      exec .capQEnabled s = .refused .noFn ∧ exec .capQTableOffset s = .refused .noFn ∧
      exec .capQPbaOffset s = .refused .noFn ∧ exec .capQTableBir s = .refused .noFn ∧
      exec .capQPbaBir s = .refused .noFn ∧ exec .capQTableSize s = .refused .noFn ∧
      (∀ reg, exec (.msxSetctl reg) s = .refused .noFn) ∧ exec .msxQEnabled s = .refused .noFn ∧
      exec .msxQMasked s = .refused .noFn)

/-! ## Rules of the whole machine -/

/-- R277: a guest that issues a host transaction is refused, and what a guest transaction may change is IO_ADDR, MSG_CTL[15:14] and
the table bytes, with the flags through the write of byte 3. Log 13: the refusal's name. -/
def Obligations.GuestChangesOnlyItsOwn : Prop :=
  ∀ (i : Instr) (s : State), fromHost s = false →
    (isHostInstr i = true → exec i s = .refused .guestPrivilege) ∧
    (∀ t, exec i s = .next t →
      t.params = s.params ∧ (s.root = none → t.root = none) ∧
      (∀ r, s.root = some r → ∃ v, t.root = some { r with ioAddr := v }) ∧
      (∀ f, (s.fnRec f).cap = none → (t.fnRec f).cap = none) ∧
      (∀ f c, (s.fnRec f).cap = some c → ∃ d, (t.fnRec f).cap = some d ∧ onlyControlBits c d) ∧
      (∀ f, (s.fnRec f).msx = none → (t.fnRec f).msx = none) ∧
      (∀ f m, (s.fnRec f).msx = some m → ∃ m', (t.fnRec f).msx = some m' ∧ m'.tbl.length = m.tbl.length ∧
        ((∀ off d, i ≠ .tblWr off d) → m'.tbl = m.tbl) ∧
        ((∀ v, i ≠ .capWr8 3 v) → m'.enabled = m.enabled ∧ m'.masked = m.masked)))

/-- R276: a guest sees no error, and a guest read never ends in one. -/
def Obligations.GuestSeesNoError : Prop :=
  (∀ (n : Nat) (e : ErrorCode), seenBy (.vcpu n) (.error e) = .done) ∧
  (∀ (i : Instr) (s t : State) (a : Agent) (e : ErrorCode),
    ((∃ len off, i = .ecamRd len off) ∨ (∃ len lane, i = .pioRdAddr len lane) ∨ (∃ len lane, i = .pioRdData len lane) ∨
      (∃ len off, i = .pioRdOor len off) ∨ (∃ off, i = .capRd8 off) ∨ (∃ len off, i = .tblRd len off) ∨
      (∃ len off, i = .pbaRd len off)) →
    exec i s = .next t → Reply.mk a (.error e) ∈ t.replies → Reply.mk a (.error e) ∈ s.replies)

/-- R77: a transaction on one function leaves every other function's record as it was. -/
def Obligations.FunctionsAreIndependent : Prop :=
  ∀ (i : Instr) (s t : State), exec i s = .next t → othersKept s t

/-- R40: ENABLED and MASKED change only inside `msx.setctl`, run by itself or by the write of byte 3. -/
def Obligations.FlagsChangeOnlyByTransition : Prop :=
  ∀ (i : Instr) (s t : State) (f : FnHandle) (m m' : Msx), exec i s = .next t → (s.fnRec f).msx = some m →
    (t.fnRec f).msx = some m' → (m'.enabled ≠ m.enabled ∨ m'.masked ≠ m.masked) →
    f = s.cur.operands.fn ∧ ((∃ reg, i = .msxSetctl reg) ∨ ∃ v, i = .capWr8 3 v)

/-- R8, R23, R43: no step changes the parameters, ROOT's configuration fields or the length of a table. R282: the block's state lives
for the VM's lifetime, so whatever is constructed before a step is still there after it. -/
def Obligations.ConfigurationNeverChanges : Prop :=
  ∀ s t : State, step s = .next t → t.params = s.params ∧
    (∀ r, s.root = some r → ∃ q, t.root = some q ∧ sameConfiguration r q ∧ (r.activated = true → q.activated = true)) ∧
    (∀ f m, (s.fnRec f).msx = some m → ∃ m', (t.fnRec f).msx = some m' ∧ m'.tbl.length = m.tbl.length) ∧
    outlives s t

/-- R47, R270: a step only ever adds to a function's log, except that `msx.new` starts it empty, and no call it adds is
`notifier`. -/
def Obligations.LogsOnlyGrowAndNeverNotify : Prop :=
  ∀ (s t : State) (f : FnHandle), step s = .next t →
    ((s.fnRec f).msx = none ∧ (t.fnRec f).log = []) ∨
    ∃ more, (t.fnRec f).log = (s.fnRec f).log ++ more ∧ ∀ entry ∈ more, ∀ idx, entry.call ≠ .notifier idx

/-- R305: a transaction on a table of N vectors issues at most 4N + 3 back-end calls, 5N + 3 where ARCH is AARCH64. -/
def Obligations.CallsAreBounded : Prop :=
  ∀ (i : Instr) (s t : State) (m : Msx), exec i s = .next t → (ownFn s).msx = some m →
    (ownFn t).log.length ≤ (ownFn s).log.length + ((if s.params.arch = .aarch64 then 5 else 4) * m.tbl.length + 3)

/-! ## Invariants -/

/-- R23, R26: every registered bus id is at most MAX_BUS, at least one range is configured and a window is large enough. Log 9:
while there is no ROOT, no lock is poisoned. -/
def Obligations.StepKeepsRootOk : Prop :=
  ∀ s t : State, rootOk s = true → step s = .next t → rootOk t = true

/-- R33, R43: every capability declares 1 to 2047 vectors and its reserved bits are 0, every table has 1 to 2047 entries, as
many as its capability declares (log 12), and the function map keeps its canonical form. -/
def Obligations.StepKeepsFunctionsOk : Prop :=
  ∀ s t : State, fnsOk s = true → step s = .next t → fnsOk t = true

/-- R70: every access in flight and every access that has reached a `PciBus` moves 1, 2 or 4 naturally aligned bytes. -/
def Obligations.StepKeepsAccessesAligned : Prop :=
  ∀ s t : State, accessesOk s = true → step s = .next t → accessesOk t = true

/-- R212, R213, R219: while a function is enabled and the derived view of its back-end is defined, every vector is wired, programmed
with its entry's address and data, and masked exactly when it is individually masked or the function is masked; every step keeps
this. Log 18: the view before the first call. -/
def Obligations.StepKeepsBackendInStep : Prop :=
  ∀ s t : State, viewsOk s → step s = .next t → viewsOk t

/-- The invariants hold at reset, where nothing is constructed (log 3). -/
def Obligations.InvariantsHoldAtReset : Prop :=
  rootOk State.reset = true ∧ fnsOk State.reset = true ∧ accessesOk State.reset = true ∧ viewsOk State.reset

/-- R219: masking a function that is enabled and not masked, and unmasking it again, with every call `Ok`, restores the back-end's mask
state vector by vector. -/
def Obligations.MaskRoundTripRestores : Prop :=
  ∀ (s t u : State) (m : Msx) (i : Nat), (ownFn s).msx = some m → m.enabled = true → m.masked = false → i < m.tbl.length →
    (∀ j e, m.tbl[j]? = some e → (beView j (ownFn s).log).valid = true ∧ (beView j (ownFn s).log).on = true ∧
      (beView j (ownFn s).log).mask = some (e.vctl.getLsbD 0)) →
    exec (.msxSetctl 0xC000) s = .next t → t.replies = s.replies ++ [⟨s.cur.agent, .done⟩] →
    exec (.msxSetctl 0x8000) t = .next u → u.replies = t.replies ++ [⟨s.cur.agent, .done⟩] →
    (beView i (ownFn t).log).mask = some true ∧ (beView i (ownFn u).log).mask = (beView i (ownFn s).log).mask ∧
      (ownFn u).msx = (ownFn s).msx

/-- R301: a table write and a transition on one function, each by its own issuer (a guest's `tbl.wr` and the host's `msx.setctl`
among them), both orders of which succeed, end in the same table, the same flags and the same back-end masks. -/
def Obligations.MaskChangesCommute : Prop :=
  ∀ (s t u t' u' : State) (g h : Issue) (f : FnHandle) (off : Off) (d : List Byte) (reg : U16) (m : Msx),
    g.operands.fn = f → h.operands.fn = f → (s.fnRec f).msx = some m → viewsOk s →
    (∀ i, (beView i (s.fnRec f).log).valid = true) →
    exec (.tblWr off d) { s with cur := g } = .next t → t.replies = s.replies ++ [⟨g.agent, .done⟩] →
    exec (.msxSetctl reg) { t with cur := h } = .next u → u.replies = t.replies ++ [⟨h.agent, .done⟩] →
    exec (.msxSetctl reg) { s with cur := h } = .next t' → t'.replies = s.replies ++ [⟨h.agent, .done⟩] →
    exec (.tblWr off d) { t' with cur := g } = .next u' → u'.replies = t'.replies ++ [⟨g.agent, .done⟩] →
    (u.fnRec f).msx = (u'.fnRec f).msx ∧
      (enableBit reg = true → ∀ i, i < m.tbl.length →
        (beView i (u.fnRec f).log).mask = (beView i (u'.fnRec f).log).mask)
end

