-- ==== Sys2Proof/Laws/State.lean ====
section
/-! SUPPORT. One lemma per field of State per update: what the update writes, and that it leaves every other field alone. -/

namespace Sys2Proof.Machine

variable (s : State)

@[simp] theorem State.setRoot_params (r : Root) : (s.setRoot r).params = s.params := rfl
@[simp] theorem State.setRoot_root (r : Root) : (s.setRoot r).root = some r := rfl
@[simp] theorem State.setRoot_poisoned (r : Root) : (s.setRoot r).poisoned = s.poisoned := rfl
@[simp] theorem State.setRoot_fns (r : Root) : (s.setRoot r).fns = s.fns := rfl
@[simp] theorem State.setRoot_faulted (r : Root) : (s.setRoot r).faulted = s.faulted := rfl
@[simp] theorem State.setRoot_refused (r : Root) : (s.setRoot r).refused = s.refused := rfl
@[simp] theorem State.setRoot_queue (r : Root) : (s.setRoot r).queue = s.queue := rfl
@[simp] theorem State.setRoot_cur (r : Root) : (s.setRoot r).cur = s.cur := rfl
@[simp] theorem State.setRoot_inflight (r : Root) : (s.setRoot r).inflight = s.inflight := rfl
@[simp] theorem State.setRoot_oracle (r : Root) : (s.setRoot r).oracle = s.oracle := rfl
@[simp] theorem State.setRoot_replies (r : Root) : (s.setRoot r).replies = s.replies := rfl
@[simp] theorem State.setRoot_diag (r : Root) : (s.setRoot r).diag = s.diag := rfl
@[simp] theorem State.setRoot_busLog (r : Root) : (s.setRoot r).busLog = s.busLog := rfl
@[simp] theorem State.setRoot_mgrLog (r : Root) : (s.setRoot r).mgrLog = s.mgrLog := rfl

@[simp] theorem State.setFn_params (f : FnHandle) (fr : FnRec) : (s.setFn f fr).params = s.params := rfl
@[simp] theorem State.setFn_root (f : FnHandle) (fr : FnRec) : (s.setFn f fr).root = s.root := rfl
@[simp] theorem State.setFn_poisoned (f : FnHandle) (fr : FnRec) : (s.setFn f fr).poisoned = s.poisoned := rfl
@[simp] theorem State.setFn_fns (f : FnHandle) (fr : FnRec) : (s.setFn f fr).fns = mapPut f fr s.fns := rfl
@[simp] theorem State.setFn_faulted (f : FnHandle) (fr : FnRec) : (s.setFn f fr).faulted = s.faulted := rfl
@[simp] theorem State.setFn_refused (f : FnHandle) (fr : FnRec) : (s.setFn f fr).refused = s.refused := rfl
@[simp] theorem State.setFn_queue (f : FnHandle) (fr : FnRec) : (s.setFn f fr).queue = s.queue := rfl
@[simp] theorem State.setFn_cur (f : FnHandle) (fr : FnRec) : (s.setFn f fr).cur = s.cur := rfl
@[simp] theorem State.setFn_inflight (f : FnHandle) (fr : FnRec) : (s.setFn f fr).inflight = s.inflight := rfl
@[simp] theorem State.setFn_oracle (f : FnHandle) (fr : FnRec) : (s.setFn f fr).oracle = s.oracle := rfl
@[simp] theorem State.setFn_replies (f : FnHandle) (fr : FnRec) : (s.setFn f fr).replies = s.replies := rfl
@[simp] theorem State.setFn_diag (f : FnHandle) (fr : FnRec) : (s.setFn f fr).diag = s.diag := rfl
@[simp] theorem State.setFn_busLog (f : FnHandle) (fr : FnRec) : (s.setFn f fr).busLog = s.busLog := rfl
@[simp] theorem State.setFn_mgrLog (f : FnHandle) (fr : FnRec) : (s.setFn f fr).mgrLog = s.mgrLog := rfl

@[simp] theorem State.setOracle_params (o : Oracle) : (s.setOracle o).params = s.params := rfl
@[simp] theorem State.setOracle_root (o : Oracle) : (s.setOracle o).root = s.root := rfl
@[simp] theorem State.setOracle_poisoned (o : Oracle) : (s.setOracle o).poisoned = s.poisoned := rfl
@[simp] theorem State.setOracle_fns (o : Oracle) : (s.setOracle o).fns = s.fns := rfl
@[simp] theorem State.setOracle_faulted (o : Oracle) : (s.setOracle o).faulted = s.faulted := rfl
@[simp] theorem State.setOracle_refused (o : Oracle) : (s.setOracle o).refused = s.refused := rfl
@[simp] theorem State.setOracle_queue (o : Oracle) : (s.setOracle o).queue = s.queue := rfl
@[simp] theorem State.setOracle_cur (o : Oracle) : (s.setOracle o).cur = s.cur := rfl
@[simp] theorem State.setOracle_inflight (o : Oracle) : (s.setOracle o).inflight = s.inflight := rfl
@[simp] theorem State.setOracle_oracle (o : Oracle) : (s.setOracle o).oracle = o := rfl
@[simp] theorem State.setOracle_replies (o : Oracle) : (s.setOracle o).replies = s.replies := rfl
@[simp] theorem State.setOracle_diag (o : Oracle) : (s.setOracle o).diag = s.diag := rfl
@[simp] theorem State.setOracle_busLog (o : Oracle) : (s.setOracle o).busLog = s.busLog := rfl
@[simp] theorem State.setOracle_mgrLog (o : Oracle) : (s.setOracle o).mgrLog = s.mgrLog := rfl

@[simp] theorem State.replyTo_params (a : Agent) (r : Result) : (s.replyTo a r).params = s.params := rfl
@[simp] theorem State.replyTo_root (a : Agent) (r : Result) : (s.replyTo a r).root = s.root := rfl
@[simp] theorem State.replyTo_poisoned (a : Agent) (r : Result) : (s.replyTo a r).poisoned = s.poisoned := rfl
@[simp] theorem State.replyTo_fns (a : Agent) (r : Result) : (s.replyTo a r).fns = s.fns := rfl
@[simp] theorem State.replyTo_faulted (a : Agent) (r : Result) : (s.replyTo a r).faulted = s.faulted := rfl
@[simp] theorem State.replyTo_refused (a : Agent) (r : Result) : (s.replyTo a r).refused = s.refused := rfl
@[simp] theorem State.replyTo_queue (a : Agent) (r : Result) : (s.replyTo a r).queue = s.queue := rfl
@[simp] theorem State.replyTo_cur (a : Agent) (r : Result) : (s.replyTo a r).cur = s.cur := rfl
@[simp] theorem State.replyTo_inflight (a : Agent) (r : Result) : (s.replyTo a r).inflight = s.inflight := rfl
@[simp] theorem State.replyTo_oracle (a : Agent) (r : Result) : (s.replyTo a r).oracle = s.oracle := rfl
@[simp] theorem State.replyTo_replies (a : Agent) (r : Result) : (s.replyTo a r).replies = s.replies ++ [⟨a, r⟩] := rfl
@[simp] theorem State.replyTo_diag (a : Agent) (r : Result) : (s.replyTo a r).diag = s.diag := rfl
@[simp] theorem State.replyTo_busLog (a : Agent) (r : Result) : (s.replyTo a r).busLog = s.busLog := rfl
@[simp] theorem State.replyTo_mgrLog (a : Agent) (r : Result) : (s.replyTo a r).mgrLog = s.mgrLog := rfl

@[simp] theorem State.reply_params (r : Result) : (s.reply r).params = s.params := rfl
@[simp] theorem State.reply_root (r : Result) : (s.reply r).root = s.root := rfl
@[simp] theorem State.reply_poisoned (r : Result) : (s.reply r).poisoned = s.poisoned := rfl
@[simp] theorem State.reply_fns (r : Result) : (s.reply r).fns = s.fns := rfl
@[simp] theorem State.reply_faulted (r : Result) : (s.reply r).faulted = s.faulted := rfl
@[simp] theorem State.reply_refused (r : Result) : (s.reply r).refused = s.refused := rfl
@[simp] theorem State.reply_queue (r : Result) : (s.reply r).queue = s.queue := rfl
@[simp] theorem State.reply_cur (r : Result) : (s.reply r).cur = s.cur := rfl
@[simp] theorem State.reply_inflight (r : Result) : (s.reply r).inflight = s.inflight := rfl
@[simp] theorem State.reply_oracle (r : Result) : (s.reply r).oracle = s.oracle := rfl
@[simp] theorem State.reply_replies (r : Result) : (s.reply r).replies = s.replies ++ [⟨s.cur.agent, r⟩] := rfl
@[simp] theorem State.reply_diag (r : Result) : (s.reply r).diag = s.diag := rfl
@[simp] theorem State.reply_busLog (r : Result) : (s.reply r).busLog = s.busLog := rfl
@[simp] theorem State.reply_mgrLog (r : Result) : (s.reply r).mgrLog = s.mgrLog := rfl

@[simp] theorem State.raise_params (e : ErrorCode) : (s.raise e).params = s.params := rfl
@[simp] theorem State.raise_root (e : ErrorCode) : (s.raise e).root = s.root := rfl
@[simp] theorem State.raise_poisoned (e : ErrorCode) : (s.raise e).poisoned = s.poisoned := rfl
@[simp] theorem State.raise_fns (e : ErrorCode) : (s.raise e).fns = s.fns := rfl
@[simp] theorem State.raise_faulted (e : ErrorCode) : (s.raise e).faulted = s.faulted := rfl
@[simp] theorem State.raise_refused (e : ErrorCode) : (s.raise e).refused = s.refused := rfl
@[simp] theorem State.raise_queue (e : ErrorCode) : (s.raise e).queue = s.queue := rfl
@[simp] theorem State.raise_cur (e : ErrorCode) : (s.raise e).cur = s.cur := rfl
@[simp] theorem State.raise_inflight (e : ErrorCode) : (s.raise e).inflight = s.inflight := rfl
@[simp] theorem State.raise_oracle (e : ErrorCode) : (s.raise e).oracle = s.oracle := rfl
@[simp] theorem State.raise_replies (e : ErrorCode) : (s.raise e).replies = s.replies ++ [⟨s.cur.agent, .error e⟩] := rfl
@[simp] theorem State.raise_diag (e : ErrorCode) : (s.raise e).diag = s.diag := rfl
@[simp] theorem State.raise_busLog (e : ErrorCode) : (s.raise e).busLog = s.busLog := rfl
@[simp] theorem State.raise_mgrLog (e : ErrorCode) : (s.raise e).mgrLog = s.mgrLog := rfl

@[simp] theorem State.diagnose_params (why : FallbackReason) : (s.diagnose why).params = s.params := rfl
@[simp] theorem State.diagnose_root (why : FallbackReason) : (s.diagnose why).root = s.root := rfl
@[simp] theorem State.diagnose_poisoned (why : FallbackReason) : (s.diagnose why).poisoned = s.poisoned := rfl
@[simp] theorem State.diagnose_fns (why : FallbackReason) : (s.diagnose why).fns = s.fns := rfl
@[simp] theorem State.diagnose_faulted (why : FallbackReason) : (s.diagnose why).faulted = s.faulted := rfl
@[simp] theorem State.diagnose_refused (why : FallbackReason) : (s.diagnose why).refused = s.refused := rfl
@[simp] theorem State.diagnose_queue (why : FallbackReason) : (s.diagnose why).queue = s.queue := rfl
@[simp] theorem State.diagnose_cur (why : FallbackReason) : (s.diagnose why).cur = s.cur := rfl
@[simp] theorem State.diagnose_inflight (why : FallbackReason) : (s.diagnose why).inflight = s.inflight := rfl
@[simp] theorem State.diagnose_oracle (why : FallbackReason) : (s.diagnose why).oracle = s.oracle := rfl
@[simp] theorem State.diagnose_replies (why : FallbackReason) : (s.diagnose why).replies = s.replies := rfl
@[simp] theorem State.diagnose_diag (why : FallbackReason) : (s.diagnose why).diag = s.diag ++ [why] := rfl
@[simp] theorem State.diagnose_busLog (why : FallbackReason) : (s.diagnose why).busLog = s.busLog := rfl
@[simp] theorem State.diagnose_mgrLog (why : FallbackReason) : (s.diagnose why).mgrLog = s.mgrLog := rfl

@[simp] theorem State.fallback_params (why : FallbackReason) (acc : Access) : (s.fallback why acc).params = s.params := rfl
@[simp] theorem State.fallback_root (why : FallbackReason) (acc : Access) : (s.fallback why acc).root = s.root := rfl
@[simp] theorem State.fallback_poisoned (why : FallbackReason) (acc : Access) : (s.fallback why acc).poisoned = s.poisoned := rfl
@[simp] theorem State.fallback_fns (why : FallbackReason) (acc : Access) : (s.fallback why acc).fns = s.fns := rfl
@[simp] theorem State.fallback_faulted (why : FallbackReason) (acc : Access) : (s.fallback why acc).faulted = s.faulted := rfl
@[simp] theorem State.fallback_refused (why : FallbackReason) (acc : Access) : (s.fallback why acc).refused = s.refused := rfl
@[simp] theorem State.fallback_queue (why : FallbackReason) (acc : Access) : (s.fallback why acc).queue = s.queue := rfl
@[simp] theorem State.fallback_cur (why : FallbackReason) (acc : Access) : (s.fallback why acc).cur = s.cur := rfl
@[simp] theorem State.fallback_inflight (why : FallbackReason) (acc : Access) : (s.fallback why acc).inflight = s.inflight := rfl
@[simp] theorem State.fallback_oracle (why : FallbackReason) (acc : Access) : (s.fallback why acc).oracle = s.oracle := rfl
@[simp] theorem State.fallback_replies (why : FallbackReason) (acc : Access) : (s.fallback why acc).replies = s.replies ++ [⟨s.cur.agent, missResult acc⟩] := rfl
@[simp] theorem State.fallback_diag (why : FallbackReason) (acc : Access) : (s.fallback why acc).diag = s.diag ++ [why] := rfl
@[simp] theorem State.fallback_busLog (why : FallbackReason) (acc : Access) : (s.fallback why acc).busLog = s.busLog := rfl
@[simp] theorem State.fallback_mgrLog (why : FallbackReason) (acc : Access) : (s.fallback why acc).mgrLog = s.mgrLog := rfl

@[simp] theorem State.launch_params (fw : Forward) : (s.launch fw).params = s.params := rfl
@[simp] theorem State.launch_root (fw : Forward) : (s.launch fw).root = s.root := rfl
@[simp] theorem State.launch_poisoned (fw : Forward) : (s.launch fw).poisoned = s.poisoned := rfl
@[simp] theorem State.launch_fns (fw : Forward) : (s.launch fw).fns = s.fns := rfl
@[simp] theorem State.launch_faulted (fw : Forward) : (s.launch fw).faulted = s.faulted := rfl
@[simp] theorem State.launch_refused (fw : Forward) : (s.launch fw).refused = s.refused := rfl
@[simp] theorem State.launch_queue (fw : Forward) : (s.launch fw).queue = s.queue := rfl
@[simp] theorem State.launch_cur (fw : Forward) : (s.launch fw).cur = s.cur := rfl
@[simp] theorem State.launch_inflight (fw : Forward) : (s.launch fw).inflight = s.inflight ++ [fw] := rfl
@[simp] theorem State.launch_oracle (fw : Forward) : (s.launch fw).oracle = s.oracle := rfl
@[simp] theorem State.launch_replies (fw : Forward) : (s.launch fw).replies = s.replies := rfl
@[simp] theorem State.launch_diag (fw : Forward) : (s.launch fw).diag = s.diag := rfl
@[simp] theorem State.launch_busLog (fw : Forward) : (s.launch fw).busLog = s.busLog := rfl
@[simp] theorem State.launch_mgrLog (fw : Forward) : (s.launch fw).mgrLog = s.mgrLog := rfl

@[simp] theorem State.setInflight_params (l : List Forward) : (s.setInflight l).params = s.params := rfl
@[simp] theorem State.setInflight_root (l : List Forward) : (s.setInflight l).root = s.root := rfl
@[simp] theorem State.setInflight_poisoned (l : List Forward) : (s.setInflight l).poisoned = s.poisoned := rfl
@[simp] theorem State.setInflight_fns (l : List Forward) : (s.setInflight l).fns = s.fns := rfl
@[simp] theorem State.setInflight_faulted (l : List Forward) : (s.setInflight l).faulted = s.faulted := rfl
@[simp] theorem State.setInflight_refused (l : List Forward) : (s.setInflight l).refused = s.refused := rfl
@[simp] theorem State.setInflight_queue (l : List Forward) : (s.setInflight l).queue = s.queue := rfl
@[simp] theorem State.setInflight_cur (l : List Forward) : (s.setInflight l).cur = s.cur := rfl
@[simp] theorem State.setInflight_inflight (l : List Forward) : (s.setInflight l).inflight = l := rfl
@[simp] theorem State.setInflight_oracle (l : List Forward) : (s.setInflight l).oracle = s.oracle := rfl
@[simp] theorem State.setInflight_replies (l : List Forward) : (s.setInflight l).replies = s.replies := rfl
@[simp] theorem State.setInflight_diag (l : List Forward) : (s.setInflight l).diag = s.diag := rfl
@[simp] theorem State.setInflight_busLog (l : List Forward) : (s.setInflight l).busLog = s.busLog := rfl
@[simp] theorem State.setInflight_mgrLog (l : List Forward) : (s.setInflight l).mgrLog = s.mgrLog := rfl

@[simp] theorem State.logBus_params (c : BusCall) : (s.logBus c).params = s.params := rfl
@[simp] theorem State.logBus_root (c : BusCall) : (s.logBus c).root = s.root := rfl
@[simp] theorem State.logBus_poisoned (c : BusCall) : (s.logBus c).poisoned = s.poisoned := rfl
@[simp] theorem State.logBus_fns (c : BusCall) : (s.logBus c).fns = s.fns := rfl
@[simp] theorem State.logBus_faulted (c : BusCall) : (s.logBus c).faulted = s.faulted := rfl
@[simp] theorem State.logBus_refused (c : BusCall) : (s.logBus c).refused = s.refused := rfl
@[simp] theorem State.logBus_queue (c : BusCall) : (s.logBus c).queue = s.queue := rfl
@[simp] theorem State.logBus_cur (c : BusCall) : (s.logBus c).cur = s.cur := rfl
@[simp] theorem State.logBus_inflight (c : BusCall) : (s.logBus c).inflight = s.inflight := rfl
@[simp] theorem State.logBus_oracle (c : BusCall) : (s.logBus c).oracle = s.oracle := rfl
@[simp] theorem State.logBus_replies (c : BusCall) : (s.logBus c).replies = s.replies := rfl
@[simp] theorem State.logBus_diag (c : BusCall) : (s.logBus c).diag = s.diag := rfl
@[simp] theorem State.logBus_busLog (c : BusCall) : (s.logBus c).busLog = s.busLog ++ [c] := rfl
@[simp] theorem State.logBus_mgrLog (c : BusCall) : (s.logBus c).mgrLog = s.mgrLog := rfl

@[simp] theorem State.setMgrLog_params (l : List MgrEntry) : (s.setMgrLog l).params = s.params := rfl
@[simp] theorem State.setMgrLog_root (l : List MgrEntry) : (s.setMgrLog l).root = s.root := rfl
@[simp] theorem State.setMgrLog_poisoned (l : List MgrEntry) : (s.setMgrLog l).poisoned = s.poisoned := rfl
@[simp] theorem State.setMgrLog_fns (l : List MgrEntry) : (s.setMgrLog l).fns = s.fns := rfl
@[simp] theorem State.setMgrLog_faulted (l : List MgrEntry) : (s.setMgrLog l).faulted = s.faulted := rfl
@[simp] theorem State.setMgrLog_refused (l : List MgrEntry) : (s.setMgrLog l).refused = s.refused := rfl
@[simp] theorem State.setMgrLog_queue (l : List MgrEntry) : (s.setMgrLog l).queue = s.queue := rfl
@[simp] theorem State.setMgrLog_cur (l : List MgrEntry) : (s.setMgrLog l).cur = s.cur := rfl
@[simp] theorem State.setMgrLog_inflight (l : List MgrEntry) : (s.setMgrLog l).inflight = s.inflight := rfl
@[simp] theorem State.setMgrLog_oracle (l : List MgrEntry) : (s.setMgrLog l).oracle = s.oracle := rfl
@[simp] theorem State.setMgrLog_replies (l : List MgrEntry) : (s.setMgrLog l).replies = s.replies := rfl
@[simp] theorem State.setMgrLog_diag (l : List MgrEntry) : (s.setMgrLog l).diag = s.diag := rfl
@[simp] theorem State.setMgrLog_busLog (l : List MgrEntry) : (s.setMgrLog l).busLog = s.busLog := rfl
@[simp] theorem State.setMgrLog_mgrLog (l : List MgrEntry) : (s.setMgrLog l).mgrLog = l := rfl

@[simp] theorem State.setQueue_params (q : List Slot) : (s.setQueue q).params = s.params := rfl
@[simp] theorem State.setQueue_root (q : List Slot) : (s.setQueue q).root = s.root := rfl
@[simp] theorem State.setQueue_poisoned (q : List Slot) : (s.setQueue q).poisoned = s.poisoned := rfl
@[simp] theorem State.setQueue_fns (q : List Slot) : (s.setQueue q).fns = s.fns := rfl
@[simp] theorem State.setQueue_faulted (q : List Slot) : (s.setQueue q).faulted = s.faulted := rfl
@[simp] theorem State.setQueue_refused (q : List Slot) : (s.setQueue q).refused = s.refused := rfl
@[simp] theorem State.setQueue_queue (q : List Slot) : (s.setQueue q).queue = q := rfl
@[simp] theorem State.setQueue_cur (q : List Slot) : (s.setQueue q).cur = s.cur := rfl
@[simp] theorem State.setQueue_inflight (q : List Slot) : (s.setQueue q).inflight = s.inflight := rfl
@[simp] theorem State.setQueue_oracle (q : List Slot) : (s.setQueue q).oracle = s.oracle := rfl
@[simp] theorem State.setQueue_replies (q : List Slot) : (s.setQueue q).replies = s.replies := rfl
@[simp] theorem State.setQueue_diag (q : List Slot) : (s.setQueue q).diag = s.diag := rfl
@[simp] theorem State.setQueue_busLog (q : List Slot) : (s.setQueue q).busLog = s.busLog := rfl
@[simp] theorem State.setQueue_mgrLog (q : List Slot) : (s.setQueue q).mgrLog = s.mgrLog := rfl

@[simp] theorem State.setCur_params (iss : Issue) : (s.setCur iss).params = s.params := rfl
@[simp] theorem State.setCur_root (iss : Issue) : (s.setCur iss).root = s.root := rfl
@[simp] theorem State.setCur_poisoned (iss : Issue) : (s.setCur iss).poisoned = s.poisoned := rfl
@[simp] theorem State.setCur_fns (iss : Issue) : (s.setCur iss).fns = s.fns := rfl
@[simp] theorem State.setCur_faulted (iss : Issue) : (s.setCur iss).faulted = s.faulted := rfl
@[simp] theorem State.setCur_refused (iss : Issue) : (s.setCur iss).refused = s.refused := rfl
@[simp] theorem State.setCur_queue (iss : Issue) : (s.setCur iss).queue = s.queue := rfl
@[simp] theorem State.setCur_cur (iss : Issue) : (s.setCur iss).cur = iss := rfl
@[simp] theorem State.setCur_inflight (iss : Issue) : (s.setCur iss).inflight = s.inflight := rfl
@[simp] theorem State.setCur_oracle (iss : Issue) : (s.setCur iss).oracle = s.oracle := rfl
@[simp] theorem State.setCur_replies (iss : Issue) : (s.setCur iss).replies = s.replies := rfl
@[simp] theorem State.setCur_diag (iss : Issue) : (s.setCur iss).diag = s.diag := rfl
@[simp] theorem State.setCur_busLog (iss : Issue) : (s.setCur iss).busLog = s.busLog := rfl
@[simp] theorem State.setCur_mgrLog (iss : Issue) : (s.setCur iss).mgrLog = s.mgrLog := rfl

@[simp] theorem State.poison_params : s.poison.params = s.params := rfl
@[simp] theorem State.poison_root : s.poison.root = s.root := rfl
@[simp] theorem State.poison_poisoned : s.poison.poisoned = true := rfl
@[simp] theorem State.poison_fns : s.poison.fns = s.fns := rfl
@[simp] theorem State.poison_faulted : s.poison.faulted = s.faulted := rfl
@[simp] theorem State.poison_refused : s.poison.refused = s.refused := rfl
@[simp] theorem State.poison_queue : s.poison.queue = s.queue := rfl
@[simp] theorem State.poison_cur : s.poison.cur = s.cur := rfl
@[simp] theorem State.poison_inflight : s.poison.inflight = s.inflight := rfl
@[simp] theorem State.poison_oracle : s.poison.oracle = s.oracle := rfl
@[simp] theorem State.poison_replies : s.poison.replies = s.replies := rfl
@[simp] theorem State.poison_diag : s.poison.diag = s.diag := rfl
@[simp] theorem State.poison_busLog : s.poison.busLog = s.busLog := rfl
@[simp] theorem State.poison_mgrLog : s.poison.mgrLog = s.mgrLog := rfl

@[simp] theorem State.markFaulted_params : s.markFaulted.params = s.params := rfl
@[simp] theorem State.markFaulted_root : s.markFaulted.root = s.root := rfl
@[simp] theorem State.markFaulted_poisoned : s.markFaulted.poisoned = s.poisoned := rfl
@[simp] theorem State.markFaulted_fns : s.markFaulted.fns = s.fns := rfl
@[simp] theorem State.markFaulted_faulted : s.markFaulted.faulted = true := rfl
@[simp] theorem State.markFaulted_refused : s.markFaulted.refused = s.refused := rfl
@[simp] theorem State.markFaulted_queue : s.markFaulted.queue = s.queue := rfl
@[simp] theorem State.markFaulted_cur : s.markFaulted.cur = s.cur := rfl
@[simp] theorem State.markFaulted_inflight : s.markFaulted.inflight = s.inflight := rfl
@[simp] theorem State.markFaulted_oracle : s.markFaulted.oracle = s.oracle := rfl
@[simp] theorem State.markFaulted_replies : s.markFaulted.replies = s.replies := rfl
@[simp] theorem State.markFaulted_diag : s.markFaulted.diag = s.diag := rfl
@[simp] theorem State.markFaulted_busLog : s.markFaulted.busLog = s.busLog := rfl
@[simp] theorem State.markFaulted_mgrLog : s.markFaulted.mgrLog = s.mgrLog := rfl

@[simp] theorem State.markRefused_params : s.markRefused.params = s.params := rfl
@[simp] theorem State.markRefused_root : s.markRefused.root = s.root := rfl
@[simp] theorem State.markRefused_poisoned : s.markRefused.poisoned = s.poisoned := rfl
@[simp] theorem State.markRefused_fns : s.markRefused.fns = s.fns := rfl
@[simp] theorem State.markRefused_faulted : s.markRefused.faulted = s.faulted := rfl
@[simp] theorem State.markRefused_refused : s.markRefused.refused = true := rfl
@[simp] theorem State.markRefused_queue : s.markRefused.queue = s.queue := rfl
@[simp] theorem State.markRefused_cur : s.markRefused.cur = s.cur := rfl
@[simp] theorem State.markRefused_inflight : s.markRefused.inflight = s.inflight := rfl
@[simp] theorem State.markRefused_oracle : s.markRefused.oracle = s.oracle := rfl
@[simp] theorem State.markRefused_replies : s.markRefused.replies = s.replies := rfl
@[simp] theorem State.markRefused_diag : s.markRefused.diag = s.diag := rfl
@[simp] theorem State.markRefused_busLog : s.markRefused.busLog = s.busLog := rfl
@[simp] theorem State.markRefused_mgrLog : s.markRefused.mgrLog = s.mgrLog := rfl

@[simp] theorem State.load_params (iss : Issue) (rest : List Slot) : (s.load iss rest).params = s.params := rfl
@[simp] theorem State.load_root (iss : Issue) (rest : List Slot) : (s.load iss rest).root = s.root := rfl
@[simp] theorem State.load_poisoned (iss : Issue) (rest : List Slot) : (s.load iss rest).poisoned = s.poisoned := rfl
@[simp] theorem State.load_fns (iss : Issue) (rest : List Slot) : (s.load iss rest).fns = s.fns := rfl
@[simp] theorem State.load_faulted (iss : Issue) (rest : List Slot) : (s.load iss rest).faulted = s.faulted := rfl
@[simp] theorem State.load_refused (iss : Issue) (rest : List Slot) : (s.load iss rest).refused = s.refused := rfl
@[simp] theorem State.load_queue (iss : Issue) (rest : List Slot) : (s.load iss rest).queue = rest := rfl
@[simp] theorem State.load_cur (iss : Issue) (rest : List Slot) : (s.load iss rest).cur = iss := rfl
@[simp] theorem State.load_inflight (iss : Issue) (rest : List Slot) : (s.load iss rest).inflight = s.inflight := rfl
@[simp] theorem State.load_oracle (iss : Issue) (rest : List Slot) : (s.load iss rest).oracle = s.oracle := rfl
@[simp] theorem State.load_replies (iss : Issue) (rest : List Slot) : (s.load iss rest).replies = s.replies := rfl
@[simp] theorem State.load_diag (iss : Issue) (rest : List Slot) : (s.load iss rest).diag = s.diag := rfl
@[simp] theorem State.load_busLog (iss : Issue) (rest : List Slot) : (s.load iss rest).busLog = s.busLog := rfl
@[simp] theorem State.load_mgrLog (iss : Issue) (rest : List Slot) : (s.load iss rest).mgrLog = s.mgrLog := rfl

/-! The record of a function depends on the function map alone. -/

@[simp] theorem State.fnRec_setRoot (r : Root) (g : FnHandle) : (s.setRoot r).fnRec g = s.fnRec g := rfl
@[simp] theorem State.fnRec_setOracle (o : Oracle) (g : FnHandle) : (s.setOracle o).fnRec g = s.fnRec g := rfl
@[simp] theorem State.fnRec_replyTo (a : Agent) (r : Result) (g : FnHandle) : (s.replyTo a r).fnRec g = s.fnRec g := rfl
@[simp] theorem State.fnRec_reply (r : Result) (g : FnHandle) : (s.reply r).fnRec g = s.fnRec g := rfl
@[simp] theorem State.fnRec_raise (e : ErrorCode) (g : FnHandle) : (s.raise e).fnRec g = s.fnRec g := rfl
@[simp] theorem State.fnRec_diagnose (why : FallbackReason) (g : FnHandle) : (s.diagnose why).fnRec g = s.fnRec g := rfl
@[simp] theorem State.fnRec_fallback (why : FallbackReason) (acc : Access) (g : FnHandle) : (s.fallback why acc).fnRec g = s.fnRec g := rfl
@[simp] theorem State.fnRec_launch (fw : Forward) (g : FnHandle) : (s.launch fw).fnRec g = s.fnRec g := rfl
@[simp] theorem State.fnRec_setInflight (l : List Forward) (g : FnHandle) : (s.setInflight l).fnRec g = s.fnRec g := rfl
@[simp] theorem State.fnRec_logBus (c : BusCall) (g : FnHandle) : (s.logBus c).fnRec g = s.fnRec g := rfl
@[simp] theorem State.fnRec_setMgrLog (l : List MgrEntry) (g : FnHandle) : (s.setMgrLog l).fnRec g = s.fnRec g := rfl
@[simp] theorem State.fnRec_setQueue (q : List Slot) (g : FnHandle) : (s.setQueue q).fnRec g = s.fnRec g := rfl
@[simp] theorem State.fnRec_setCur (iss : Issue) (g : FnHandle) : (s.setCur iss).fnRec g = s.fnRec g := rfl
@[simp] theorem State.fnRec_poison (g : FnHandle) : s.poison.fnRec g = s.fnRec g := rfl
@[simp] theorem State.fnRec_markFaulted (g : FnHandle) : s.markFaulted.fnRec g = s.fnRec g := rfl
@[simp] theorem State.fnRec_markRefused (g : FnHandle) : s.markRefused.fnRec g = s.fnRec g := rfl
@[simp] theorem State.fnRec_load (iss : Issue) (rest : List Slot) (g : FnHandle) : (s.load iss rest).fnRec g = s.fnRec g := rfl

end Sys2Proof.Machine
end

