-- ==== Sys2Proof/Laws/Maps.lean ====
section
/-! SUPPORT. The partial maps BUSES and FN: reading after writing, the canonical form, and the record of a function after an
update. -/

namespace Sys2Proof.Machine

theorem mapGet_mapPut_same {α : Type} (k : Nat) (v : α) (l : List (Nat × α)) : mapGet k (mapPut k v l) = some v := by
  induction l with
  | nil => simp [mapPut, mapGet]
  | cons p rest ih =>
    obtain ⟨j, w⟩ := p
    unfold mapPut
    split
    · simp [mapGet]
    · split
      · simp [mapGet]
      · have : j ≠ k := by omega
        simp [mapGet, this, ih]

theorem mapGet_mapPut_other {α : Type} {k g : Nat} (h : g ≠ k) (v : α) (l : List (Nat × α)) :
    mapGet g (mapPut k v l) = mapGet g l := by
  induction l with
  | nil => simp [mapPut, mapGet, h.symm]
  | cons p rest ih =>
    obtain ⟨j, w⟩ := p
    unfold mapPut
    split
    · simp [mapGet, h.symm]
    · split
      · rename_i hk
        subst hk
        simp [mapGet, h.symm]
      · simp [mapGet, ih]

theorem mapWf_cons {α : Type} (k : Nat) (v : α) (l : List (Nat × α)) :
    mapWf ((k, v) :: l) = true ↔ (∀ p ∈ l.head?, k < p.1) ∧ mapWf l = true := by
  cases l with
  | nil => simp [mapWf]
  | cons p rest => obtain ⟨j, w⟩ := p; simp [mapWf]

/-- A write keeps the canonical form. -/
theorem mapWf_mapPut {α : Type} (k : Nat) (v : α) (l : List (Nat × α)) (h : mapWf l = true) :
    mapWf (mapPut k v l) = true := by
  induction l with
  | nil => rfl
  | cons p rest ih =>
    obtain ⟨j, w⟩ := p
    rw [mapWf_cons] at h
    unfold mapPut
    split
    · rename_i hlt
      rw [mapWf_cons, mapWf_cons]
      exact ⟨by simpa using hlt, h⟩
    · split
      · rename_i heq
        subst heq
        rw [mapWf_cons]
        exact h
      · rename_i h1 h2
        rw [mapWf_cons]
        refine ⟨?_, ih h.2⟩
        have hjk : j < k := by omega
        cases rest with
        | nil => simp [mapPut, hjk]
        | cons q t =>
          obtain ⟨i, x⟩ := q
          have hji : j < i := h.1 (i, x) (by simp)
          unfold mapPut
          split
          · simpa using hjk
          · split
            · simpa using hjk
            · simpa using hji

/-- What holds of every entry and of the new one holds of every entry after a write. -/
theorem all_mapPut {α : Type} (p : Nat × α → Bool) (k : Nat) (v : α) (l : List (Nat × α)) (h : l.all p = true)
    (hv : p (k, v) = true) : (mapPut k v l).all p = true := by
  induction l with
  | nil => simp [mapPut, hv]
  | cons q rest ih =>
    obtain ⟨j, w⟩ := q
    simp only [List.all_cons, Bool.and_eq_true] at h
    unfold mapPut
    split
    · rw [List.all_cons, List.all_cons, hv, h.1, h.2]; rfl
    · split
      · rw [List.all_cons, hv, h.2]; rfl
      · rw [List.all_cons, Bool.and_eq_true]
        exact ⟨h.1, ih h.2⟩

theorem mem_of_mapGet {α : Type} (k : Nat) (v : α) (l : List (Nat × α)) (h : mapGet k l = some v) : (k, v) ∈ l := by
  induction l with
  | nil => simp [mapGet] at h
  | cons q rest ih =>
    obtain ⟨j, w⟩ := q
    by_cases hj : j = k
    · subst hj
      simp only [mapGet, if_pos] at h
      simp_all
    · simp only [mapGet, if_neg hj] at h
      exact List.mem_cons_of_mem _ (ih h)

@[simp] theorem State.fnRec_setFn_same (s : State) (f : FnHandle) (fr : FnRec) : (s.setFn f fr).fnRec f = fr := by
  simp [State.fnRec, mapGet_mapPut_same]

theorem State.fnRec_setFn_other (s : State) {f g : FnHandle} (h : g ≠ f) (fr : FnRec) :
    (s.setFn f fr).fnRec g = s.fnRec g := by
  simp [State.fnRec, mapGet_mapPut_other h]

end Sys2Proof.Machine
end

