-- ==== Sys2Proof/Laws/Calls.lean ====
section
/-! SUPPORT. The shared operations that issue calls, each said once: what a sequence of back-end calls leaves, how a transaction
that issues them ends, what a registration leaves, what a read of the outside returns. -/

namespace Sys2Proof.Machine

/-- Nothing but the back-end's tape and the draw count is touched by calls to the back-end. -/
def onlyBeDrawn (o o' : Oracle) : Prop := o'.pend = o.pend ∧ o'.bus = o.bus ∧ o'.mgr = o.mgr

theorem drawBe_onlyBe (o : Oracle) : onlyBeDrawn o o.drawBe.2 := by
  unfold Oracle.drawBe onlyBeDrawn
  split <;> simp

/-- A sequence of calls either succeeds and logs every call with `Ok`, or fails at its `k`-th call and logs the calls up to it. -/
theorem runCalls_cases (calls : List Call) (log : List LogEntry) (o : Oracle) :
    onlyBeDrawn o (runCalls calls log o).oracle ∧
    (((runCalls calls log o).failure = none ∧ (runCalls calls log o).log = log ++ allOk calls) ∨
    ∃ k c e, calls[k]? = some c ∧ (runCalls calls log o).failure = some ⟨e, c, log.length + k⟩ ∧
      (runCalls calls log o).log = log ++ allOk (calls.take k) ++ [⟨c, .result (.err e)⟩]) := by
  induction calls generalizing log o with
  | nil => simp [runCalls, allOk, onlyBeDrawn]
  | cons c rest ih =>
    have hd := drawBe_onlyBe o
    cases h : o.drawBe with
    | mk a o' =>
      rw [h] at hd
      cases a with
      | ok =>
        simp only [runCalls, h]
        obtain ⟨h1, h2⟩ := ih (log ++ [⟨c, .result .ok⟩]) o'
        refine ⟨⟨h1.1.trans hd.1, h1.2.1.trans hd.2.1, h1.2.2.trans hd.2.2⟩, ?_⟩
        rcases h2 with ⟨hf, hl⟩ | ⟨k, c', e, hk, hf, hl⟩
        · exact .inl ⟨hf, by simp [hl, allOk]⟩
        · refine .inr ⟨k + 1, c', e, by simpa using hk, ?_, by simp [hl, allOk]⟩
          rw [hf]
          simp
          omega
      | err e =>
        simp only [runCalls, h]
        exact ⟨hd, .inr ⟨0, c, e, by simp, by simp, by simp [allOk]⟩⟩

/-- Calls that a tape answers `Ok` all succeed. -/
theorem runCalls_ok (calls : List Call) (log : List LogEntry) (o : Oracle) (rest : List Answer)
    (h : o.be = List.replicate calls.length .ok ++ rest) :
    runCalls calls log o = { failure := none, log := log ++ allOk calls, oracle := { o with be := rest } } := by
  induction calls generalizing log o with
  | nil =>
    simp only [List.length_nil, List.replicate_zero, List.nil_append] at h
    subst h
    simp [runCalls, allOk]
  | cons c t ih =>
    have hd : o.drawBe = (.ok, { o with be := List.replicate t.length .ok ++ rest }) := by
      simp [Oracle.drawBe, h, List.replicate_succ]
    simp only [runCalls, hd]
    rw [ih _ _ rfl]
    simp [allOk]

/-- Calls that a tape answers `Ok` up to the `k`-th, and `Err(e)` there, fail there. -/
theorem runCalls_err (calls : List Call) (log : List LogEntry) (o : Oracle) (rest : List Answer) (k : Nat) (c : Call) (e : Nat)
    (hc : calls[k]? = some c) (h : o.be = List.replicate k .ok ++ .err e :: rest) :
    runCalls calls log o = { failure := some ⟨e, c, log.length + k⟩,
                             log := log ++ allOk (calls.take k) ++ [⟨c, .result (.err e)⟩],
                             oracle := { o with be := rest } } := by
  induction calls generalizing log o k with
  | nil => simp at hc
  | cons x t ih =>
    cases k with
    | zero =>
      have hd : o.drawBe = (.err e, { o with be := rest }) := by simp [Oracle.drawBe, h]
      simp only [List.getElem?_cons_zero, Option.some.injEq] at hc
      subst hc
      simp [runCalls, hd, allOk]
    | succ k =>
      have hd : o.drawBe = (.ok, { o with be := List.replicate k .ok ++ .err e :: rest }) := by
        simp [Oracle.drawBe, h, List.replicate_succ]
      simp only [runCalls, hd]
      rw [ih _ _ _ (by simpa using hc) rfl]
      simp [allOk]
      omega

/-- How a transaction that issues calls ends, when they all succeed. -/
theorem finishCalls_ok {s : State} {f : FnHandle} {calls : List Call} {log : List LogEntry} {onOk onErr : FnRec}
    (h : (runCalls calls log s.oracle).failure = none) :
    finishCalls s f calls log onOk onErr =
      { s with fns := mapPut f { onOk with log := (runCalls calls log s.oracle).log } s.fns,
               oracle := (runCalls calls log s.oracle).oracle,
               replies := s.replies ++ [⟨s.cur.agent, .done⟩] } := by
  simp only [finishCalls, h]
  rfl

/-- How a transaction that issues calls ends, when one fails. -/
theorem finishCalls_err {s : State} {f : FnHandle} {calls : List Call} {log : List LogEntry} {onOk onErr : FnRec}
    {bad : CallFailure} (h : (runCalls calls log s.oracle).failure = some bad) :
    finishCalls s f calls log onOk onErr =
      { s with fns := mapPut f { onErr with log := (runCalls calls log s.oracle).log } s.fns,
               oracle := (runCalls calls log s.oracle).oracle,
               replies := s.replies ++ [⟨s.cur.agent, .error (.ioError bad.e bad.call bad.position)⟩] } := by
  simp only [finishCalls, h]
  rfl

/-- Everything a transaction that issues calls can do: it succeeds with every call logged `Ok`, or it fails at one call. -/
theorem finishCalls_cases (s : State) (f : FnHandle) (calls : List Call) (log : List LogEntry) (onOk onErr : FnRec) :
    ∃ o', onlyBeDrawn s.oracle o' ∧
    (finishCalls s f calls log onOk onErr =
        { s with fns := mapPut f { onOk with log := log ++ allOk calls } s.fns, oracle := o',
                 replies := s.replies ++ [⟨s.cur.agent, .done⟩] } ∨
    ∃ k c e, calls[k]? = some c ∧ finishCalls s f calls log onOk onErr =
        { s with fns := mapPut f { onErr with log := log ++ allOk (calls.take k) ++ [⟨c, .result (.err e)⟩] } s.fns,
                 oracle := o', replies := s.replies ++ [⟨s.cur.agent, .error (.ioError e c (log.length + k))⟩] }) := by
  obtain ⟨ho, h⟩ := runCalls_cases calls log s.oracle
  refine ⟨_, ho, ?_⟩
  rcases h with ⟨hf, hl⟩ | ⟨k, c, e, hk, hf, hl⟩
  · exact .inl (by rw [finishCalls_ok hf, hl])
  · exact .inr ⟨k, c, e, hk, by rw [finishCalls_err hf, hl]⟩

/-- A read of `n` bytes of the outside returns `n` bytes, those of the tape while it holds enough, and touches no other tape. -/
theorem drawBytes_spec (n : Nat) (o : Oracle) :
    (drawBytes n o).1.length = n ∧ (n ≤ o.bus.length → (drawBytes n o).1 = o.bus.take n) ∧
      (drawBytes n o).2.be = o.be ∧ (drawBytes n o).2.pend = o.pend ∧ (drawBytes n o).2.mgr = o.mgr := by
  induction n generalizing o with
  | zero => simp [drawBytes]
  | succ n ih =>
    obtain ⟨h1, h2, h3, h4, h5⟩ := ih o.drawByte.2
    refine ⟨by simp [drawBytes, h1], ?_, ?_, ?_, ?_⟩
    · intro hn
      cases hb : o.bus with
      | nil => simp [hb] at hn
      | cons b rest =>
        have hd : o.drawByte = (b, { o with bus := rest }) := by simp [Oracle.drawByte, hb]
        simp only [drawBytes, hd] at h2 ⊢
        rw [h2 (by simpa [hb] using hn)]
        simp
    · simp only [drawBytes, h3]; unfold Oracle.drawByte; split <;> rfl
    · simp only [drawBytes, h4]; unfold Oracle.drawByte; split <;> rfl
    · simp only [drawBytes, h5]; unfold Oracle.drawByte; split <;> rfl

end Sys2Proof.Machine
end

