-- ==== Sys2Proof/Laws/Preconditions.lean ====
section
/-! SUPPORT. The preconditions the meanings share, each said once: when it lets the transaction through, what it answers when it does
not, and what follows if the transaction reached a next state. -/

namespace Sys2Proof.Machine

variable {s t : State} {k : Exec}

theorem hostOnly_of_host (h : fromHost s = true) : hostOnly s k = k := by
  unfold fromHost at h
  unfold hostOnly
  split at h <;> simp_all

theorem hostOnly_of_guest (h : fromHost s = false) : hostOnly s k = .refused .guestPrivilege := by
  unfold fromHost at h
  unfold hostOnly
  split at h <;> simp_all

theorem hostOnly_next (h : hostOnly s k = .next t) : fromHost s = true ∧ k = .next t := by
  cases hf : fromHost s with
  | true => rw [hostOnly_of_host hf] at h; exact ⟨rfl, h⟩
  | false => rw [hostOnly_of_guest hf] at h; cases h

theorem withRoot_some {f : Root → Exec} {r : Root} (h : s.root = some r) : withRoot s f = f r := by simp [withRoot, h]

theorem withRoot_none {f : Root → Exec} (h : s.root = none) : withRoot s f = .refused .noRoot := by simp [withRoot, h]

theorem withRoot_next {f : Root → Exec} (h : withRoot s f = .next t) : ∃ r, s.root = some r ∧ f r = .next t := by
  cases hr : s.root with
  | none => rw [withRoot_none hr] at h; cases h
  | some r => rw [withRoot_some hr] at h; exact ⟨r, rfl, h⟩

theorem underLock_ok (h : s.poisoned = false) : underLock s k = k := by simp [underLock, h]

theorem underLock_poisoned (h : s.poisoned = true) : underLock s k = .fault .lockPoisoned := by simp [underLock, h]

theorem underLock_next (h : underLock s k = .next t) : s.poisoned = false ∧ k = .next t := by
  cases hp : s.poisoned with
  | true => rw [underLock_poisoned hp] at h; cases h
  | false => rw [underLock_ok hp] at h; exact ⟨rfl, h⟩

theorem withEcam_some {f : Root → Exec} {r : Root} (h : s.root = some r) (hm : r.hasMmio = true) : withEcam s f = f r := by
  simp [withEcam, withRoot_some h, hm]

theorem withEcam_absent {f : Root → Exec} {r : Root} (h : s.root = some r) (hm : r.hasMmio = false) :
    withEcam s f = .refused .noRange := by
  simp [withEcam, withRoot_some h, hm]

theorem withEcam_next {f : Root → Exec} (h : withEcam s f = .next t) :
    ∃ r, s.root = some r ∧ r.hasMmio = true ∧ f r = .next t := by
  obtain ⟨r, hr, h⟩ := withRoot_next h
  cases hm : r.hasMmio with
  | true => exact ⟨r, hr, hm, by simpa [hm] using h⟩
  | false => simp [hm] at h

theorem withPio_some {f : Root → Exec} {r : Root} (h : s.root = some r) (ha : s.params.arch = .x86) (hp : r.hasPio = true) :
    withPio s f = f r := by
  simp [withPio, withRoot_some h, ha, hp]

theorem withPio_absent {f : Root → Exec} {r : Root} (h : s.root = some r) (ha : s.params.arch ≠ .x86 ∨ r.hasPio = false) :
    withPio s f = .refused .noRange := by
  rw [withPio, withRoot_some h, if_neg]
  rcases ha with ha | ha <;> simp [ha]

theorem withPio_next {f : Root → Exec} (h : withPio s f = .next t) :
    ∃ r, s.root = some r ∧ s.params.arch = .x86 ∧ r.hasPio = true ∧ f r = .next t := by
  obtain ⟨r, hr, h⟩ := withRoot_next h
  by_cases hc : s.params.arch = .x86 ∧ r.hasPio = true
  · exact ⟨r, hr, hc.1, hc.2, by rwa [if_pos hc] at h⟩
  · rw [if_neg hc] at h; cases h

theorem serialized_ok (h : s.cur.overlaps = false) : serialized s k = k := by simp [serialized, h]

theorem serialized_overlap (h : s.cur.overlaps = true) : serialized s k = .refused .concurrent := by simp [serialized, h]

theorem serialized_next (h : serialized s k = .next t) : s.cur.overlaps = false ∧ k = .next t := by
  cases ho : s.cur.overlaps with
  | true => rw [serialized_overlap ho] at h; cases h
  | false => rw [serialized_ok ho] at h; exact ⟨rfl, h⟩

theorem withFunction_some {f : Cap → Msx → Exec} {c : Cap} {m : Msx} (hc : (ownFn s).cap = some c) (hm : (ownFn s).msx = some m) :
    withFunction s f = f c m := by
  unfold ownFn at hc hm
  simp [withFunction, hc, hm]

theorem withFunction_none {f : Cap → Msx → Exec} (h : (ownFn s).cap = none ∨ (ownFn s).msx = none) :
    withFunction s f = .refused .noFn := by
  unfold ownFn at h
  unfold withFunction
  split <;> simp_all

theorem withFunction_next {f : Cap → Msx → Exec} (h : withFunction s f = .next t) :
    ∃ c m, (ownFn s).cap = some c ∧ (ownFn s).msx = some m ∧ f c m = .next t := by
  cases hc : (ownFn s).cap with
  | none => rw [withFunction_none (.inl hc)] at h; cases h
  | some c =>
    cases hm : (ownFn s).msx with
    | none => rw [withFunction_none (.inr hm)] at h; cases h
    | some m => rw [withFunction_some hc hm] at h; exact ⟨c, m, rfl, rfl, h⟩

end Sys2Proof.Machine
end

