-- ==== Sys2Proof/Laws/Access.lean ====
section
/-! SUPPORT. The shared operations of the root device, each said once: a fallback, the forwarding of a decoded access, the ECAM and
CONFIG_DATA accesses, the registration loop of `root.activate`. -/

namespace Sys2Proof.Machine

theorem checkAlign_iff (len off : Nat) : checkAlign len off = true ↔ aligned len off := by
  simp [checkAlign, aligned, or_assoc]

theorem fallback_eq (s : State) (why : FallbackReason) (acc : Access) :
    s.fallback why acc =
      { s with diag := s.diag ++ [why], replies := s.replies ++ [⟨s.cur.agent, missed acc⟩] } := by
  cases acc <;> rfl

/-- A decoded access is forwarded to its bus or falls back. -/
theorem forwardOrMiss_cases (s : State) (r : Root) (a : CfgAddr) (acc : Access) :
    (busLookup r a.bus = none ∧ forwardOrMiss s r a acc = s.fallback .noBus acc) ∨
    ∃ h, busLookup r a.bus = some h ∧ forwardOrMiss s r a acc = s.launch ⟨s.cur.agent, h, a, acc⟩ := by
  unfold forwardOrMiss
  cases busLookup r a.bus with
  | none => exact .inl ⟨rfl, rfl⟩
  | some h => exact .inr ⟨h, rfl, rfl⟩

/-- Everything an ECAM access that answers a next state can do. -/
theorem ecamAccess_cases {s t : State} {off : Off} {acc : Access} (h : ecamAccess off acc s = .next t) :
    ∃ r, s.root = some r ∧ r.hasMmio = true ∧
      ((checkAlign acc.length off.toNat = false ∧ t = s.fallback .align acc) ∨
        (checkAlign acc.length off.toNat = true ∧ s.poisoned = false ∧
          t = forwardOrMiss s r ((parseMmio off).atByte (off.extractLsb' 0 2)) acc)) := by
  obtain ⟨r, hr, hm, h⟩ := withEcam_next h
  refine ⟨r, hr, hm, ?_⟩
  split at h
  · rename_i ha
    obtain ⟨hp, h⟩ := underLock_next h
    cases h
    exact .inr ⟨ha, hp, rfl⟩
  · rename_i ha
    cases h
    exact .inl ⟨by simpa using ha, rfl⟩

/-- Everything a CONFIG_DATA access that answers a next state can do. -/
theorem dataAccess_cases {s t : State} {lane : BitVec 2} {acc : Access} (h : dataAccess lane acc s = .next t) :
    ∃ r, s.root = some r ∧ s.params.arch = .x86 ∧ r.hasPio = true ∧
      ((checkAlign acc.length (4 + lane.toNat) = false ∧ t = s.fallback .align acc) ∨
        (checkAlign acc.length (4 + lane.toNat) = true ∧ s.poisoned = false ∧
          ((caEnabled r.ioAddr = false ∧ t = s.fallback .caDisabled acc) ∨
            (caEnabled r.ioAddr = true ∧
              t = forwardOrMiss s r ((parseIo s.params.extregLsb r.ioAddr).atByte lane) acc)))) := by
  obtain ⟨r, hr, hx, hp, h⟩ := withPio_next h
  refine ⟨r, hr, hx, hp, ?_⟩
  split at h
  · rename_i ha
    obtain ⟨hq, h⟩ := underLock_next h
    refine .inr ⟨ha, hq, ?_⟩
    split at h
    · rename_i he
      cases h
      exact .inr ⟨he, rfl⟩
    · rename_i he
      cases h
      exact .inl ⟨by simpa using he, rfl⟩
  · rename_i ha
    cases h
    exact .inl ⟨by simpa using ha, rfl⟩

/-- The log entries of ranges that were all registered. -/
def registered (ranges : List Resource) : List MgrEntry := ranges.map fun rg => ⟨.registerDeviceIo rg, .ok⟩

/-- A registration loop commits, or fails at its `k`-th range and cancels, or fails to commit. -/
theorem registerAll_cases (ranges : List Resource) (log : List MgrEntry) (o : Oracle) :
    ((registerAll ranges log o).failure = none ∧
        (registerAll ranges log o).log = log ++ registered ranges ++ [⟨.commitTx, .ok⟩]) ∨
    (∃ e, (registerAll ranges log o).failure = some e ∧
        (registerAll ranges log o).log = log ++ registered ranges ++ [⟨.commitTx, .err e⟩]) ∨
    ∃ k rg e, ranges[k]? = some rg ∧ (registerAll ranges log o).failure = some e ∧
      (registerAll ranges log o).log =
        log ++ registered (ranges.take k) ++ [⟨.registerDeviceIo rg, .err e⟩, ⟨.cancelTx, .ok⟩] := by
  induction ranges generalizing log o with
  | nil =>
    cases h : o.drawMgr with
    | mk a o' => cases a <;> simp [registerAll, h, registered]
  | cons rg rest ih =>
    cases h : o.drawMgr with
    | mk a o' =>
      cases a with
      | ok =>
        simp only [registerAll, h]
        rcases ih (log ++ [⟨.registerDeviceIo rg, .ok⟩]) o' with ⟨hf, hl⟩ | ⟨e, hf, hl⟩ | ⟨k, rg', e, hk, hf, hl⟩
        · exact .inl ⟨hf, by simp [hl, registered]⟩
        · exact .inr (.inl ⟨e, hf, by simp [hl, registered]⟩)
        · exact .inr (.inr ⟨k + 1, rg', e, by simpa using hk, hf, by simp [hl, registered]⟩)
      | err e =>
        simp only [registerAll, h]
        exact .inr (.inr ⟨0, rg, e, by simp, rfl, by simp [registered]⟩)

end Sys2Proof.Machine
end

