-- ==== Sys2Proof/Laws/Bytes.lean ====
section
/-! SUPPORT. Byte strings: `bytes_le` and `le` undo each other, and an entry is its image. -/

namespace Sys2Proof

@[simp] theorem bytesLe_length (n v : Nat) : (bytesLe n v).length = n := by
  induction n generalizing v with
  | zero => rfl
  | succ n ih => simp [bytesLe, ih]

theorem leValue_bytesLe (n v : Nat) : leValue (bytesLe n v) = v % 256 ^ n := by
  induction n generalizing v with
  | zero => simp [bytesLe, leValue, Nat.mod_one]
  | succ n ih =>
    simp only [bytesLe, leValue, ih, BitVec.toNat_ofNat]
    rw [show 256 ^ (n + 1) = 256 * 256 ^ n by rw [Nat.pow_succ, Nat.mul_comm], Nat.mod_mul]

theorem leValue_lt (b : List Byte) : leValue b < 256 ^ b.length := by
  induction b with
  | nil => simp [leValue]
  | cons x rest ih =>
    have := x.isLt
    simp only [leValue, List.length_cons, Nat.pow_succ]
    omega

theorem bytesLe_leValue (b : List Byte) : bytesLe b.length (leValue b) = b := by
  induction b with
  | nil => rfl
  | cons x rest ih =>
    have hx := x.isLt
    simp only [List.length_cons, bytesLe, leValue]
    rw [show (x.toNat + 256 * leValue rest) / 256 = leValue rest by omega, ih]
    congr 1
    apply BitVec.eq_of_toNat_eq
    simp [BitVec.toNat_ofNat]
    omega

theorem bytesLe_getElem? (n v k : Nat) (h : k < n) : (bytesLe n v)[k]? = some (BitVec.ofNat 8 (v / 256 ^ k)) := by
  induction n generalizing v k with
  | zero => omega
  | succ n ih =>
    cases k with
    | zero => simp [bytesLe]
    | succ k =>
      simp only [bytesLe, List.getElem?_cons_succ]
      rw [ih _ _ (by omega), Nat.div_div_eq_div_mul, Nat.pow_succ, Nat.mul_comm]

namespace Machine

@[simp] theorem entryImage_length (e : Entry) : (entryImage e).length = 16 := by simp [entryImage]

theorem ofNat_leValue_bytesLe (v : U32) : BitVec.ofNat 32 (leValue (bytesLe 4 v.toNat)) = v := by
  apply BitVec.eq_of_toNat_eq
  have := v.isLt
  rw [leValue_bytesLe, BitVec.toNat_ofNat]
  omega

theorem bytesLe_ofNat_leValue (b : List Byte) (h : b.length = 4) :
    bytesLe 4 (BitVec.ofNat 32 (leValue b)).toNat = b := by
  have hlt := leValue_lt b
  rw [h] at hlt
  rw [BitVec.toNat_ofNat, Nat.mod_eq_of_lt (by omega)]
  conv_lhs => rw [← h]
  exact bytesLe_leValue b

/-- The image of the entry with a given 16-byte image is that image. -/
theorem entryImage_entryOfImage (b : List Byte) (h : b.length = 16) : entryImage (entryOfImage b) = b := by
  simp only [entryImage, entryOfImage]
  rw [bytesLe_ofNat_leValue _ (by simp [h]), bytesLe_ofNat_leValue _ (by simp [h]), bytesLe_ofNat_leValue _ (by simp [h]),
    bytesLe_ofNat_leValue _ (by simp [h])]
  have h3 : (b.drop 12).take 4 = b.drop 12 := List.take_of_length_le (by simp [h])
  rw [h3]
  have e1 : b.take 4 ++ (b.drop 4).take 4 = b.take 8 := by rw [← List.take_add]
  have e2 : b.take 8 ++ (b.drop 8).take 4 = b.take 12 := by rw [← List.take_add]
  rw [e1, e2, List.take_append_drop]

/-- The entry with the image of an entry is that entry. -/
theorem entryOfImage_entryImage (e : Entry) : entryOfImage (entryImage e) = e := by
  obtain ⟨a, b, c, d⟩ := e
  simp only [entryOfImage, entryImage]
  rw [show (bytesLe 4 a.toNat ++ bytesLe 4 b.toNat ++ bytesLe 4 c.toNat ++ bytesLe 4 d.toNat)
      = bytesLe 4 a.toNat ++ (bytesLe 4 b.toNat ++ (bytesLe 4 c.toNat ++ bytesLe 4 d.toNat)) by simp]
  simp [List.drop_append, List.take_of_length_le, List.drop_of_length_le]
  exact ⟨ofNat_leValue_bytesLe a, ofNat_leValue_bytesLe b, ofNat_leValue_bytesLe c, ofNat_leValue_bytesLe d⟩

/-- The image after a store that stays inside the entry. -/
theorem entryImage_patchEntry (e : Entry) (j : Nat) (payload : List Byte) (h : j + payload.length ≤ 16) :
    entryImage (patchEntry e j payload) = overwrite (entryImage e) j payload := by
  apply entryImage_entryOfImage
  simp [overwrite]
  omega

/-- A store writes its bytes and leaves the other bytes of the entry alone. -/
theorem overwrite_getElem? (image : List Byte) (j : Nat) (payload : List Byte) (k : Nat)
    (h : j + payload.length ≤ image.length) :
    (overwrite image j payload)[k]? =
      if j ≤ k ∧ k < j + payload.length then payload[k - j]? else image[k]? := by
  unfold overwrite
  by_cases h1 : k < j
  · rw [if_neg (by omega), List.append_assoc, List.getElem?_append_left (by simp; omega), List.getElem?_take_of_lt h1]
  · by_cases h2 : k < j + payload.length
    · rw [if_pos ⟨by omega, h2⟩, List.append_assoc, List.getElem?_append_right (by simp; omega),
        List.getElem?_append_left (by simp; omega)]
      congr 1
      simp
      omega
    · rw [if_neg (by omega), List.getElem?_append_right (by simp; omega), List.getElem?_drop]
      congr 1
      simp
      omega

end Machine
end Sys2Proof
end

