-- ==== Sys2Proof/Laws/Exec.lean ====
section
/-! SUPPORT. What one transaction can do, said once: to the functions, to ROOT, to the accesses in flight and to every other field.
The invariants and the frames of the machine are read off these instead of unfolding the meanings again. -/

namespace Sys2Proof.Machine

/-- The record a transition starts from and its control value: the function's own record for `msx.setctl`, the record with the new
control bits for a write of capability byte 3 (R182, R211). -/
inductive TransitionStart (fr : FnRec) : Instr → FnRec → U16 → Prop where
  | setctl (reg : U16) : TransitionStart fr (.msxSetctl reg) fr reg
  | write (c : Cap) (v : Byte) (h : fr.cap = some c) :
      TransitionStart fr (.capWr8 3 v) { fr with cap := some (c.setControl (controlByte v)) }
        (c.setControl (controlByte v)).msgCtl

/-- What a transaction can make of the record of its function. -/
inductive FnChange (p : Params) (o : Operands) (fr : FnRec) : Instr → FnRec → Prop where
  | capNew (h : fr.cap = none) (h0 : o.tableSize ≠ 0) (h1 : o.tableSize.toNat < 2048)
      (h2 : builtSizeDiffers fr o.tableSize = false) :
      FnChange p o fr .capNew { fr with cap := some (newCap p o) }
  | capSetctl (c : Cap) (v : U16) (h : fr.cap = some c) :
      FnChange p o fr (.capSetctl v) { fr with cap := some (c.setControl v) }
  | msxNew (n : U16) (h : fr.msx = none) (h0 : n ≠ 0) (h1 : n.toNat < 2048) (h2 : declaredSizeDiffers fr n = false) :
      FnChange p o fr (.msxNew n) { fr with msx := some (newMsx p n.toNat), log := [] }
  | unchanged (i : Instr) (m : Msx) (fr0 : FnRec) (reg : U16) (hs : TransitionStart fr i fr0 reg) (h : fr.msx = some m)
      (hf : m.enabled = newEnabled reg ∧ m.masked = newMasked reg) : FnChange p o fr i fr0
  | transitionOk (i : Instr) (m : Msx) (fr0 : FnRec) (reg : U16) (hs : TransitionStart fr i fr0 reg) (h : fr.msx = some m)
      (hf : ¬(m.enabled = newEnabled reg ∧ m.masked = newMasked reg)) :
      FnChange p o fr i { fr0 with
        msx := some { m with enabled := newEnabled reg, masked := newMasked reg },
        log := fr.log ++ allOk (transitionCalls p.arch m (newEnabled reg) (newMasked reg)) }
  | transitionErr (i : Instr) (m : Msx) (fr0 : FnRec) (reg : U16) (hs : TransitionStart fr i fr0 reg) (h : fr.msx = some m)
      (hf : ¬(m.enabled = newEnabled reg ∧ m.masked = newMasked reg)) (k : Nat) (c : Call) (e : Nat)
      (hk : (transitionCalls p.arch m (newEnabled reg) (newMasked reg))[k]? = some c) :
      FnChange p o fr i { fr0 with
        log := fr.log ++ allOk ((transitionCalls p.arch m (newEnabled reg) (newMasked reg)).take k) ++
          [⟨c, .result (.err e)⟩] }
  | tblWrOk (m : Msx) (off : Off) (d : List Byte) (old : Entry) (h : fr.msx = some m)
      (ha : addressedEntry m off d.length = some old) :
      FnChange p o fr (.tblWr off d) { fr with
        msx := some { m with tbl := m.tbl.set (tableIndex off) (patchEntry old (tableIntra off) d) },
        log := fr.log ++ allOk (tableWriteCalls m (tableIndex off) (tableIntra off) d.length
          (patchEntry old (tableIntra off) d)) }
  | tblWrErr (m : Msx) (off : Off) (d : List Byte) (old : Entry) (h : fr.msx = some m)
      (ha : addressedEntry m off d.length = some old) (k : Nat) (c : Call) (e : Nat)
      (hk : (tableWriteCalls m (tableIndex off) (tableIntra off) d.length (patchEntry old (tableIntra off) d))[k]? = some c) :
      FnChange p o fr (.tblWr off d) { fr with
        msx := some { m with tbl := m.tbl.set (tableIndex off) (patchEntry old (tableIntra off) d) },
        log := fr.log ++ allOk ((tableWriteCalls m (tableIndex off) (tableIntra off) d.length
          (patchEntry old (tableIntra off) d)).take k) ++ [⟨c, .result (.err e)⟩] }
  | pbaRd (m : Msx) (len : BitVec 8) (off : Off) (h : fr.msx = some m) (he : m.enabled = true) (orc : Oracle) :
      FnChange p o fr (.pbaRd len off) { fr with log := (pbaBytes m len.toNat off.toNat fr.log orc).log }

/-- What a transaction can make of the function map: nothing, or one change of its own function's record. -/
def fnsChange (i : Instr) (s t : State) : Prop :=
  t.fns = s.fns ∨ ∃ fr, FnChange s.params s.cur.operands (ownFn s) i fr ∧ t.fns = mapPut s.cur.operands.fn fr s.fns

theorem transition_fns {s : State} {fr0 : FnRec} {m : Msx} {reg : U16} {i : Instr}
    (hs : TransitionStart (ownFn s) i fr0 reg) (hm : (ownFn s).msx = some m) :
    fnsChange i s (transition s s.cur.operands.fn fr0 m reg) := by
  have hlog : fr0.log = (ownFn s).log := by cases hs <;> rfl
  unfold transition
  split
  · rename_i hf
    exact .inr ⟨_, .unchanged i m fr0 reg hs hm hf, rfl⟩
  · rename_i hf
    obtain ⟨o', -, h | ⟨k, c, e, hk, h⟩⟩ := finishCalls_cases s s.cur.operands.fn
      (transitionCalls s.params.arch m (newEnabled reg) (newMasked reg)) fr0.log
      { fr0 with msx := some { m with enabled := newEnabled reg, masked := newMasked reg } } fr0
    · exact .inr ⟨_, .transitionOk i m fr0 reg hs hm hf, by rw [h, hlog]⟩
    · exact .inr ⟨_, .transitionErr i m fr0 reg hs hm hf k c e hk, by rw [h, hlog]⟩

theorem forwardOrMiss_fns (s : State) (r : Root) (a : CfgAddr) (acc : Access) : (forwardOrMiss s r a acc).fns = s.fns := by
  unfold forwardOrMiss
  split <;> rfl

theorem ecamAccess_fns {s t : State} {off : Off} {acc : Access} (h : ecamAccess off acc s = .next t) : t.fns = s.fns := by
  obtain ⟨r, -, -, h⟩ := withEcam_next h
  split at h
  · obtain ⟨-, h⟩ := underLock_next h
    cases h
    exact forwardOrMiss_fns _ _ _ _
  · cases h
    rfl

theorem dataAccess_fns {s t : State} {lane : BitVec 2} {acc : Access} (h : dataAccess lane acc s = .next t) :
    t.fns = s.fns := by
  obtain ⟨r, -, -, -, h⟩ := withPio_next h
  split at h
  · obtain ⟨-, h⟩ := underLock_next h
    split at h
    · cases h
      exact forwardOrMiss_fns _ _ _ _
    · cases h
      rfl
  · cases h
    rfl

/-- An accessor of the capability leaves a state as it was, but for its answer. -/
theorem capQuery_next {f : Cap → Result} {s t : State} (h : capQuery f s = .next t) :
    ∃ c m, (ownFn s).cap = some c ∧ (ownFn s).msx = some m ∧ t = s.reply (f c) := by
  obtain ⟨-, h⟩ := hostOnly_next h
  obtain ⟨-, h⟩ := serialized_next h
  obtain ⟨c, m, hc, hm, h⟩ := withFunction_next h
  cases h
  exact ⟨c, m, hc, hm, rfl⟩

theorem capQuery_eq {f : Cap → Result} {s : State} {c : Cap} {m : Msx} (hh : fromHost s = true) (ho : s.cur.overlaps = false)
    (hc : (ownFn s).cap = some c) (hm : (ownFn s).msx = some m) : capQuery f s = .next (s.reply (f c)) := by
  rw [capQuery, hostOnly_of_host hh, serialized_ok ho, withFunction_some hc hm]

/-- Everything one transaction can do to the functions. -/
theorem exec_fns {i : Instr} {s t : State} (h : exec i s = .next t) : fnsChange i s t := by
  cases i with
  | ecamRd len off => exact .inl (ecamAccess_fns h)
  | ecamWr off d => exact .inl (ecamAccess_fns h)
  | pioRdAddr len lane =>
    obtain ⟨r, -, -, -, h⟩ := withPio_next h
    split at h
    · obtain ⟨-, h⟩ := underLock_next h
      cases h
      exact .inl rfl
    · cases h
      exact .inl rfl
  | pioWrAddr lane d =>
    obtain ⟨r, -, -, -, h⟩ := withPio_next h
    split at h
    · obtain ⟨-, h⟩ := underLock_next h
      cases h
      exact .inl rfl
    · cases h
      exact .inl rfl
  | pioRdData len lane => exact .inl (dataAccess_fns h)
  | pioWrData lane d => exact .inl (dataAccess_fns h)
  | pioRdOor len off =>
    obtain ⟨r, -, -, -, h⟩ := withPio_next h
    cases h
    exact .inl rfl
  | pioWrOor off d =>
    obtain ⟨r, -, -, -, h⟩ := withPio_next h
    cases h
    exact .inl rfl
  | capRd8 off =>
    obtain ⟨-, h⟩ := serialized_next h
    obtain ⟨c, m, -, -, h⟩ := withFunction_next h
    cases h
    exact .inl rfl
  | capWr8 off v =>
    obtain ⟨-, h⟩ := serialized_next h
    obtain ⟨c, m, hc, hm, h⟩ := withFunction_next h
    split at h
    · cases h
      exact .inl rfl
    · rename_i hoff
      cases h
      have : off = 3 := by simpa using hoff
      subst this
      exact transition_fns (.write c v hc) hm
  | tblRd len off =>
    obtain ⟨-, h⟩ := serialized_next h
    obtain ⟨c, m, -, -, h⟩ := withFunction_next h
    cases h
    exact .inl rfl
  | tblWr off d =>
    obtain ⟨-, h⟩ := serialized_next h
    obtain ⟨c, m, -, hm, h⟩ := withFunction_next h
    split at h
    · cases h
      exact .inl rfl
    · rename_i old ha
      cases h
      obtain ⟨o', -, h | ⟨k, c, e, hk, h⟩⟩ := finishCalls_cases s s.cur.operands.fn
        (tableWriteCalls m (tableIndex off) (tableIntra off) d.length (patchEntry old (tableIntra off) d)) (ownFn s).log
        { ownFn s with msx := some { m with tbl := m.tbl.set (tableIndex off) (patchEntry old (tableIntra off) d) } }
        { ownFn s with msx := some { m with tbl := m.tbl.set (tableIndex off) (patchEntry old (tableIntra off) d) } }
      · exact .inr ⟨_, .tblWrOk m off d old hm ha, congrArg State.fns h⟩
      · exact .inr ⟨_, .tblWrErr m off d old hm ha k c e hk, congrArg State.fns h⟩
  | pbaRd len off =>
    obtain ⟨-, h⟩ := serialized_next h
    obtain ⟨c, m, -, hm, h⟩ := withFunction_next h
    split at h
    · rename_i he
      cases h
      exact .inr ⟨_, .pbaRd m len off hm he s.oracle, rfl⟩
    · cases h
      exact .inl rfl
  | rootCreate mb =>
    obtain ⟨-, h⟩ := hostOnly_next h
    split at h
    · cases h
    · split at h <;> cases h <;> exact .inl rfl
  | rootAddBus id =>
    obtain ⟨-, h⟩ := hostOnly_next h
    obtain ⟨r, -, h⟩ := withRoot_next h
    split at h
    · cases h
    · split at h
      · cases h
        exact .inl rfl
      · obtain ⟨-, h⟩ := underLock_next h
        cases h
        exact .inl rfl
  | rootGetBus id =>
    obtain ⟨-, h⟩ := hostOnly_next h
    obtain ⟨r, -, h⟩ := withRoot_next h
    split at h
    · cases h
      exact .inl rfl
    · obtain ⟨-, h⟩ := underLock_next h
      cases h
      exact .inl rfl
  | rootActivate =>
    obtain ⟨-, h⟩ := hostOnly_next h
    obtain ⟨r, -, h⟩ := withRoot_next h
    split at h
    · cases h
    · dsimp only at h
      split at h <;> cases h <;> exact .inl rfl
  | rootResources =>
    obtain ⟨-, h⟩ := hostOnly_next h
    obtain ⟨r, -, h⟩ := withRoot_next h
    cases h
    exact .inl rfl
  | capNew =>
    obtain ⟨-, h⟩ := hostOnly_next h
    obtain ⟨-, h⟩ := serialized_next h
    split at h
    · cases h
    · split at h
      · cases h
      · split at h
        · cases h
        · split at h
          · cases h
          · rename_i h0 h1 h2 h3
            cases h
            exact .inr ⟨_, .capNew (by simpa [ownFn] using h0) h1 (by omega) (by simpa [ownFn] using h3), rfl⟩
  | capSetctl v =>
    obtain ⟨-, h⟩ := hostOnly_next h
    obtain ⟨-, h⟩ := serialized_next h
    obtain ⟨c, m, hc, -, h⟩ := withFunction_next h
    cases h
    exact .inr ⟨_, .capSetctl c v hc, rfl⟩
  | capQMasked =>
    obtain ⟨c, m, -, -, rfl⟩ := capQuery_next h
    exact .inl rfl
  | capQEnabled =>
    obtain ⟨c, m, -, -, rfl⟩ := capQuery_next h
    exact .inl rfl
  | capQTableOffset =>
    obtain ⟨c, m, -, -, rfl⟩ := capQuery_next h
    exact .inl rfl
  | capQPbaOffset =>
    obtain ⟨c, m, -, -, rfl⟩ := capQuery_next h
    exact .inl rfl
  | capQTableBir =>
    obtain ⟨c, m, -, -, rfl⟩ := capQuery_next h
    exact .inl rfl
  | capQPbaBir =>
    obtain ⟨c, m, -, -, rfl⟩ := capQuery_next h
    exact .inl rfl
  | capQTableSize =>
    obtain ⟨c, m, -, -, rfl⟩ := capQuery_next h
    exact .inl rfl
  | msxNew n =>
    obtain ⟨-, h⟩ := hostOnly_next h
    obtain ⟨-, h⟩ := serialized_next h
    split at h
    · cases h
    · split at h
      · cases h
      · split at h
        · cases h
        · rename_i h0 h1 h2
          cases h
          rw [not_or] at h1
          exact .inr ⟨_, .msxNew n (by simpa [ownFn] using h0) h1.1 (by omega) (by simpa [ownFn] using h2), rfl⟩
  | msxSetctl reg =>
    obtain ⟨-, h⟩ := hostOnly_next h
    obtain ⟨-, h⟩ := serialized_next h
    obtain ⟨c, m, -, hm, h⟩ := withFunction_next h
    cases h
    exact transition_fns (.setctl reg) hm
  | msxQEnabled =>
    obtain ⟨-, h⟩ := hostOnly_next h
    obtain ⟨-, h⟩ := serialized_next h
    obtain ⟨c, m, -, -, h⟩ := withFunction_next h
    cases h
    exact .inl rfl
  | msxQMasked =>
    obtain ⟨-, h⟩ := hostOnly_next h
    obtain ⟨-, h⟩ := serialized_next h
    obtain ⟨c, m, -, -, h⟩ := withFunction_next h
    cases h
    exact .inl rfl

end Sys2Proof.Machine
end

