-- ==== Sys2Proof/Laws/Step.lean ====
section
/-! SUPPORT. What one step can do, said once: run a transaction, complete an access in flight, or drop an event; and the fields
that each of these leaves alone. -/

namespace Sys2Proof.Machine

theorem step_of_event {s : State} {slot : Slot} {rest : List Slot} (hf : s.faulted = false) (hr : s.refused = false)
    (hq : s.queue = slot :: rest) : step s = runEvent s slot rest := by
  simp [step, hf, hr, hq]

theorem step_of_idle {s : State} (hf : s.faulted = false) (hr : s.refused = false) (hq : s.queue = []) :
    step s = .next s.idle := by
  simp [step, hf, hr, hq]

theorem accessOf_mem {a : Agent} {l : List Forward} {fw : Forward} (h : accessOf a l = some fw) : fw ∈ l :=
  List.mem_of_find?_eq_some h

theorem accessOf_agent {a : Agent} {l : List Forward} {fw : Forward} (h : accessOf a l = some fw) : fw.agent = a := by
  simpa using List.find?_some h

theorem State.panicEvent_of_root {s : State} {r : Root} (h : s.root = some r) (rest : List Slot) :
    s.panicEvent rest = s.poison.setQueue rest := by
  simp [State.panicEvent, h]

theorem State.panicEvent_of_noRoot {s : State} (h : s.root = none) (rest : List Slot) : s.panicEvent rest = s.setQueue rest := by
  simp [State.panicEvent, h]

/-- Everything a step that answers a next state can do. -/
theorem step_cases {s t : State} (h : step s = .next t) :
    (∃ iss rest i, exec i (s.load iss rest) = .next t) ∨
    (∃ fw q, fw ∈ s.inflight ∧ t = (s.complete fw).setQueue q) ∨
    (∃ q, t = s.setQueue q) ∨ (∃ r, s.root = some r) ∧ ∃ q, s.queue = .panic :: q ∧ t = (s.setQueue q).poison := by
  unfold step at h
  split at h
  · cases h
  · split at h
    · cases h
    · split at h
      · cases h
        unfold State.idle
        split
        · exact .inr (.inr (.inl ⟨s.queue, rfl⟩))
        · rename_i fw l hl
          exact .inr (.inl ⟨fw, (s.complete fw).queue, by simp [hl], rfl⟩)
      · rename_i slot rest hq
        cases slot with
        | issue iss =>
          simp only [runEvent, issueEvent] at h
          split at h
          · rename_i fw hfw
            cases h
            exact .inr (.inl ⟨fw, (s.complete fw).queue, accessOf_mem hfw, rfl⟩)
          · unfold runCurrent at h
            split at h
            · cases h
            · exact .inl ⟨iss, rest, _, h⟩
        | forward a =>
          simp only [runEvent, State.forwardEvent] at h
          split at h
          · cases h
            exact .inr (.inr (.inl ⟨rest, rfl⟩))
          · rename_i fw hfw
            cases h
            exact .inr (.inl ⟨fw, rest, accessOf_mem hfw, rfl⟩)
        | panic =>
          cases h
          cases hr : s.root with
          | none => exact .inr (.inr (.inl ⟨rest, State.panicEvent_of_noRoot hr rest⟩))
          | some r => exact .inr (.inr (.inr ⟨⟨r, rfl⟩, rest, hq, State.panicEvent_of_root hr rest⟩))

/-- Completing an access changes nothing but the records of what went out, the oracles and the access itself. -/
theorem State.complete_eq (s : State) (fw : Forward) :
    s.complete fw = { s with
      inflight := withoutAccessOf fw.agent s.inflight, oracle := (s.complete fw).oracle,
      replies := (s.complete fw).replies, busLog := (s.complete fw).busLog } := by
  unfold State.complete State.perform
  cases fw.access <;> rfl

/-- What a step does to the functions: nothing, or what its transaction does. -/
theorem step_fns {s t : State} (h : step s = .next t) :
    t.fns = s.fns ∨ ∃ iss rest i, exec i (s.load iss rest) = .next t ∧ fnsChange i (s.load iss rest) t := by
  rcases step_cases h with ⟨iss, rest, i, h⟩ | ⟨fw, q, -, rfl⟩ | ⟨q, rfl⟩ | ⟨-, q, -, rfl⟩
  · exact .inr ⟨iss, rest, i, h, exec_fns h⟩
  · rw [State.complete_eq]; exact .inl rfl
  · exact .inl rfl
  · exact .inl rfl

end Sys2Proof.Machine
end

