-- ==== Sys2Proof/Laws/Frame.lean ====
section
/-! SUPPORT. What no transaction changes, and what a transaction can change in ROOT, among the accesses in flight and in the records
of what went out. -/

namespace Sys2Proof.Machine

/-- The fields no transaction writes. -/
def fixedKept (s t : State) : Prop :=
  t.params = s.params ∧ t.poisoned = s.poisoned ∧ t.faulted = s.faulted ∧ t.refused = s.refused ∧ t.queue = s.queue ∧
    t.cur = s.cur ∧ t.busLog = s.busLog

/-- The fields no MSI-X transaction writes besides. -/
def rootSideKept (s t : State) : Prop := t.root = s.root ∧ t.inflight = s.inflight ∧ t.diag = s.diag ∧ t.mgrLog = s.mgrLog

theorem finishCalls_kept (s : State) (f : FnHandle) (calls : List Call) (log : List LogEntry) (onOk onErr : FnRec) :
    fixedKept s (finishCalls s f calls log onOk onErr) ∧ rootSideKept s (finishCalls s f calls log onOk onErr) := by
  obtain ⟨o', -, h | ⟨k, c, e, -, h⟩⟩ := finishCalls_cases s f calls log onOk onErr <;>
    simp [h, fixedKept, rootSideKept]

theorem transition_kept (s : State) (f : FnHandle) (fr : FnRec) (m : Msx) (reg : U16) :
    fixedKept s (transition s f fr m reg) ∧ rootSideKept s (transition s f fr m reg) := by
  unfold transition
  split
  · simp [fixedKept, rootSideKept]
  · exact finishCalls_kept _ _ _ _ _ _

theorem forwardOrMiss_kept (s : State) (r : Root) (a : CfgAddr) (acc : Access) :
    fixedKept s (forwardOrMiss s r a acc) ∧ (forwardOrMiss s r a acc).root = s.root := by
  unfold forwardOrMiss
  split <;> simp [fixedKept]

/-- What a transaction can make of ROOT. -/
inductive RootChange (s : State) : Instr → Option Root → Prop where
  | kept (i : Instr) : RootChange s i s.root
  | written (r : Root) (lane : BitVec 2) (d : List Byte) (h : s.root = some r) :
      RootChange s (.pioWrAddr lane d) (some { r with ioAddr := laneMerge r.ioAddr (laneShift lane) d })
  | created (maxBus : BitVec 8) (h : s.root = none)
      (hf : resourcesFit maxBus (pioRanges s.cur.operands.resources) (mmioRanges s.cur.operands.resources) = true) :
      RootChange s (.rootCreate maxBus) (some (newRoot maxBus s.cur.operands.resources))
  | added (r : Root) (id : BitVec 8) (h : s.root = some r) (hid : id.toNat ≤ r.maxBus.toNat) :
      RootChange s (.rootAddBus id) (some { r with buses := mapPut id.toNat s.cur.operands.bus r.buses })
  | activated (r : Root) (h : s.root = some r) : RootChange s .rootActivate (some { r with activated := true })

/-- Everything one transaction can do outside the functions, the oracles and the replies. -/
theorem exec_kept {i : Instr} {s t : State} (h : exec i s = .next t) : fixedKept s t ∧ RootChange s i t.root := by
  have lift : ∀ {t : State}, fixedKept s t ∧ rootSideKept s t → fixedKept s t ∧ RootChange s i t.root :=
    fun hk => ⟨hk.1, hk.2.1 ▸ .kept i⟩
  have fwd : ∀ (r : Root) (a : CfgAddr) (acc : Access), fixedKept s (forwardOrMiss s r a acc) ∧
      RootChange s i (forwardOrMiss s r a acc).root :=
    fun r a acc => ⟨(forwardOrMiss_kept s r a acc).1, (forwardOrMiss_kept s r a acc).2 ▸ .kept i⟩
  have same : ∀ {t : State}, fixedKept s t → t.root = s.root → fixedKept s t ∧ RootChange s i t.root :=
    fun hk hr => ⟨hk, hr ▸ .kept i⟩
  cases i with
  | ecamRd len off =>
    obtain ⟨r, -, -, h⟩ := withEcam_next h
    split at h
    · obtain ⟨-, h⟩ := underLock_next h
      cases h
      exact fwd _ _ _
    · cases h
      exact same (by simp [fixedKept]) rfl
  | ecamWr off d =>
    obtain ⟨r, -, -, h⟩ := withEcam_next h
    split at h
    · obtain ⟨-, h⟩ := underLock_next h
      cases h
      exact fwd _ _ _
    · cases h
      exact same (by simp [fixedKept]) rfl
  | pioRdAddr len lane =>
    obtain ⟨r, -, -, -, h⟩ := withPio_next h
    split at h
    · obtain ⟨-, h⟩ := underLock_next h
      cases h
      exact same (by simp [fixedKept]) rfl
    · cases h
      exact same (by simp [fixedKept]) rfl
  | pioWrAddr lane d =>
    obtain ⟨r, hr, -, -, h⟩ := withPio_next h
    split at h
    · obtain ⟨-, h⟩ := underLock_next h
      cases h
      exact ⟨by simp [fixedKept], .written r lane d hr⟩
    · cases h
      exact same (by simp [fixedKept]) rfl
  | pioRdData len lane =>
    obtain ⟨r, -, -, -, h⟩ := withPio_next h
    split at h
    · obtain ⟨-, h⟩ := underLock_next h
      split at h
      · cases h
        exact fwd _ _ _
      · cases h
        exact same (by simp [fixedKept]) rfl
    · cases h
      exact same (by simp [fixedKept]) rfl
  | pioWrData lane d =>
    obtain ⟨r, -, -, -, h⟩ := withPio_next h
    split at h
    · obtain ⟨-, h⟩ := underLock_next h
      split at h
      · cases h
        exact fwd _ _ _
      · cases h
        exact same (by simp [fixedKept]) rfl
    · cases h
      exact same (by simp [fixedKept]) rfl
  | pioRdOor len off =>
    obtain ⟨r, -, -, -, h⟩ := withPio_next h
    cases h
    exact same (by simp [fixedKept]) rfl
  | pioWrOor off d =>
    obtain ⟨r, -, -, -, h⟩ := withPio_next h
    cases h
    exact same (by simp [fixedKept]) rfl
  | capRd8 off =>
    obtain ⟨-, h⟩ := serialized_next h
    obtain ⟨c, m, -, -, h⟩ := withFunction_next h
    cases h
    exact same (by simp [fixedKept]) rfl
  | capWr8 off v =>
    obtain ⟨-, h⟩ := serialized_next h
    obtain ⟨c, m, -, -, h⟩ := withFunction_next h
    split at h
    · cases h
      exact same (by simp [fixedKept]) rfl
    · cases h
      exact lift (transition_kept _ _ _ _ _)
  | tblRd len off =>
    obtain ⟨-, h⟩ := serialized_next h
    obtain ⟨c, m, -, -, h⟩ := withFunction_next h
    cases h
    exact same (by simp [fixedKept]) rfl
  | tblWr off d =>
    obtain ⟨-, h⟩ := serialized_next h
    obtain ⟨c, m, -, -, h⟩ := withFunction_next h
    split at h
    · cases h
      exact same (by simp [fixedKept]) rfl
    · cases h
      exact lift (finishCalls_kept _ _ _ _ _ _)
  | pbaRd len off =>
    obtain ⟨-, h⟩ := serialized_next h
    obtain ⟨c, m, -, -, h⟩ := withFunction_next h
    split at h <;> cases h <;> exact same (by simp [fixedKept]) rfl
  | rootCreate mb =>
    obtain ⟨-, h⟩ := hostOnly_next h
    split at h
    · cases h
    · rename_i hn
      split at h
      · rename_i hf
        cases h
        exact ⟨by simp [fixedKept], .created mb (by simpa using hn) hf⟩
      · cases h
        exact same (by simp [fixedKept]) rfl
  | rootAddBus id =>
    obtain ⟨-, h⟩ := hostOnly_next h
    obtain ⟨r, hr, h⟩ := withRoot_next h
    split at h
    · cases h
    · split at h
      · cases h
        exact same (by simp [fixedKept]) rfl
      · rename_i hid
        obtain ⟨-, h⟩ := underLock_next h
        cases h
        exact ⟨by simp [fixedKept], .added r id hr (by omega)⟩
  | rootGetBus id =>
    obtain ⟨-, h⟩ := hostOnly_next h
    obtain ⟨r, -, h⟩ := withRoot_next h
    split at h
    · cases h
      exact same (by simp [fixedKept]) rfl
    · obtain ⟨-, h⟩ := underLock_next h
      cases h
      exact same (by simp [fixedKept]) rfl
  | rootActivate =>
    obtain ⟨-, h⟩ := hostOnly_next h
    obtain ⟨r, hr, h⟩ := withRoot_next h
    split at h
    · cases h
    · dsimp only at h
      split at h
      · cases h
        exact same (by simp [fixedKept]) rfl
      · cases h
        exact ⟨by simp [fixedKept], .activated r hr⟩
  | rootResources =>
    obtain ⟨-, h⟩ := hostOnly_next h
    obtain ⟨r, -, h⟩ := withRoot_next h
    cases h
    exact same (by simp [fixedKept]) rfl
  | capNew =>
    obtain ⟨-, h⟩ := hostOnly_next h
    obtain ⟨-, h⟩ := serialized_next h
    split at h
    · cases h
    · split at h
      · cases h
      · split at h
        · cases h
        · split at h <;> cases h
          exact same (by simp [fixedKept]) rfl
  | capSetctl v =>
    obtain ⟨-, h⟩ := hostOnly_next h
    obtain ⟨-, h⟩ := serialized_next h
    obtain ⟨c, m, -, -, h⟩ := withFunction_next h
    cases h
    exact same (by simp [fixedKept]) rfl
  | msxNew n =>
    obtain ⟨-, h⟩ := hostOnly_next h
    obtain ⟨-, h⟩ := serialized_next h
    split at h
    · cases h
    · split at h
      · cases h
      · split at h <;> cases h
        exact same (by simp [fixedKept]) rfl
  | msxSetctl reg =>
    obtain ⟨-, h⟩ := hostOnly_next h
    obtain ⟨-, h⟩ := serialized_next h
    obtain ⟨c, m, -, -, h⟩ := withFunction_next h
    cases h
    exact lift (transition_kept _ _ _ _ _)
  | msxQEnabled =>
    obtain ⟨-, h⟩ := hostOnly_next h
    obtain ⟨-, h⟩ := serialized_next h
    obtain ⟨c, m, -, -, h⟩ := withFunction_next h
    cases h
    exact same (by simp [fixedKept]) rfl
  | msxQMasked =>
    obtain ⟨-, h⟩ := hostOnly_next h
    obtain ⟨-, h⟩ := serialized_next h
    obtain ⟨c, m, -, -, h⟩ := withFunction_next h
    cases h
    exact same (by simp [fixedKept]) rfl
  | capQMasked =>
    obtain ⟨c, m, -, -, rfl⟩ := capQuery_next h
    exact same (by simp [fixedKept]) rfl
  | capQEnabled =>
    obtain ⟨c, m, -, -, rfl⟩ := capQuery_next h
    exact same (by simp [fixedKept]) rfl
  | capQTableOffset =>
    obtain ⟨c, m, -, -, rfl⟩ := capQuery_next h
    exact same (by simp [fixedKept]) rfl
  | capQPbaOffset =>
    obtain ⟨c, m, -, -, rfl⟩ := capQuery_next h
    exact same (by simp [fixedKept]) rfl
  | capQTableBir =>
    obtain ⟨c, m, -, -, rfl⟩ := capQuery_next h
    exact same (by simp [fixedKept]) rfl
  | capQPbaBir =>
    obtain ⟨c, m, -, -, rfl⟩ := capQuery_next h
    exact same (by simp [fixedKept]) rfl
  | capQTableSize =>
    obtain ⟨c, m, -, -, rfl⟩ := capQuery_next h
    exact same (by simp [fixedKept]) rfl

end Sys2Proof.Machine
end

