-- ==== Sys2Proof/Laws/PerInstr.lean ====
section
/-! SUPPORT. One law for each transaction: its encoding matches its own row of the opcode table (30_encoding.md R97, R103) and is as
long as R90 says. -/

namespace Sys2Proof.Laws.EncodesRow

/-- The row of the opcode table that stands for a transaction. -/
def rowOf : Instr → Opcode
  | .ecamRd _ _ => .ecamRd
  | .ecamWr _ _ => .ecamWr
  | .pioRdAddr _ _ => .pioRdAddr
  | .pioWrAddr _ _ => .pioWrAddr
  | .pioRdData _ _ => .pioRdData
  | .pioWrData _ _ => .pioWrData
  | .pioRdOor _ _ => .pioRdOor
  | .pioWrOor _ _ => .pioWrOor
  | .capRd8 _ => .capRd8
  | .capWr8 _ _ => .capWr8
  | .tblRd _ _ => .tblRd
  | .tblWr _ _ => .tblWr
  | .pbaRd _ _ => .pbaRd
  | .rootCreate _ => .rootCreate
  | .rootAddBus _ => .rootAddBus
  | .rootGetBus _ => .rootGetBus
  | .rootActivate => .rootActivate
  | .rootResources => .rootResources
  | .capNew => .capNew
  | .capSetctl _ => .capSetctl
  | .capQMasked => .capQMasked
  | .capQEnabled => .capQEnabled
  | .capQTableOffset => .capQTableOffset
  | .capQPbaOffset => .capQPbaOffset
  | .capQTableBir => .capQTableBir
  | .capQPbaBir => .capQPbaBir
  | .capQTableSize => .capQTableSize
  | .msxNew _ => .msxNew
  | .msxSetctl _ => .msxSetctl
  | .msxQEnabled => .msxQEnabled
  | .msxQMasked => .msxQMasked

/-- A well-formed transaction's descriptor matches the row of its name, and its bytes are the descriptor and its payload. -/
def Statement (i : Instr) : Prop :=
  WellFormed i = true → ∃ r ∈ opcodeTable, r.row = rowOf i ∧ r.accepts (descriptor i) = true ∧
    (encode i).length = 8 + payloadLength r.row (descriptor i)

theorem lenOf_mkTd (tgt op : BitVec 4) (len : BitVec 8) (off : Off) : lenOf (mkTd tgt op len off) = len := by
  apply BitVec.eq_of_toNat_eq
  have h1 := off.isLt
  have h2 := len.isLt
  simp only [lenOf, mkTd, BitVec.extractLsb'_toNat, BitVec.toNat_append, Nat.shiftRight_eq_div_pow]
  rw [← Nat.shiftLeft_add_eq_or_of_lt h1, ← Nat.shiftLeft_add_eq_or_of_lt h2, Nat.shiftLeft_eq, Nat.shiftLeft_eq]
  omega

/-- The `and` of two descriptors, field by field. -/
theorem mkTd_and (tgt op tgt' op' : BitVec 4) (len len' : BitVec 8) (off off' : Off) :
    mkTd tgt op len off &&& mkTd tgt' op' len' off' = mkTd (tgt &&& tgt') (op &&& op') (len &&& len') (off &&& off') := by
  have h1 : ∀ (x x' : BitVec 16) (y y' : BitVec 48), (x ++ y : BitVec 64) &&& (x' ++ y') = (x &&& x') ++ (y &&& y') :=
    fun _ _ _ _ => BitVec.and_append
  have h2 : ∀ (x x' y y' : BitVec 8), (x ++ y : BitVec 16) &&& (x' ++ y') = (x &&& x') ++ (y &&& y') :=
    fun _ _ _ _ => BitVec.and_append
  have h3 : ∀ (x x' y y' : BitVec 4), (x ++ y : BitVec 8) &&& (x' ++ y') = (x &&& x') ++ (y &&& y') :=
    fun _ _ _ _ => BitVec.and_append
  exact (h1 _ _ _ _).trans (by rw [h2, h3]; rfl)

theorem accepts_mkTd {row : Opcode} {pattern mask : U64} {tgt op : BitVec 4} {len ml : BitVec 8} {off mo : Off}
    (hm : mask = mkTd 0xF 0xF ml mo) (hp : pattern = mkTd tgt op (len &&& ml) (off &&& mo)) :
    TableRow.accepts ⟨row, pattern, mask⟩ (mkTd tgt op len off) = true := by
  have h : ∀ x : BitVec 4, x &&& 0xF = x := by decide
  simp only [TableRow.accepts, hm, hp, mkTd_and, h, beq_self_eq_true]

/-- The bits of OFF that a row with a free lane fixes. -/
theorem lane_and (hi : BitVec 46) (lane : BitVec 2) : ((hi ++ lane : BitVec 48) &&& 0xFFFFFFFFFFFC#48) = hi ++ 0#2 := by
  have h : ((hi ++ lane : BitVec 48) &&& (BitVec.allOnes 46 ++ 0#2 : BitVec 48)) = (hi &&& BitVec.allOnes 46) ++ (lane &&& 0#2) :=
    BitVec.and_append
  exact h.trans (by rw [BitVec.and_allOnes]; simp)

/-- The bits of OFF that a row with a free byte fixes. -/
theorem byte_and (b : BitVec 8) : ((0#40 ++ b : BitVec 48) &&& 0xFFFFFFFFFF00#48) = 0 := by
  have h : ((0#40 ++ b : BitVec 48) &&& (BitVec.allOnes 40 ++ 0#8 : BitVec 48)) = (0#40 &&& BitVec.allOnes 40) ++ (b &&& 0#8) :=
    BitVec.and_append
  exact h.trans (by simp)

/-- The bits of OFF that a row with a free half-word fixes. -/
theorem half_and (v : BitVec 16) : ((0#32 ++ v : BitVec 48) &&& 0xFFFFFFFF0000#48) = 0 := by
  have h : ((0#32 ++ v : BitVec 48) &&& (BitVec.allOnes 32 ++ 0#16 : BitVec 48)) = (0#32 &&& BitVec.allOnes 32) ++ (v &&& 0#16) :=
    BitVec.and_append
  exact h.trans (by simp)

theorem payload_toNat {payload : List Byte} (h : payloadFits payload = true) : (payloadLen payload).toNat = payload.length := by
  have h' : payload.length ≤ 255 := by simpa [payloadFits] using h
  simp only [payloadLen, BitVec.toNat_ofNat]
  omega

theorem ecamRd (len : BitVec 8) (off : Off) : Statement (.ecamRd len off) := by
  intro _
  refine ⟨⟨.ecamRd, 0x0000000000000000, 0xFF00000000000000⟩, by simp [opcodeTable], rfl, ?_, ?_⟩
  · exact accepts_mkTd (ml := 0x00#8) (mo := 0x000000000000#48) (by rfl) (by simp [mkTd])
  · simp [encode, descriptor, payloadOf, bytesLe_length, payloadLength, Opcode.carriesPayload]

theorem ecamWr (off : Off) (payload : List Byte) : Statement (.ecamWr off payload) := by
  intro h
  refine ⟨⟨.ecamWr, 0x0100000000000000, 0xFF00000000000000⟩, by simp [opcodeTable], rfl, ?_, ?_⟩
  · exact accepts_mkTd (ml := 0x00#8) (mo := 0x000000000000#48) (by rfl) (by simp [mkTd])
  · simp [encode, descriptor, payloadOf, bytesLe_length, payloadLength, Opcode.carriesPayload, lenOf_mkTd,
      payload_toNat (by simpa [WellFormed] using h)]

theorem pioRdAddr (len : BitVec 8) (lane : BitVec 2) : Statement (.pioRdAddr len lane) := by
  intro _
  refine ⟨⟨.pioRdAddr, 0x1000000000000000, 0xFF00FFFFFFFFFFFC⟩, by simp [opcodeTable], rfl, ?_, ?_⟩
  · exact accepts_mkTd (ml := 0x00#8) (mo := 0xFFFFFFFFFFFC#48) (by rfl) (by rw [lane_and]; simp [mkTd])
  · simp [encode, descriptor, payloadOf, bytesLe_length, payloadLength, Opcode.carriesPayload]

theorem pioWrAddr (lane : BitVec 2) (payload : List Byte) : Statement (.pioWrAddr lane payload) := by
  intro h
  refine ⟨⟨.pioWrAddr, 0x1100000000000000, 0xFF00FFFFFFFFFFFC⟩, by simp [opcodeTable], rfl, ?_, ?_⟩
  · exact accepts_mkTd (ml := 0x00#8) (mo := 0xFFFFFFFFFFFC#48) (by rfl) (by rw [lane_and]; simp [mkTd])
  · simp [encode, descriptor, payloadOf, bytesLe_length, payloadLength, Opcode.carriesPayload, lenOf_mkTd,
      payload_toNat (by simpa [WellFormed] using h)]

theorem pioRdData (len : BitVec 8) (lane : BitVec 2) : Statement (.pioRdData len lane) := by
  intro _
  refine ⟨⟨.pioRdData, 0x1000000000000004, 0xFF00FFFFFFFFFFFC⟩, by simp [opcodeTable], rfl, ?_, ?_⟩
  · exact accepts_mkTd (ml := 0x00#8) (mo := 0xFFFFFFFFFFFC#48) (by rfl) (by rw [lane_and]; simp [mkTd])
  · simp [encode, descriptor, payloadOf, bytesLe_length, payloadLength, Opcode.carriesPayload]

theorem pioWrData (lane : BitVec 2) (payload : List Byte) : Statement (.pioWrData lane payload) := by
  intro h
  refine ⟨⟨.pioWrData, 0x1100000000000004, 0xFF00FFFFFFFFFFFC⟩, by simp [opcodeTable], rfl, ?_, ?_⟩
  · exact accepts_mkTd (ml := 0x00#8) (mo := 0xFFFFFFFFFFFC#48) (by rfl) (by rw [lane_and]; simp [mkTd])
  · simp [encode, descriptor, payloadOf, bytesLe_length, payloadLength, Opcode.carriesPayload, lenOf_mkTd,
      payload_toNat (by simpa [WellFormed] using h)]

theorem pioRdOor (len : BitVec 8) (off : Off) : Statement (.pioRdOor len off) := by
  intro _
  refine ⟨⟨.pioRdOor, 0x1000000000000000, 0xFF00000000000000⟩, by simp [opcodeTable], rfl, ?_, ?_⟩
  · exact accepts_mkTd (ml := 0x00#8) (mo := 0x000000000000#48) (by rfl) (by simp [mkTd])
  · simp [encode, descriptor, payloadOf, bytesLe_length, payloadLength, Opcode.carriesPayload]

theorem pioWrOor (off : Off) (payload : List Byte) : Statement (.pioWrOor off payload) := by
  intro h
  refine ⟨⟨.pioWrOor, 0x1100000000000000, 0xFF00000000000000⟩, by simp [opcodeTable], rfl, ?_, ?_⟩
  · exact accepts_mkTd (ml := 0x00#8) (mo := 0x000000000000#48) (by rfl) (by simp [mkTd])
  · simp [encode, descriptor, payloadOf, bytesLe_length, payloadLength, Opcode.carriesPayload, lenOf_mkTd,
      payload_toNat (by simpa [WellFormed] using (Bool.and_eq_true_iff.1 h).2)]

theorem capRd8 (off : Off) : Statement (.capRd8 off) := by
  intro _
  refine ⟨⟨.capRd8, 0x2001000000000000, 0xFFFF000000000000⟩, by simp [opcodeTable], rfl, ?_, ?_⟩
  · exact accepts_mkTd (ml := 0xFF#8) (mo := 0x000000000000#48) (by rfl) (by simp [mkTd])
  · simp [encode, descriptor, payloadOf, bytesLe_length, payloadLength, Opcode.carriesPayload]

theorem capWr8 (off : Off) (value : Byte) : Statement (.capWr8 off value) := by
  intro _
  refine ⟨⟨.capWr8, 0x2101000000000000, 0xFFFF000000000000⟩, by simp [opcodeTable], rfl, ?_, ?_⟩
  · exact accepts_mkTd (ml := 0xFF#8) (mo := 0x000000000000#48) (by rfl) (by simp [mkTd])
  · simp [encode, descriptor, payloadOf, bytesLe_length, payloadLength, Opcode.carriesPayload, lenOf_mkTd]

theorem tblRd (len : BitVec 8) (off : Off) : Statement (.tblRd len off) := by
  intro _
  refine ⟨⟨.tblRd, 0x3000000000000000, 0xFF00000000000000⟩, by simp [opcodeTable], rfl, ?_, ?_⟩
  · exact accepts_mkTd (ml := 0x00#8) (mo := 0x000000000000#48) (by rfl) (by simp [mkTd])
  · simp [encode, descriptor, payloadOf, bytesLe_length, payloadLength, Opcode.carriesPayload]

theorem tblWr (off : Off) (payload : List Byte) : Statement (.tblWr off payload) := by
  intro h
  refine ⟨⟨.tblWr, 0x3100000000000000, 0xFF00000000000000⟩, by simp [opcodeTable], rfl, ?_, ?_⟩
  · exact accepts_mkTd (ml := 0x00#8) (mo := 0x000000000000#48) (by rfl) (by simp [mkTd])
  · simp [encode, descriptor, payloadOf, bytesLe_length, payloadLength, Opcode.carriesPayload, lenOf_mkTd,
      payload_toNat (by simpa [WellFormed] using h)]

theorem pbaRd (len : BitVec 8) (off : Off) : Statement (.pbaRd len off) := by
  intro _
  refine ⟨⟨.pbaRd, 0x4000000000000000, 0xFF00000000000000⟩, by simp [opcodeTable], rfl, ?_, ?_⟩
  · exact accepts_mkTd (ml := 0x00#8) (mo := 0x000000000000#48) (by rfl) (by simp [mkTd])
  · simp [encode, descriptor, payloadOf, bytesLe_length, payloadLength, Opcode.carriesPayload]

theorem rootCreate (maxBus : BitVec 8) : Statement (.rootCreate maxBus) := by
  intro _
  refine ⟨⟨.rootCreate, 0x8000000000000000, 0xFFFFFFFFFFFFFF00⟩, by simp [opcodeTable], rfl, ?_, ?_⟩
  · exact accepts_mkTd (ml := 0xFF#8) (mo := 0xFFFFFFFFFF00#48) (by rfl) (by rw [byte_and]; rfl)
  · simp [encode, descriptor, payloadOf, bytesLe_length, payloadLength, Opcode.carriesPayload]

theorem rootAddBus (id : BitVec 8) : Statement (.rootAddBus id) := by
  intro _
  refine ⟨⟨.rootAddBus, 0x8100000000000000, 0xFFFFFFFFFFFFFF00⟩, by simp [opcodeTable], rfl, ?_, ?_⟩
  · exact accepts_mkTd (ml := 0xFF#8) (mo := 0xFFFFFFFFFF00#48) (by rfl) (by rw [byte_and]; rfl)
  · simp [encode, descriptor, payloadOf, bytesLe_length, payloadLength, Opcode.carriesPayload]

theorem rootGetBus (id : BitVec 8) : Statement (.rootGetBus id) := by
  intro _
  refine ⟨⟨.rootGetBus, 0x8200000000000000, 0xFFFFFFFFFFFFFF00⟩, by simp [opcodeTable], rfl, ?_, ?_⟩
  · exact accepts_mkTd (ml := 0xFF#8) (mo := 0xFFFFFFFFFF00#48) (by rfl) (by rw [byte_and]; rfl)
  · simp [encode, descriptor, payloadOf, bytesLe_length, payloadLength, Opcode.carriesPayload]

theorem rootActivate : Statement .rootActivate := by
  intro _
  refine ⟨⟨.rootActivate, 0x8300000000000000, 0xFFFFFFFFFFFFFFFF⟩, by simp [opcodeTable], rfl, ?_, ?_⟩
  · exact accepts_mkTd (ml := 0xFF#8) (mo := 0xFFFFFFFFFFFF#48) (by rfl) (by rfl)
  · simp [encode, descriptor, payloadOf, bytesLe_length, payloadLength, Opcode.carriesPayload]

theorem rootResources : Statement .rootResources := by
  intro _
  refine ⟨⟨.rootResources, 0x8400000000000000, 0xFFFFFFFFFFFFFFFF⟩, by simp [opcodeTable], rfl, ?_, ?_⟩
  · exact accepts_mkTd (ml := 0xFF#8) (mo := 0xFFFFFFFFFFFF#48) (by rfl) (by rfl)
  · simp [encode, descriptor, payloadOf, bytesLe_length, payloadLength, Opcode.carriesPayload]

theorem capNew : Statement .capNew := by
  intro _
  refine ⟨⟨.capNew, 0x9000000000000000, 0xFFFFFFFFFFFFFFFF⟩, by simp [opcodeTable], rfl, ?_, ?_⟩
  · exact accepts_mkTd (ml := 0xFF#8) (mo := 0xFFFFFFFFFFFF#48) (by rfl) (by rfl)
  · simp [encode, descriptor, payloadOf, bytesLe_length, payloadLength, Opcode.carriesPayload]

theorem capSetctl (value : U16) : Statement (.capSetctl value) := by
  intro _
  refine ⟨⟨.capSetctl, 0x9100000000000000, 0xFFFFFFFFFFFF0000⟩, by simp [opcodeTable], rfl, ?_, ?_⟩
  · exact accepts_mkTd (ml := 0xFF#8) (mo := 0xFFFFFFFF0000#48) (by rfl) (by rw [half_and]; rfl)
  · simp [encode, descriptor, payloadOf, bytesLe_length, payloadLength, Opcode.carriesPayload]

theorem capQMasked : Statement .capQMasked := by
  intro _
  refine ⟨⟨.capQMasked, 0x9200000000000000, 0xFFFFFFFFFFFFFFFF⟩, by simp [opcodeTable], rfl, ?_, ?_⟩
  · exact accepts_mkTd (ml := 0xFF#8) (mo := 0xFFFFFFFFFFFF#48) (by rfl) (by rfl)
  · simp [encode, descriptor, payloadOf, bytesLe_length, payloadLength, Opcode.carriesPayload]

theorem capQEnabled : Statement .capQEnabled := by
  intro _
  refine ⟨⟨.capQEnabled, 0x9300000000000000, 0xFFFFFFFFFFFFFFFF⟩, by simp [opcodeTable], rfl, ?_, ?_⟩
  · exact accepts_mkTd (ml := 0xFF#8) (mo := 0xFFFFFFFFFFFF#48) (by rfl) (by rfl)
  · simp [encode, descriptor, payloadOf, bytesLe_length, payloadLength, Opcode.carriesPayload]

theorem capQTableOffset : Statement .capQTableOffset := by
  intro _
  refine ⟨⟨.capQTableOffset, 0x9400000000000000, 0xFFFFFFFFFFFFFFFF⟩, by simp [opcodeTable], rfl, ?_, ?_⟩
  · exact accepts_mkTd (ml := 0xFF#8) (mo := 0xFFFFFFFFFFFF#48) (by rfl) (by rfl)
  · simp [encode, descriptor, payloadOf, bytesLe_length, payloadLength, Opcode.carriesPayload]

theorem capQPbaOffset : Statement .capQPbaOffset := by
  intro _
  refine ⟨⟨.capQPbaOffset, 0x9500000000000000, 0xFFFFFFFFFFFFFFFF⟩, by simp [opcodeTable], rfl, ?_, ?_⟩
  · exact accepts_mkTd (ml := 0xFF#8) (mo := 0xFFFFFFFFFFFF#48) (by rfl) (by rfl)
  · simp [encode, descriptor, payloadOf, bytesLe_length, payloadLength, Opcode.carriesPayload]

theorem capQTableBir : Statement .capQTableBir := by
  intro _
  refine ⟨⟨.capQTableBir, 0x9600000000000000, 0xFFFFFFFFFFFFFFFF⟩, by simp [opcodeTable], rfl, ?_, ?_⟩
  · exact accepts_mkTd (ml := 0xFF#8) (mo := 0xFFFFFFFFFFFF#48) (by rfl) (by rfl)
  · simp [encode, descriptor, payloadOf, bytesLe_length, payloadLength, Opcode.carriesPayload]

theorem capQPbaBir : Statement .capQPbaBir := by
  intro _
  refine ⟨⟨.capQPbaBir, 0x9700000000000000, 0xFFFFFFFFFFFFFFFF⟩, by simp [opcodeTable], rfl, ?_, ?_⟩
  · exact accepts_mkTd (ml := 0xFF#8) (mo := 0xFFFFFFFFFFFF#48) (by rfl) (by rfl)
  · simp [encode, descriptor, payloadOf, bytesLe_length, payloadLength, Opcode.carriesPayload]

theorem capQTableSize : Statement .capQTableSize := by
  intro _
  refine ⟨⟨.capQTableSize, 0x9800000000000000, 0xFFFFFFFFFFFFFFFF⟩, by simp [opcodeTable], rfl, ?_, ?_⟩
  · exact accepts_mkTd (ml := 0xFF#8) (mo := 0xFFFFFFFFFFFF#48) (by rfl) (by rfl)
  · simp [encode, descriptor, payloadOf, bytesLe_length, payloadLength, Opcode.carriesPayload]

theorem msxNew (n : U16) : Statement (.msxNew n) := by
  intro _
  refine ⟨⟨.msxNew, 0xA000000000000000, 0xFFFFFFFFFFFF0000⟩, by simp [opcodeTable], rfl, ?_, ?_⟩
  · exact accepts_mkTd (ml := 0xFF#8) (mo := 0xFFFFFFFF0000#48) (by rfl) (by rw [half_and]; rfl)
  · simp [encode, descriptor, payloadOf, bytesLe_length, payloadLength, Opcode.carriesPayload]

theorem msxSetctl (reg : U16) : Statement (.msxSetctl reg) := by
  intro _
  refine ⟨⟨.msxSetctl, 0xA100000000000000, 0xFFFFFFFFFFFF0000⟩, by simp [opcodeTable], rfl, ?_, ?_⟩
  · exact accepts_mkTd (ml := 0xFF#8) (mo := 0xFFFFFFFF0000#48) (by rfl) (by rw [half_and]; rfl)
  · simp [encode, descriptor, payloadOf, bytesLe_length, payloadLength, Opcode.carriesPayload]

theorem msxQEnabled : Statement .msxQEnabled := by
  intro _
  refine ⟨⟨.msxQEnabled, 0xA200000000000000, 0xFFFFFFFFFFFFFFFF⟩, by simp [opcodeTable], rfl, ?_, ?_⟩
  · exact accepts_mkTd (ml := 0xFF#8) (mo := 0xFFFFFFFFFFFF#48) (by rfl) (by rfl)
  · simp [encode, descriptor, payloadOf, bytesLe_length, payloadLength, Opcode.carriesPayload]

theorem msxQMasked : Statement .msxQMasked := by
  intro _
  refine ⟨⟨.msxQMasked, 0xA300000000000000, 0xFFFFFFFFFFFFFFFF⟩, by simp [opcodeTable], rfl, ?_, ?_⟩
  · exact accepts_mkTd (ml := 0xFF#8) (mo := 0xFFFFFFFFFFFF#48) (by rfl) (by rfl)
  · simp [encode, descriptor, payloadOf, bytesLe_length, payloadLength, Opcode.carriesPayload]

end Sys2Proof.Laws.EncodesRow
end

