-- ==== Sys2Proof/Laws/Transition.lean ====
section
/-! SUPPORT. The transition, the table entry a write patches, and the calls both owe, each said once. -/

namespace Sys2Proof.Machine

/-- Everything a transition can do: nothing but storing its record, or all its calls and the new flags, or its calls up to the first
that failed and the old flags. -/
theorem transition_cases (s : State) (f : FnHandle) (fr : FnRec) (m : Msx) (reg : U16) :
    ((m.enabled = newEnabled reg ∧ m.masked = newMasked reg) ∧
      transition s f fr m reg =
        { s with fns := mapPut f fr s.fns, replies := s.replies ++ [⟨s.cur.agent, .done⟩] }) ∨
    (¬(m.enabled = newEnabled reg ∧ m.masked = newMasked reg) ∧ ∃ o', onlyBeDrawn s.oracle o' ∧
      (transition s f fr m reg =
          { s with
            fns := mapPut f { fr with
              log := fr.log ++ allOk (transitionCalls s.params.arch m (newEnabled reg) (newMasked reg)),
              msx := some { m with enabled := newEnabled reg, masked := newMasked reg } } s.fns,
            oracle := o', replies := s.replies ++ [⟨s.cur.agent, .done⟩] } ∨
        ∃ k c e, (transitionCalls s.params.arch m (newEnabled reg) (newMasked reg))[k]? = some c ∧
          transition s f fr m reg =
            { s with
              fns := mapPut f { fr with
                log := fr.log ++ allOk ((transitionCalls s.params.arch m (newEnabled reg) (newMasked reg)).take k) ++
                  [⟨c, .result (.err e)⟩] } s.fns,
              oracle := o', replies := s.replies ++ [⟨s.cur.agent, .error (.ioError e c (fr.log.length + k))⟩] })) := by
  unfold transition
  split
  · rename_i h
    exact .inl ⟨h, rfl⟩
  · rename_i h
    exact .inr ⟨h, finishCalls_cases s f _ fr.log
      { fr with msx := some { m with enabled := newEnabled reg, masked := newMasked reg } } fr⟩

/-- The entry an access addresses, and that the access stays inside it. -/
theorem addressedEntry_some {m : Msx} {off : Off} {len : Nat} {e : Entry} (h : addressedEntry m off len = some e) :
    tableIntra off + len ≤ 16 ∧ m.tbl[tableIndex off]? = some e := by
  unfold addressedEntry at h
  split at h
  · cases h
  · exact ⟨by omega, h⟩

theorem entryImage_maskByte (e : Entry) : (entryImage e)[12]? = some (BitVec.ofNat 8 e.vctl.toNat) := by
  rw [entryImage, List.getElem?_append_right (by simp)]
  simpa using bytesLe_getElem? 4 e.vctl.toNat 0 (by omega)

/-- A store that does not include byte 0xC leaves the per-vector mask alone. -/
theorem maskBit_patchEntry (e : Entry) (j : Nat) (d : List Byte) (h : j + d.length ≤ 16)
    (hn : ¬(j ≤ 12 ∧ 12 < j + d.length)) : maskBit (patchEntry e j d) = maskBit e := by
  have hb : (entryImage (patchEntry e j d))[12]? = (entryImage e)[12]? := by
    rw [entryImage_patchEntry _ _ _ h, overwrite_getElem? _ _ _ _ (by simp; omega), if_neg hn]
  rw [entryImage_maskByte, entryImage_maskByte, Option.some.injEq] at hb
  simpa [maskBit, BitVec.getLsbD] using congrArg (fun b => BitVec.getLsbD b 0) hb

/-- The address and data fields are functions of the first twelve bytes of the image. -/
theorem entry_fields_of_image (e : Entry) :
    e.addrLo = BitVec.ofNat 32 (leValue (((entryImage e).take 12).take 4)) ∧
    e.addrHi = BitVec.ofNat 32 (leValue ((((entryImage e).take 12).drop 4).take 4)) ∧
    e.data = BitVec.ofNat 32 (leValue ((((entryImage e).take 12).drop 8).take 4)) := by
  have h := (entryOfImage_entryImage e).symm
  refine ⟨?_, ?_, ?_⟩
  · conv_lhs => rw [h]
    simp [entryOfImage, List.take_take]
  · conv_lhs => rw [h]
    simp [entryOfImage, List.drop_take, List.take_take]
  · conv_lhs => rw [h]
    simp [entryOfImage, List.drop_take, List.take_take]

/-- A store at byte 0xC or later leaves address and data alone. -/
theorem address_patchEntry (e : Entry) (j : Nat) (d : List Byte) (h : j + d.length ≤ 16) (hj : 12 ≤ j) :
    (patchEntry e j d).addrHi = e.addrHi ∧ (patchEntry e j d).addrLo = e.addrLo ∧ (patchEntry e j d).data = e.data := by
  have ht : (entryImage (patchEntry e j d)).take 12 = (entryImage e).take 12 := by
    rw [entryImage_patchEntry _ _ _ h]
    apply List.ext_getElem?
    intro k
    by_cases hk : k < 12
    · rw [List.getElem?_take_of_lt hk, List.getElem?_take_of_lt hk, overwrite_getElem? _ _ _ _ (by simp; omega),
        if_neg (by omega)]
    · rw [List.getElem?_eq_none (by simp; omega), List.getElem?_eq_none (by simp; omega)]
  obtain ⟨a1, a2, a3⟩ := entry_fields_of_image (patchEntry e j d)
  obtain ⟨b1, b2, b3⟩ := entry_fields_of_image e
  rw [ht] at a1 a2 a3
  exact ⟨a2.trans b2.symm, a1.trans b1.symm, a3.trans b3.symm⟩

theorem patchEntry_nil (e : Entry) (j : Nat) : patchEntry e j [] = e := by
  simp [patchEntry, overwrite, entryOfImage_entryImage]

/-- A vector loop as a filtered list of vectors. -/
theorem vectorLoop_eq (op : Nat → Call) (which : Entry → Bool) (i : Nat) (tbl : List Entry) :
    vectorLoop op which i tbl = ((tbl.zipIdx i).filter fun p => which p.1).map fun p => op p.2 := by
  induction tbl generalizing i with
  | nil => rfl
  | cons e rest ih =>
    simp only [vectorLoop, ih, List.zipIdx_cons, List.filter_cons]
    split <;> simp

/-- The programming loop as one block of calls a vector. -/
theorem programLoop_eq (arch : Arch) (i : Nat) (tbl : List Entry) :
    programLoop arch i tbl = (tbl.zipIdx i).flatMap fun p => programCalls p.2 p.1 ++ deviceIdCalls arch p.2 := by
  induction tbl generalizing i with
  | nil => rfl
  | cons e rest ih => simp [programLoop, ih, List.zipIdx_cons]

end Sys2Proof.Machine
end

