-- ==== Sys2Proof/Laws/View.lean ====
section
/-! SUPPORT. The derived back-end view of a log that grows: by calls that all succeeded, by a failed call, by pending queries; and
what the loops of a transition do to it. -/

namespace Sys2Proof.Machine

theorem beView_append (i : Nat) (log more : List LogEntry) :
    beView i (log ++ more) = more.foldl (viewStep i) (beView i log) := by
  simp [beView]

theorem foldl_viewStep_allOk (i : Nat) (w : BeView) (calls : List Call) :
    (allOk calls).foldl (viewStep i) w = calls.foldl (viewOk i) w := by
  induction calls generalizing w with
  | nil => rfl
  | cons c rest ih =>
    simp only [allOk, List.map_cons, List.foldl_cons] at ih ⊢
    rw [ih]
    rfl

/-- A successful call keeps the view defined. -/
theorem viewOk_valid (i : Nat) (w : BeView) (c : Call) (h : w.valid = true) : (viewOk i w c).valid = true := by
  cases c <;> simp only [viewOk, BeView.unwired] <;> (try split) <;> simp_all

/-- The view is defined while every call has answered `Ok`. -/
theorem beView_allOk_valid (i : Nat) (calls : List Call) : (beView i (allOk calls)).valid = true := by
  suffices h : ∀ w : BeView, w.valid = true → (calls.foldl (viewOk i) w).valid = true by
    rw [beView, foldl_viewStep_allOk]
    exact h _ rfl
  induction calls with
  | nil => exact fun _ h => h
  | cons c rest ih => exact fun w h => ih _ (viewOk_valid i w c h)

/-- After a failed call the view is undefined. -/
theorem beView_failed (i : Nat) (log : List LogEntry) (c : Call) (e : Nat) :
    (beView i (log ++ [⟨c, .result (.err e)⟩])).valid = false := by
  simp [beView_append, viewStep]

/-- Pending queries leave the view alone. -/
theorem beView_queries (i : Nat) (log more : List LogEntry)
    (h : ∀ entry ∈ more, ∃ v b, entry = ⟨.getPendingState v, .pending b⟩) : beView i (log ++ more) = beView i log := by
  rw [beView_append]
  generalize beView i log = w
  induction more with
  | nil => rfl
  | cons entry rest ih =>
    obtain ⟨v, b, rfl⟩ := h entry (by simp)
    exact ih fun x hx => h x (by simp [hx])

/-- The pending queries of one PBA byte only add to the log. -/
theorem pbaBits_log (m : Msx) (k count b : Nat) (log : List LogEntry) (o : Oracle) :
    ∃ more, (pbaBits m k count b log o).log = log ++ more ∧
      ∀ entry ∈ more, ∃ v x, entry = ⟨.getPendingState v, .pending x⟩ := by
  induction count generalizing b log o with
  | zero => exact ⟨[], by simp [pbaBits], by simp⟩
  | succ count ih =>
    unfold pbaBits
    split
    · obtain ⟨more, h1, h2⟩ :=
        ih (b + 1) (log ++ [⟨.getPendingState (8 * k + b), .pending o.drawPending.1⟩]) o.drawPending.2
      refine ⟨⟨.getPendingState (8 * k + b), .pending o.drawPending.1⟩ :: more, by simp [h1], ?_⟩
      intro entry he
      rcases List.mem_cons.1 he with rfl | he
      · exact ⟨_, _, rfl⟩
      · exact h2 entry he
    · exact ih _ _ _

/-- A PBA read adds nothing but pending queries to the log. -/
theorem pbaBytes_log (m : Msx) (n k : Nat) (log : List LogEntry) (o : Oracle) :
    ∃ more, (pbaBytes m n k log o).log = log ++ more ∧
      ∀ entry ∈ more, ∃ v x, entry = ⟨.getPendingState v, .pending x⟩ := by
  induction n generalizing k log o with
  | zero => exact ⟨[], by simp [pbaBytes], by simp⟩
  | succ n ih =>
    obtain ⟨m1, h1, h2⟩ := pbaBits_log m k 8 0 log o
    obtain ⟨m2, h3, h4⟩ := ih (k + 1) (pbaBits m k 8 0 log o).log (pbaBits m k 8 0 log o).oracle
    refine ⟨m1 ++ m2, by rw [← List.append_assoc, ← h1, ← h3]; rfl, ?_⟩
    intro entry he
    rcases List.mem_append.1 he with he | he
    · exact h2 entry he
    · exact h4 entry he

/-- The masks a vector loop sets in the view of vector `i`, while the back-end is on. -/
theorem foldl_vectorLoop_mask (i k : Nat) (w : BeView) (hw : w.on = true) (which : Entry → Bool) (tbl : List Entry) :
    (vectorLoop .mask which k tbl).foldl (viewOk i) w =
      if k ≤ i ∧ (tbl[i - k]?).any which = true then { w with mask := some true } else w := by
  induction tbl generalizing k w with
  | nil => simp [vectorLoop]
  | cons e rest ih =>
    simp only [vectorLoop, List.foldl_append]
    by_cases hk : k = i
    · subst hk
      have hno : ¬(k + 1 ≤ k) := by omega
      cases hwe : which e
      · simp only [Bool.false_eq_true, if_false, List.foldl_nil]
        rw [ih _ _ hw]
        simp [hno, hwe]
      · simp only [if_true, List.foldl_cons, List.foldl_nil]
        rw [show viewOk k w (.mask k) = { w with mask := some true } by simp [viewOk, hw], ih _ _ (by exact hw)]
        simp [hno, hwe]
    · have h1 : (if which e = true then [Call.mask k] else []).foldl (viewOk i) w = w := by split <;> simp [viewOk, hk]
      rw [h1, ih _ _ hw]
      by_cases hlt : k ≤ i
      · have h2 : k + 1 ≤ i := by omega
        simp [hlt, h2, show i - k = (i - (k + 1)) + 1 by omega]
      · have h2 : ¬(k + 1 ≤ i) := by omega
        simp [hlt, h2]

/-- The same for unmasking. -/
theorem foldl_vectorLoop_unmask (i k : Nat) (w : BeView) (hw : w.on = true) (which : Entry → Bool) (tbl : List Entry) :
    (vectorLoop .unmask which k tbl).foldl (viewOk i) w =
      if k ≤ i ∧ (tbl[i - k]?).any which = true then { w with mask := some false } else w := by
  induction tbl generalizing k w with
  | nil => simp [vectorLoop]
  | cons e rest ih =>
    simp only [vectorLoop, List.foldl_append]
    by_cases hk : k = i
    · subst hk
      have hno : ¬(k + 1 ≤ k) := by omega
      cases hwe : which e
      · simp only [Bool.false_eq_true, if_false, List.foldl_nil]
        rw [ih _ _ hw]
        simp [hno, hwe]
      · simp only [if_true, List.foldl_cons, List.foldl_nil]
        rw [show viewOk k w (.unmask k) = { w with mask := some false } by simp [viewOk, hw], ih _ _ (by exact hw)]
        simp [hno, hwe]
    · have h1 : (if which e = true then [Call.unmask k] else []).foldl (viewOk i) w = w := by
        split <;> simp [viewOk, hk]
      rw [h1, ih _ _ hw]
      by_cases hlt : k ≤ i
      · have h2 : k + 1 ≤ i := by omega
        simp [hlt, h2, show i - k = (i - (k + 1)) + 1 by omega]
      · have h2 : ¬(k + 1 ≤ i) := by omega
        simp [hlt, h2]

/-- The programming of one vector in the view of vector `i`. -/
theorem foldl_programCalls (arch : Arch) (i k : Nat) (e : Entry) (w : BeView) :
    (programCalls k e ++ deviceIdCalls arch k).foldl (viewOk i) w =
      if k = i then { w with hi := some e.addrHi, lo := some e.addrLo, data := some e.data } else w := by
  by_cases hk : k = i <;> cases arch <;> simp [programCalls, deviceIdCalls, viewOk, hk]

/-- The programming loop in the view of vector `i`. -/
theorem foldl_programLoop (arch : Arch) (i k : Nat) (w : BeView) (tbl : List Entry) :
    (programLoop arch k tbl).foldl (viewOk i) w =
      if k ≤ i then
        match tbl[i - k]? with
        | some e => { w with hi := some e.addrHi, lo := some e.addrLo, data := some e.data }
        | none => w
      else w := by
  induction tbl generalizing k w with
  | nil => simp [programLoop]
  | cons e rest ih =>
    simp only [programLoop]
    rw [List.foldl_append, foldl_programCalls, ih]
    by_cases hk : k = i
    · subst hk
      simp [show ¬(k + 1 ≤ k) by omega]
    · by_cases hlt : k ≤ i
      · have h2 : k + 1 ≤ i := by omega
        simp [hlt, h2, hk, show i - k = (i - (k + 1)) + 1 by omega]
      · simp [hlt, hk, show ¬(k + 1 ≤ i) by omega]

end Sys2Proof.Machine
end

