-- ==== Sys2Proof/Tests/Slice0.lean ====
section
/-! SUPPORT. Tests of the model and witnesses for the statements. The expected values come from 95_test_vectors.md (named in the
comments) or are worked out by hand from the rules. -/

namespace Sys2Proof.Tests

open Sys2Proof Sys2Proof.Machine

/-! ## Well-formedness: each check has a term it refuses (R93, R97) -/

theorem test_wellFormed_refuses_long_ecam_payload : WellFormed (.ecamWr 0 (fill 256 0)) = false := by decide +kernel
theorem test_wellFormed_refuses_long_address_payload : WellFormed (.pioWrAddr 0 (fill 256 0)) = false := by decide +kernel
theorem test_wellFormed_refuses_long_data_payload : WellFormed (.pioWrData 0 (fill 256 0)) = false := by decide +kernel
theorem test_wellFormed_refuses_long_oor_payload : WellFormed (.pioWrOor 8 (fill 256 0)) = false := by decide +kernel
theorem test_wellFormed_refuses_long_table_payload : WellFormed (.tblWr 0 (fill 256 0)) = false := by decide +kernel
theorem test_wellFormed_refuses_inner_read_offset : WellFormed (.pioRdOor 1 7) = false := by decide
theorem test_wellFormed_refuses_inner_write_offset : WellFormed (.pioWrOor 7 []) = false := by decide

/-! ## Decoding: one descriptor for every transaction (R90 to R103; the words of L2 and L3) -/

/-- L2.2. -/
theorem test_decode_ecam :
    decodeTableWord 64 0x000400000010A010 = some (.ecamRd 4 0x10A010) ∧
    decode [0x04, 0x80, 0x11, 0x00, 0x00, 0x00, 0x02, 0x01, 0x06, 0x00] = .ok (.ecamWr 0x118004 [0x06, 0x00], []) := by
  decide +kernel

/-- L2.3. -/
theorem test_decode_pio :
    decodeTableWord 64 0x1001000000000003 = some (.pioRdAddr 1 3) ∧
    decode [0x02, 0x00, 0x00, 0x00, 0x00, 0x00, 0x02, 0x11, 0xCD, 0xEF] = .ok (.pioWrAddr 2 [0xCD, 0xEF], []) ∧
    decodeTableWord 64 0x1002000000000006 = some (.pioRdData 2 2) ∧
    decode [0x04, 0x00, 0x00, 0x00, 0x00, 0x00, 0x02, 0x11, 0x07, 0x00] = .ok (.pioWrData 0 [0x07, 0x00], []) ∧
    decodeTableWord 64 0x1004000000000008 = some (.pioRdOor 4 8) ∧
    decodeTableWord 64 0x1101800000000001 = some (.pioWrOor 0x800000000001 [0]) := by
  decide +kernel

/-- L2.5. -/
theorem test_decode_cap :
    decodeTableWord 64 0x200100000000000B = some (.capRd8 11) ∧
    decode [0x03, 0x00, 0x00, 0x00, 0x00, 0x00, 0x01, 0x21, 0xC0] = .ok (.capWr8 3 0xC0, []) ∧
    decodeTableWord 64 0x9000000000000000 = some .capNew ∧
    decodeTableWord 64 0x910000000000FFFF = some (.capSetctl 0xFFFF) ∧
    decodeTableWord 64 0x9200000000000000 = some .capQMasked ∧
    decodeTableWord 64 0x9300000000000000 = some .capQEnabled ∧
    decodeTableWord 64 0x9400000000000000 = some .capQTableOffset ∧
    decodeTableWord 64 0x9500000000000000 = some .capQPbaOffset ∧
    decodeTableWord 64 0x9600000000000000 = some .capQTableBir ∧
    decodeTableWord 64 0x9700000000000000 = some .capQPbaBir ∧
    decodeTableWord 64 0x9800000000000000 = some .capQTableSize := by
  decide +kernel

/-- L2.6 to L2.8. -/
theorem test_decode_msx :
    decodeTableWord 64 0x300400000000001E = some (.tblRd 4 0x1E) ∧
    decode [0x0D, 0x00, 0x00, 0x00, 0x00, 0x00, 0x01, 0x31, 0xFF] = .ok (.tblWr 0x0D [0xFF], []) ∧
    decodeTableWord 64 0x4001000000000001 = some (.pbaRd 1 1) ∧
    decodeTableWord 64 0xA000000000000004 = some (.msxNew 4) ∧
    decodeTableWord 64 0xA10000000000BFFF = some (.msxSetctl 0xBFFF) ∧
    decodeTableWord 64 0xA200000000000000 = some .msxQEnabled ∧
    decodeTableWord 64 0xA300000000000000 = some .msxQMasked := by
  decide +kernel

/-- L2.4. -/
theorem test_decode_root :
    decodeTableWord 64 0x80000000000000FF = some (.rootCreate 255) ∧
    decodeTableWord 64 0x8100000000000003 = some (.rootAddBus 3) ∧
    decodeTableWord 64 0x8200000000000004 = some (.rootGetBus 4) ∧
    decodeTableWord 64 0x8300000000000000 = some .rootActivate ∧
    decodeTableWord 64 0x8400000000000000 = some .rootResources := by
  decide +kernel

/-- L2.8, L2.9 and R104: reserved descriptors. -/
theorem test_decode_reserved :
    decodeTableWord 64 0x4101000000000000 = none ∧ decodeTableWord 64 0x2002000000000000 = none ∧
    decodeTableWord 64 0x5000000000000000 = none ∧ decodeTableWord 64 0x8000000000000100 = none ∧
    decodeTableWord 64 0x8301000000000000 = none ∧ decodeTableWord 64 0x9900000000000000 = none := by
  decide +kernel

/-- Bytes that end too early are no transaction. -/
theorem test_decode_short :
    decode [0x04, 0x80, 0x11, 0x00, 0x00, 0x00, 0x02] = .error .shortDescriptor ∧
    decode [0x04, 0x80, 0x11, 0x00, 0x00, 0x00, 0x02, 0x01, 0x06] = .error .shortPayload := by
  decide +kernel

/-! ## States and observers -/

def params : Params := { arch := .x86, extregLsb := .lsb16, capIdValue := 0x11, entryReset := ⟨0, 0, 0, 0⟩ }

/-- A transaction of a guest vCPU on function 3. -/
def guest : Issue :=
  { agent := .vcpu 0, operands := { Operands.blank with fn := 3, bus := 5 }, bytes := [], overlaps := false }

/-- A transaction of the host on function 3. -/
def host : Issue := { guest with agent := .host 0 }

def base : State := { State.reset with params := params, cur := guest }

/-- The root device of L2.2 and L2.3: both windows, two buses. -/
def root : Root :=
  { maxBus := 1, hasPio := true, ioportBase := 0xCF8, hasMmio := true, mmioBase := 0xE0000000, mmioSize := 0x200000,
    resources := [.pio 0xCF8 8, .mmio 0xE0000000 0x200000], ioAddr := 0x80001010, buses := [(1, 9)], activated := false }

def rooted : State := { base with root := some root }

/-- `rooted` with another CONFIG_ADDRESS. -/
def addressed (v : U32) : State := { base with root := some { root with ioAddr := v } }

def asHost (s : State) : State := { s with cur := { s.cur with agent := .host 0 } }

def withOperands (s : State) (o : Operands) : State := { s with cur := { s.cur with operands := o } }

/-- The resource list of a `root.create`. -/
def offering (l : List Resource) : State := withOperands (asHost base) { guest.operands with resources := l }

/-- The back-end answers `l` next. -/
def answering (l : List Answer) (s : State) : State := { s with oracle := { s.oracle with be := l } }

/-- The back-end reports `l` as the next pending states. -/
def pending (l : List Bool) (s : State) : State := { s with oracle := { s.oracle with pend := l } }

/-- The capability of E4: 256 vectors. -/
def capE4 : Cap := { capId := 0x11, capNext := 0, msgCtl := 0x00FF, table := 0x00001001, pba := 0x00100001 }

/-- The setup of L2.6: two entries, the second individually masked. -/
def table2 : List Entry := [⟨0, 0, 0, 0⟩, ⟨0, 0, 0, 1⟩]

def cap2 : Cap := { capE4 with msgCtl := 0x0001 }

def fn2 (enabled masked : Bool) : FnRec := { cap := some cap2, msx := some ⟨enabled, masked, table2⟩, log := [] }

/-- Function 3 of L2.6 with flags `(enabled, masked)` and a back-end that answers `Ok`. -/
def flagged (enabled masked : Bool) : State :=
  answering (List.replicate 16 .ok) { base with fns := [(3, fn2 enabled masked)] }

def withCapOnly (c : Cap) : State := { base with fns := [(3, { cap := some c, msx := none, log := [] })] }

/-- Function 3 with the capability `c` and an MSX of its size. -/
def paired (c : Cap) : State :=
  { base with fns := [(3, { cap := some c, msx := some (newMsx params c.tableSize.toNat), log := [] })] }

/-- A function with an MSX of two vectors and no capability. -/
def msxOnly : State := asHost { base with fns := [(3, { FnRec.empty with msx := some ⟨false, false, table2⟩ })] }

/-- The setup of L2.8: sixteen vectors, of which 0, 9 and 15 are individually masked. -/
def pba16 (enabled : Bool) : State :=
  pending [true, true, false] { base with
    fns := [(3, { FnRec.empty with
      cap := some { capE4 with msgCtl := 0x000F }
      msx := some ⟨enabled, false, (List.range 16).map fun v => ⟨0, 0, 0, if v = 0 ∨ v = 9 ∨ v = 15 then 1 else 0⟩⟩ })] }

/-- The state a transaction leaves, with the marks. -/
def result (i : Instr) (s : State) : State := s.settle (exec i s)

/-- The answer of the last transaction. -/
def answer (s : State) : Option Result := s.replies.getLast?.map Reply.result

def refusal : Exec → Option Refusal
  | .refused r => some r
  | .next _ => none
  | .fault _ => none

def fault : Exec → Option Fault
  | .fault f => some f
  | .next _ => none
  | .refused _ => none

def calls (s : State) : List Call := (ownFn s).log.map LogEntry.call

def flags (s : State) : Option (Bool × Bool) := (ownFn s).msx.map fun m => (m.enabled, m.masked)

def msgCtl (s : State) : Option U16 := (ownFn s).cap.map Cap.msgCtl

def ioAddr (s : State) : Option U32 := s.root.map Root.ioAddr

/-! ## One step of each transaction -/

/-- L2.2 row 1. -/
theorem test_ecamRd_forwards :
    (result (.ecamRd 4 0x10A010) rooted).inflight = [⟨.vcpu 0, 9, ⟨1, 1, 2, 0x010⟩, .read 4⟩] := by decide
/-- L2.2 rows 5 and 7. -/
theorem test_ecamRd_falls_back :
    answer (result (.ecamRd 8 0x100000) rooted) = some (.bytes (fill 8 0xFF)) ∧
    (result (.ecamRd 4 0) rooted).diag = [.noBus] := by decide
/-- L2.2 row 9. -/
theorem test_ecamWr_forwards :
    (result (.ecamWr 0x118004 [6, 0]) rooted).inflight = [⟨.vcpu 0, 9, ⟨1, 3, 0, 0x004⟩, .write [6, 0]⟩] := by decide
/-- L2.2 rows 10 and 11. -/
theorem test_ecamWr_drops_or_is_refused :
    (result (.ecamWr 0x118005 [6, 0]) rooted).diag = [.align] ∧
    refusal (exec (.ecamWr 0 []) { base with root := some { root with hasMmio := false } }) = some .noRange := by decide
/-- L2.3: `pio.rd 3, 1` and `pio.rd 2, 4` from 0x0403_0201. -/
theorem test_pioRdAddr_reads_lanes :
    answer (result (.pioRdAddr 1 3) (addressed 0x04030201)) = some (.bytes [0x04]) ∧
    answer (result (.pioRdAddr 4 2) (addressed 0x04030201)) = some (.bytes (fill 4 0xFF)) := by decide
/-- L2.3: the sequence of writes from 0x1234_5678. -/
theorem test_pioWrAddr_writes_lanes :
    ioAddr (result (.pioWrAddr 1 [0xAB]) (addressed 0x12345678)) = some 0x1234AB78 ∧
    ioAddr (result (.pioWrAddr 2 [0xCD, 0xEF]) (addressed 0x1234AB78)) = some 0xEFCDAB78 ∧
    ioAddr (result (.pioWrAddr 1 [0, 0]) (addressed 0xEFCDAB78)) = some 0xEFCDAB78 := by decide
/-- L2.3, last table, with bus 1 for bus 0. -/
theorem test_pioRdData_forwards :
    (result (.pioRdData 2 2) (addressed 0x80011310)).inflight = [⟨.vcpu 0, 9, ⟨1, 2, 3, 0x112⟩, .read 2⟩] := by decide
/-- L2.3: disabled, misaligned, no bus. -/
theorem test_pioRdData_falls_back :
    (result (.pioRdData 4 0) (addressed 0x00000004)).diag = [.caDisabled] ∧
    (result (.pioRdData 2 1) (addressed 0x80010000)).diag = [.align] ∧
    (result (.pioRdData 4 0) (addressed 0x80000000)).diag = [.noBus] := by decide
/-- L2.3: `pio.wr 4, 2, [07 00]`, with bus 1 for bus 0. -/
theorem test_pioWrData_forwards :
    (result (.pioWrData 0 [7, 0]) (addressed 0x80010004)).inflight = [⟨.vcpu 0, 9, ⟨1, 0, 0, 0x104⟩, .write [7, 0]⟩] := by decide
/-- L2.3: no PIO path on AARCH64. -/
theorem test_pioWrData_needs_x86 :
    refusal (exec (.pioWrData 0 [7, 0]) { rooted with params := { params with arch := .aarch64 } }) = some .noRange := by decide
/-- L2.3: `pio.rd 8, 4`. -/
theorem test_pioRdOor_reads_ones : answer (result (.pioRdOor 4 8) rooted) = some (.bytes (fill 4 0xFF)) := by decide
/-- R133. -/
theorem test_pioWrOor_drops :
    (result (.pioWrOor 9 [1]) rooted).diag = [.offset] ∧ ioAddr (result (.pioWrOor 9 [1]) rooted) = some 0x80001010 := by decide
/-- L2.4 row 1 and E8. -/
theorem test_rootCreate_builds :
    (result (.rootCreate 255) (offering [.pio 0xCF8 8])).root.map (fun r => (r.hasMmio, r.mmioSize, r.ioportBase, r.ioAddr)) =
      some (false, 0, 0xCF8, 0) ∧
    answer (result (.rootCreate 1) (offering [.mmio 0xE0000000 0x100000])) = some (.error .noResources) := by decide
/-- L2.4: the limits of the resource list. -/
theorem test_rootCreate_limits :
    answer (result (.rootCreate 0) (offering [.pio 0xCF8 8, .pio 0x100 8])) = some (.error .noResources) ∧
    answer (result (.rootCreate 0) (offering [.pio 0xCF8 4])) = some (.error .noResources) ∧
    answer (result (.rootCreate 0) (offering [])) = some (.error .noResources) ∧
    refusal (exec (.rootCreate 0) (asHost rooted)) = some .twice := by decide
/-- L2.4: a bus is registered, and one above MAX_BUS is not. -/
theorem test_rootAddBus_registers :
    (result (.rootAddBus 0) (asHost rooted)).root.map Root.buses = some [(0, 5), (1, 9)] ∧
    answer (result (.rootAddBus 2) (asHost rooted)) = some (.error .invalidBusId) := by decide
/-- L2.4: after activation. -/
theorem test_rootAddBus_after_activation :
    refusal (exec (.rootAddBus 0) (asHost { base with root := some { root with activated := true } })) = some .afterActivate := by
  decide
/-- L2.4. -/
theorem test_rootGetBus_looks_up :
    answer (result (.rootGetBus 1) (asHost rooted)) = some (.bus (some 9)) ∧
    answer (result (.rootGetBus 0) (asHost rooted)) = some (.bus none) ∧
    answer (result (.rootGetBus 4) (asHost rooted)) = some (.bus none) := by decide
/-- L2.4: the second registration fails. -/
theorem test_rootActivate_cancels :
    (fun t : State => (answer t, t.root.map Root.activated, t.mgrLog.map MgrEntry.call))
        (result .rootActivate { asHost rooted with oracle := { Oracle.blank with mgr := [.ok, .err 5] } }) =
      (some (.error (.activateFailed 5)), some false,
        [.beginTx, .registerDeviceIo (.pio 0xCF8 8), .registerDeviceIo (.mmio 0xE0000000 0x200000), .cancelTx]) := by decide
/-- L2.4: every call `Ok`; off x86 the same calls, and no port (R127). -/
theorem test_rootActivate_commits :
    (fun t : State => (t.root.map Root.activated, routedRanges .x86 t.mgrLog))
        (result .rootActivate { asHost rooted with oracle := { Oracle.blank with mgr := [.ok, .ok, .ok] } }) =
      (some true, [.pio 0xCF8 8, .mmio 0xE0000000 0x200000]) ∧
    (fun t : State => (t.mgrLog.map MgrEntry.call, routedRanges .aarch64 t.mgrLog))
        (result .rootActivate { asHost rooted with
          params := { params with arch := .aarch64 }, oracle := { Oracle.blank with mgr := [.ok, .ok, .ok] } }) =
      ([.beginTx, .registerDeviceIo (.pio 0xCF8 8), .registerDeviceIo (.mmio 0xE0000000 0x200000), .commitTx],
        [.mmio 0xE0000000 0x200000]) := by decide
/-- R164. -/
theorem test_rootResources_reports :
    answer (result .rootResources (asHost rooted)) = some (.resources [.pio 0xCF8 8, .mmio 0xE0000000 0x200000]) := by decide
/-- E4: construction. -/
theorem test_capNew_builds :
    ((ownFn (result .capNew (withOperands (asHost base)
      ⟨3, 0, [], 1, 256, 0x1000, 1, 0x100000⟩))).cap.map Cap.image) =
      some [0x11, 0x00, 0xFF, 0x00, 0x01, 0x10, 0x00, 0x00, 0x01, 0x00, 0x10, 0x00] := by decide
/-- L2.5: the sizes 0 and 2048; beside an MSX of two vectors a capability of two is built, one of eight refused (R43). -/
theorem test_capNew_limits :
    refusal (exec .capNew (withOperands (asHost base) ⟨3, 0, [], 0, 0, 0, 0, 0⟩)) = some .tableSize ∧
    fault (exec .capNew (withOperands (asHost base) ⟨3, 0, [], 0, 2048, 0, 0, 0⟩)) = some .tableSize ∧
    msgCtl (result .capNew (withOperands msxOnly ⟨3, 0, [], 0, 2, 0, 0, 0⟩)) = some 1 ∧
    refusal (exec .capNew (withOperands msxOnly ⟨3, 0, [], 0, 8, 0, 0, 0⟩)) = some .tableSize := by decide
/-- L2.5: `cap.rd8 f, 2` and `cap.rd8 f, 12`. -/
theorem test_capRd8_reads_image :
    answer (result (.capRd8 2) (paired capE4)) = some (.bytes [0xFF]) ∧
    answer (result (.capRd8 11) (paired capE4)) = some (.bytes [0x00]) ∧
    answer (result (.capRd8 12) (paired capE4)) = some (.bytes [0xFF]) := by decide
/-- R267 `RF_CONCURRENT`. -/
theorem test_capRd8_overlapping :
    refusal (exec (.capRd8 2) { paired capE4 with cur := { guest with overlaps := true } }) = some .concurrent := by decide
/-- L2.5: `cap.wr8 f, 3, 0x40`; L2.5 for offset 2. -/
theorem test_capWr8_writes_control :
    (fun t => (msgCtl t, flags t, calls t)) (result (.capWr8 3 0x40) (flagged false false)) =
      (some 0x4001, some (false, true), []) ∧
    msgCtl (result (.capWr8 2 0) (flagged false false)) = some 0x0001 := by decide
/-- L2.9, last row: the back-end fails `enable`, the ninth call with two vectors. -/
theorem test_capWr8_diverges :
    (fun t => (answer t, msgCtl t, flags t))
        (result (.capWr8 3 0x80) (answering (List.replicate 8 .ok ++ [.err 4]) (flagged false false))) =
      (some (.error (.ioError 4 .enable 8)), some 0x8001, some (false, false)) := by decide
/-- E4: the control write. -/
theorem test_capSetctl_keeps_low_bits :
    msgCtl (result (.capSetctl 0xC3FF) (asHost (paired capE4))) = some 0xC0FF ∧
    flags (result (.capSetctl 0xC3FF) (asHost (flagged false false))) = some (false, false) := by decide
/-- E4: after the control write. -/
theorem test_capQMasked : answer (result .capQMasked (asHost (paired { capE4 with msgCtl := 0x40FF }))) = some (.bool true) := by
  decide
theorem test_capQEnabled :
    answer (result .capQEnabled (asHost (paired { capE4 with msgCtl := 0x40FF }))) = some (.bool false) := by decide
theorem test_capQTableOffset : answer (result .capQTableOffset (asHost (paired capE4))) = some (.u32 0x1000) := by decide
theorem test_capQPbaOffset : answer (result .capQPbaOffset (asHost (paired capE4))) = some (.u32 0x100000) := by decide
theorem test_capQTableBir : answer (result .capQTableBir (asHost (paired { capE4 with table := 0x1005 }))) = some (.u32 5) := by
  decide
/-- L2.5: BIR operand 15 is stored as 7. -/
theorem test_capQPbaBir :
    answer (result .capQPbaBir (asHost (paired { capE4 with pba := packOffset 0xFFFFFFFF 15 }))) = some (.u32 7) := by decide
theorem test_capQTableSize :
    answer (result .capQTableSize (asHost (paired { capE4 with msgCtl := 0xC7FE }))) = some (.u16 2047) := by decide
/-- L2.9: another size than the capability's; P3 step 2. -/
theorem test_msxNew :
    refusal (exec (.msxNew 8) (asHost (withCapOnly { capE4 with msgCtl := 3 }))) = some .tableSize ∧
    flags (result (.msxNew 4) (asHost (withCapOnly { capE4 with msgCtl := 3 }))) = some (false, false) := by decide
/-- L2.6, rows (F, F) to 0x8000 and to 0xC000. -/
theorem test_msxSetctl_enables :
    calls (result (.msxSetctl 0xC000) (asHost (flagged false false))) =
      [.reset, .setWorkingMode .pciMsix, .setMsiHighAddress 0 0, .setMsiLowAddress 0 0, .setMsiData 0 0,
        .setMsiHighAddress 1 0, .setMsiLowAddress 1 0, .setMsiData 1 0, .enable, .mask 0, .mask 1] ∧
    (calls (result (.msxSetctl 0x8000) (asHost (flagged false false)))).drop 8 = [.enable, .mask 1] := by decide
/-- L2.6, the rows from an enabled function. -/
theorem test_msxSetctl_toggles :
    calls (result (.msxSetctl 0xC000) (asHost (flagged true false))) = [.mask 0] ∧
    calls (result (.msxSetctl 0x8000) (asHost (flagged true true))) = [.unmask 0] ∧
    calls (result (.msxSetctl 0x4000) (asHost (flagged true true))) = [.reset] ∧
    flags (result (.msxSetctl 0x4000) (asHost (flagged true true))) = some (false, true) ∧
    calls (result (.msxSetctl 0xBFFF) (asHost (flagged true false))) = [] := by decide
theorem test_msxQEnabled : answer (result .msxQEnabled (asHost (flagged true false))) = some (.bool true) := by decide
theorem test_msxQMasked : answer (result .msxQMasked (asHost (flagged true false))) = some (.bool false) := by decide
/-- L2.7, the invalid accesses and an inner read; L2.9, no MSX. -/
theorem test_tblRd :
    answer (result (.tblRd 4 0x20) (flagged false false)) = some (.bytes (fill 4 0xFF)) ∧
    answer (result (.tblRd 4 0x1E) (flagged false false)) = some (.bytes (fill 4 0xFF)) ∧
    answer (result (.tblRd 5 0x1B) (flagged false false)) = some (.bytes [0, 1, 0, 0, 0]) ∧
    refusal (exec (.tblRd 4 0) (withCapOnly capE4)) = some .noFn := by decide
/-- L2.7: the write of eight bytes at 8 and its calls. -/
theorem test_tblWr_reprograms :
    (fun t => (calls t, answer (result (.tblRd 8 8) t)))
        (result (.tblWr 8 [0x41, 0, 0, 0, 1, 0, 0, 0]) (flagged true false)) =
      ([.setMsiHighAddress 0 0, .setMsiLowAddress 0 0, .setMsiData 0 0x41, .update 0, .mask 0],
        some (.bytes [0x41, 0, 0, 0, 1, 0, 0, 0])) := by decide
/-- L2.7: the failing `update`; a write at byte 0xC while function-masked. -/
theorem test_tblWr_keeps_bytes :
    answer (result (.tblRd 4 0) (result (.tblWr 0 [0, 0x10, 0xE0, 0xFE])
      (answering [.ok, .ok, .ok, .err 4] (flagged true false)))) = some (.bytes [0, 0x10, 0xE0, 0xFE]) ∧
    calls (result (.tblWr 0x0C [0]) (flagged true true)) = [] := by decide
/-- L2.8, rows 1 and 2. -/
theorem test_pbaRd_queries :
    (fun t => (answer t, calls t)) (result (.pbaRd 2 0) (pba16 true)) =
      (some (.bytes [0x01, 0x02]), [.getPendingState 0, .getPendingState 9, .getPendingState 15]) := by decide +kernel
/-- L2.8, rows 3 and 5. -/
theorem test_pbaRd_without_queries :
    answer (result (.pbaRd 1 2) (pba16 true)) = some (.bytes [0]) ∧ calls (result (.pbaRd 1 2) (pba16 true)) = [] ∧
    answer (result (.pbaRd 2 0) (pba16 false)) = some (.bytes [0, 0]) := by decide +kernel

/-! ## Steps -/

/-- A state whose next event is `slot`. -/
def queued (slot : Slot) (s : State) : State := { s with queue := [slot] }

/-- An access of vCPU 0 in flight. -/
def flying (acc : Access) : State := { rooted with inflight := [⟨.vcpu 0, 9, ⟨1, 1, 2, 0x010⟩, acc⟩] }

/-- P2 step 6: the second step returns what the bus answers. -/
theorem test_forward_returns_bytes :
    (fun t : State => (answer t, t.busLog, t.inflight))
        ((queued (.forward (.vcpu 0)) { flying (.read 4) with oracle := { Oracle.blank with bus := [6, 0, 0, 0] } }).after) =
      (some (.bytes [6, 0, 0, 0]), [.read 9 ⟨1, 1, 2, 0x010⟩ 4 [6, 0, 0, 0]], []) := by decide

/-- Log 9: before `root.create` there is no lock to poison. -/
theorem test_panic_needs_root :
    (queued .panic base).after.poisoned = false ∧ (queued .panic rooted).after.poisoned = true := by decide

/-- L2.3: the word of `pio.wr 0, 4` placed as the next transaction, its payload zeros. -/
theorem test_fetch_word_runs :
    ioAddr ((rooted.withFetchWord 64 0x1104000000000000).after) = some 0 := by decide +kernel

/-- R91: the host issues a TGT 0x8 transaction. -/
theorem test_fetch_word_creates_root :
    ((State.reset.withFetchWord 64 0x8000000000000000).after.root.map Root.ioportBase) = some 0xCF8 := by decide +kernel

/-! ## Witnesses: states and operands that meet the hypotheses of each statement, clause by clause -/

theorem witness_DecodeInvertsEncode :
    WellFormed (.ecamWr 0xFFFFFFFFFFFF (fill 255 0)) = true ∧ WellFormed (.pioRdOor 255 8) = true ∧
    WellFormed (.pioWrOor 8 []) = true := by decide +kernel

theorem witness_DecoderSelectsTableRow :
    (∀ r ∈ opcodeTable, r.accepts 0x5000000000000000 = false) ∧
    (⟨.pioRdOor, 0x1000000000000000, 0xFF00000000000000⟩ : TableRow) ∈ opcodeTable ∧
    (⟨.pioRdData, 0x1000000000000004, 0xFF00FFFFFFFFFFFC⟩ : TableRow) ∈ opcodeTable ∧
    (⟨.pioRdOor, 0x1000000000000000, 0xFF00000000000000⟩ : TableRow).accepts 0x1001000000000007 = true ∧
    (⟨.pioRdData, 0x1000000000000004, 0xFF00FFFFFFFFFFFC⟩ : TableRow).accepts 0x1001000000000007 = true ∧
    onesIn 0xFF00000000000000 ≤ onesIn 0xFF00FFFFFFFFFFFC := by decide +kernel

/-- One descriptor for each clause of R104, at the edge of its range, and the state that issues `pba.wr`. -/
theorem witness_ReservedDescriptorsAreRefused :
    reservedTd 0x5000000000000000 ∧ reservedTd 0xB000000000000000 ∧ reservedTd 0x3200000000000000 ∧ reservedTd 0x4101000000000000 ∧
    reservedTd 0x9900000000000000 ∧ reservedTd 0x2002000000000000 ∧ reservedTd 0x8000000000000100 ∧
    (queued (.issue { guest with bytes := bytesLe 8 0x4101000000000000 ++ [7] }) base).queue =
      [.issue { guest with bytes := bytesLe 8 (0x4101000000000000 : U64).toNat ++ [7] }] ∧
    accessOf guest.agent base.inflight = none ∧ base.faulted = false ∧ base.refused = false := by
  refine ⟨?_, ?_, ?_, ?_, ?_, ?_, ?_, by decide +kernel⟩ <;> (unfold reservedTd; decide +kernel)

theorem witness_StepRunsDecodedTransaction :
    rooted.faulted = false ∧ rooted.refused = false ∧ accessOf (.vcpu 0) rooted.inflight = none ∧
    decode [0x02, 0x00, 0x00, 0x00, 0x00, 0x00, 0x02, 0x11, 0xCD, 0xEF, 0x99] = .ok (.pioWrAddr 2 [0xCD, 0xEF], [0x99]) ∧
    WellFormed (.pioWrAddr 2 [0xCD, 0xEF]) = true := by decide +kernel

/-- A read whose answer the tape just holds, and a write. -/
theorem witness_ForwardedAccessSecondStep :
    (accessOf (.vcpu 0) (flying (.read 4)).inflight).map Forward.access = some (.read 4) ∧
    4 ≤ { Oracle.blank with bus := [6, 0, 0, 0] }.bus.length ∧
    (accessOf (.vcpu 0) (flying (.write [1])).inflight).map Forward.access = some (.write [1]) ∧
    (queued (.forward (.vcpu 0)) (flying (.read 4))).queue = [.forward (.vcpu 0)] ∧
    (flying (.read 4)).faulted = false ∧ (flying (.read 4)).refused = false := by decide

theorem witness_AgentFinishesItsAccessFirst :
    accessOf guest.agent (flying (.read 4)).inflight = some ⟨.vcpu 0, 9, ⟨1, 1, 2, 0x010⟩, .read 4⟩ ∧
    (queued (.issue guest) (flying (.read 4))).queue = [.issue guest] ∧ (flying (.read 4)).queue = [] ∧
    (flying (.read 4)).faulted = false ∧ (flying (.read 4)).refused = false := by decide

/-- A poisoned lock that is taken, and bytes that are no transaction, each as the next event. -/
theorem witness_MarksAreNeverCleared :
    fault (step (queued (.issue { host with bytes := bytesLe 8 0x8200000000000001 }) rooted.poison)) = some .lockPoisoned ∧
    refusal (step (queued (.issue { guest with bytes := [0] }) rooted)) = some .truncated ∧
    rooted.markFaulted.faulted = true ∧ rooted.markRefused.refused = true ∧ rooted.markRefused.faulted = false := by decide +kernel

theorem witness_RootTransactionsNeedRoot :
    (asHost base).root = none ∧ fromHost (asHost base) = true ∧ isPioInstr (.pioWrOor 8 []) :=
  ⟨rfl, rfl, .inr (.inr (.inr (.inr (.inr ⟨8, [], rfl⟩))))⟩

/-- The window of just `(max_bus_id + 1) * 2^20` bytes is accepted, one byte less is not. -/
theorem witness_RootCreateBuildsOrRaises :
    (asHost rooted).root = some root ∧ (offering []).root = none ∧ fromHost (offering []) = true ∧
    acceptable 1 [.mmio 0xE0000000 0x200000] ∧ ¬ acceptable 1 [.mmio 0xE0000000 0x1FFFFF] ∧ acceptable 255 [.pio 0xCF8 8, .other 1 5] ∧
    ¬ acceptable 0 [] := by
  refine ⟨by decide, by decide, by decide, ?_, ?_, ?_, ?_⟩ <;> (simp [acceptable, asPio, asMmio] <;> decide)

theorem witness_EcamAccessForwardsOrFallsBack :
    rooted.root = some root ∧ root.hasMmio = true ∧ { root with hasMmio := false }.hasMmio = false ∧
    ¬ aligned (Access.read 8).length 0x100000 ∧ aligned (Access.read 4).length 0 ∧ aligned (Access.write [1]).length 0x1FFFFF ∧
    mapGet (0x100000 / 2 ^ 20 % 2 ^ 8) root.buses = some 9 ∧ mapGet (0x0FFFFF / 2 ^ 20 % 2 ^ 8) root.buses = none ∧
    rooted.poisoned = false := by
  refine ⟨by decide, by decide, by decide, ?_, ?_, ?_, by decide, by decide, by decide⟩ <;> (unfold aligned; decide)

theorem witness_PioNeedsRangeAndX86 :
    rooted.root = some root ∧ isPioInstr (.pioRdAddr 4 0) ∧ { params with arch := .aarch64 }.arch ≠ .x86 ∧
    { root with hasPio := false }.hasPio = false :=
  ⟨rfl, .inl ⟨4, 0, rfl⟩, by decide, rfl⟩

/-- For the statements about CONFIG_ADDRESS, CONFIG_DATA and the offsets outside the window. -/
theorem witness_ConfigAddressRead :
    rooted.root = some root ∧ rooted.params.arch = .x86 ∧ root.hasPio = true ∧ rooted.poisoned = false ∧
    aligned (1 : BitVec 8).toNat (3 : BitVec 2).toNat ∧ ¬ aligned (4 : BitVec 8).toNat (2 : BitVec 2).toNat := by
  refine ⟨by decide, by decide, by decide, by decide, ?_, ?_⟩ <;> (unfold aligned; decide)

theorem witness_ConfigAddressWrite :
    rooted.root = some root ∧ rooted.params.arch = .x86 ∧ root.hasPio = true ∧ rooted.poisoned = false ∧
    aligned [0xCD, 0xEF].length (2 : BitVec 2).toNat ∧ ¬ aligned ([] : List Byte).length (0 : BitVec 2).toNat := by
  refine ⟨by decide, by decide, by decide, by decide, ?_, ?_⟩ <;> (unfold aligned; decide)

theorem witness_HalfWordWritesCompose :
    rooted.root = some root ∧ rooted.params.arch = .x86 ∧ root.hasPio = true ∧ rooted.poisoned = false := by decide

/-- The four clauses: misaligned; disabled at the largest such value; enabled with a bus that is not and one that is registered. -/
theorem witness_ConfigDataForwardsOrFallsBack :
    (addressed 0x7FFFFFFF).root = some { root with ioAddr := 0x7FFFFFFF } ∧ rooted.params.arch = .x86 ∧ root.hasPio = true ∧
    rooted.poisoned = false ∧ ¬ aligned (Access.read 2).length (4 + (1 : BitVec 2).toNat) ∧
    aligned (Access.read 1).length (4 + (3 : BitVec 2).toNat) ∧ (0x7FFFFFFF : U32).toNat < 2 ^ 31 ∧ 2 ^ 31 ≤ (0x80000000 : U32).toNat ∧
    mapGet ((0x80000000 : U32).toNat / 2 ^ 16 % 2 ^ 8) root.buses = none ∧
    mapGet ((0x80010000 : U32).toNat / 2 ^ 16 % 2 ^ 8) root.buses = some 9 := by
  refine ⟨by decide, by decide, by decide, by decide, ?_, ?_, by decide⟩ <;> (unfold aligned; decide)

theorem witness_OutOfWindowFallsBack :
    rooted.root = some root ∧ rooted.params.arch = .x86 ∧ root.hasPio = true ∧ 8 ≤ (8 : Off).toNat := by decide

theorem witness_PioConfigReadReachesTarget :
    rooted.root = some root ∧ rooted.params.arch = .x86 ∧ root.hasPio = true ∧ rooted.poisoned = false ∧
    aligned (2 : BitVec 8).toNat ((0xFE : BitVec 8).toNat % 4) ∧ mapGet (1 : BitVec 8).toNat root.buses = some 9 := by
  refine ⟨by decide, by decide, by decide, by decide, ?_, by decide⟩
  unfold aligned; decide

/-- P5 with bus 1 for bus 0. -/
theorem witness_ConfigAddressIsShared :
    rooted.root = some root ∧ rooted.params.arch = .x86 ∧ root.hasPio = true ∧ rooted.poisoned = false ∧
    guest.agent ≠ { guest with agent := .vcpu 1 }.agent ∧ aligned (4 : BitVec 8).toNat (4 + (0 : BitVec 2).toNat) ∧
    2 ^ 31 ≤ (0x80010800 : U32).toNat ∧ mapGet ((0x80010800 : U32).toNat / 2 ^ 16 % 2 ^ 8) root.buses = some 9 := by
  refine ⟨by decide, by decide, by decide, by decide, by decide, ?_, by decide⟩
  unfold aligned; decide

/-- Every transaction that takes the lock, on its own aligned access; a panic with a ROOT, which poisons its lock, and one without. -/
theorem witness_PoisonedLockFaults :
    (asHost rooted.poison).root = some root ∧ (asHost rooted.poison).poisoned = true ∧ root.hasMmio = true ∧ root.hasPio = true ∧
    rooted.params.arch = .x86 ∧ aligned (4 : BitVec 8).toNat (0x10A010 : Off).toNat ∧ aligned [1].length (0x10A011 : Off).toNat ∧
    aligned (2 : BitVec 8).toNat (2 : BitVec 2).toNat ∧ aligned [1].length (3 : BitVec 2).toNat ∧
    aligned (4 : BitVec 8).toNat (4 + (0 : BitVec 2).toNat) ∧ aligned [6, 0].length (4 + (2 : BitVec 2).toNat) ∧
    fromHost (asHost rooted.poison) = true ∧ root.activated = false ∧ (1 : BitVec 8).toNat ≤ root.maxBus.toNat ∧
    exec (.pioRdOor 1 8) rooted = .next (result (.pioRdOor 1 8) rooted) ∧
    step (queued .panic rooted) = .next (queued .panic rooted).after ∧ (queued .panic rooted).root = some root ∧
    (queued .panic rooted).poisoned = false ∧ (queued .panic rooted).after.poisoned = true ∧ (queued .panic base).root = none := by
  refine ⟨by decide, by decide, by decide, by decide, by decide, ?_, ?_, ?_, ?_, ?_, ?_, by decide, by decide, by decide, rfl, rfl,
    by decide, by decide, by decide, by decide⟩ <;> (unfold aligned; decide)

/-- The ids MAX_BUS and MAX_BUS + 1. -/
theorem witness_AddBusRegisters :
    (asHost rooted).root = some root ∧ fromHost (asHost rooted) = true ∧ { root with activated := true }.activated = true ∧
    root.activated = false ∧ root.maxBus.toNat < (2 : BitVec 8).toNat ∧ (1 : BitVec 8).toNat ≤ root.maxBus.toNat ∧
    rooted.poisoned = false := by decide

theorem witness_GetBusLooksUp :
    (asHost rooted).root = some root ∧ fromHost (asHost rooted) = true ∧ rooted.poisoned = false := by decide

theorem witness_ActivationIsAllOrNothing :
    (asHost rooted).root = some root ∧ fromHost (asHost rooted) = true ∧ { root with activated := true }.activated = true ∧
    root.activated = false ∧ { Oracle.blank with mgr := [.ok, .ok, .ok] }.mgr = .ok :: .ok :: .ok :: [] := by decide

theorem witness_ResourcesAreReported : (asHost rooted).root = some root ∧ fromHost (asHost rooted) = true := by decide

/-- A function with a capability, one with none, and one with an MSX alone, of the size and of another; the sizes 0, 1, 2047 and 2048. -/
theorem witness_CapNewConstructs :
    fromHost (asHost base) = true ∧ (asHost base).cur.overlaps = false ∧ (ownFn (withCapOnly capE4)).cap = some capE4 ∧
    (ownFn base).cap = none ∧ (ownFn base).msx = none ∧ (0 : U16).toNat = 0 ∧ 1 ≤ (1 : U16).toNat ∧ (2047 : U16).toNat < 2048 ∧
    2048 ≤ (2048 : U16).toNat ∧ fromHost msxOnly = true ∧ msxOnly.cur.overlaps = false ∧ (ownFn msxOnly).cap = none ∧
    (ownFn msxOnly).msx = some ⟨false, false, table2⟩ ∧ table2.length = (2 : U16).toNat ∧ table2.length ≠ (1 : U16).toNat := by decide

/-- `msx.new f, 2` beside a capability of two vectors as the next event. -/
def pairing : State := queued (.issue { host with bytes := bytesLe 8 0xA000000000000002 }) (withCapOnly cap2)

theorem witness_TableSizesStayAgreed :
    step pairing = .next pairing.after ∧ sizesAgree (pairing.fnRec 3) = true ∧
    (pairing.after.fnRec 3).msx = some ⟨false, false, List.replicate 2 ⟨0, 0, 0, 0⟩⟩ :=
  ⟨rfl, by decide, by decide +kernel⟩

theorem witness_CapByteRead :
    guest.overlaps = false ∧ (ownFn (flagged false false)).cap = some cap2 ∧ (ownFn (flagged false false)).msx ≠ none := by decide

theorem witness_CapByteWrite :
    guest.overlaps = false ∧ (ownFn (flagged false false)).cap = some cap2 ∧ (2 : Off).toNat ≠ 3 ∧ (4 : Off).toNat ≠ 3 ∧
    (ownFn (withCapOnly capE4)).cap = some capE4 ∧ (ownFn (withCapOnly capE4)).msx = none ∧
    (ownFn (flagged false false)).msx = some ⟨false, false, table2⟩ := by decide

theorem witness_CapSetctlWritesControlBits :
    fromHost (asHost (flagged false false)) = true ∧ (asHost (flagged false false)).cur.overlaps = false ∧
    (ownFn (asHost (flagged false false))).cap = some cap2 ∧ (ownFn (asHost (flagged false false))).msx ≠ none := by decide

theorem witness_CapQueriesReturnFields :
    fromHost (asHost (flagged false false)) = true ∧ (asHost (flagged false false)).cur.overlaps = false ∧
    (ownFn (asHost (flagged false false))).cap = some cap2 ∧ (ownFn (asHost (flagged false false))).msx ≠ none := by decide

theorem witness_OnlyControlBitsChange :
    step (flagged true false) = .next (flagged true false).after ∧ ((flagged true false).fnRec 3).cap = some cap2 :=
  ⟨rfl, by decide⟩

/-- The sizes 0, 1, 2047 and 2048, an MSX that exists, and a capability of another size. -/
theorem witness_MsxNewConstructs :
    fromHost (asHost base) = true ∧ base.cur.overlaps = false ∧ (ownFn (flagged false false)).msx = some ⟨false, false, table2⟩ ∧
    (ownFn base).msx = none ∧ (0 : U16).toNat = 0 ∧ 2048 ≤ (2048 : U16).toNat ∧ 1 ≤ (1 : U16).toNat ∧ (2047 : U16).toNat < 2048 ∧
    (ownFn base).cap = none ∧ (ownFn (withCapOnly capE4)).cap = some capE4 ∧ (ownFn (withCapOnly capE4)).msx = none ∧
    (255 : U16).toNat ≠ capE4.msgCtl.toNat % 2 ^ 11 + 1 ∧ (256 : U16).toNat = capE4.msgCtl.toNat % 2 ^ 11 + 1 := by decide

theorem witness_FlagQueriesReturnFlags :
    fromHost (asHost (flagged true false)) = true ∧ (asHost (flagged true false)).cur.overlaps = false ∧
    (ownFn (asHost (flagged true false))).msx = some ⟨true, false, table2⟩ ∧ (ownFn (asHost (flagged true false))).cap ≠ none := by
  decide

/-- No flag change; all calls `Ok`; a failure at the ninth call. -/
theorem witness_TransitionIssuesOwedCalls :
    fromHost (asHost (flagged false false)) = true ∧ (asHost (flagged false false)).cur.overlaps = false ∧
    (ownFn (asHost (flagged false false))).msx = some ⟨false, false, table2⟩ ∧ (ownFn (asHost (flagged false false))).cap ≠ none ∧
    (false = enableBit 0x3FFF ∧ false = functionMaskBit 0x3FFF) ∧ ¬(false = enableBit 0x8000 ∧ false = functionMaskBit 0x8000) ∧
    (flagged false false).oracle.be =
      List.replicate (owedByTransition .x86 ⟨false, false, table2⟩ 0x8000).length .ok ++ List.replicate 6 .ok ∧
    (owedByTransition .x86 ⟨false, false, table2⟩ 0x8000)[8]? = some .enable ∧
    (answering (List.replicate 8 .ok ++ .err 4 :: []) (flagged false false)).oracle.be = List.replicate 8 .ok ++ .err 4 :: [] := by
  decide

theorem witness_ControlWriteBringsAgreement :
    exec (.capWr8 3 0x80) (flagged false false) = .next (result (.capWr8 3 0x80) (flagged false false)) ∧
    (result (.capWr8 3 0x80) (flagged false false)).replies = (flagged false false).replies ++ [⟨.vcpu 0, .done⟩] :=
  ⟨rfl, by decide⟩

/-- `FAILAT(9, 4)` on the guest write of L2.9's last row. -/
def failing : State := answering (List.replicate 8 .ok ++ [.err 4]) (flagged false false)

theorem witness_RetryAfterFailureRestoresAgreement :
    (ownFn failing).msx = some ⟨false, false, table2⟩ ∧
    exec (.capWr8 3 0x80) failing = .next (result (.capWr8 3 0x80) failing) ∧
    (result (.capWr8 3 0x80) failing).replies = failing.replies ++ [⟨.vcpu 0, .error (.ioError 4 .enable 8)⟩] :=
  ⟨by decide, rfl, by decide⟩

/-- An access up to the last byte of the table, one past it and one across an entry. -/
theorem witness_TableReadReturnsBytes :
    guest.overlaps = false ∧ (ownFn (flagged true false)).msx = some ⟨true, false, table2⟩ ∧ (ownFn (flagged true false)).cap ≠ none ∧
    insideEntry ⟨true, false, table2⟩ 0x1F 1 ∧ ¬ insideEntry ⟨true, false, table2⟩ 0x20 1 ∧
    ¬ insideEntry ⟨true, false, table2⟩ 0x0E 4 := by
  refine ⟨by decide, by decide, by decide, ?_, ?_, ?_⟩ <;> (unfold insideEntry; decide)

/-- The write of `update` and `mask` calls, all `Ok` and with the fourth failing. -/
theorem witness_TableWriteStoresAndCalls :
    guest.overlaps = false ∧ (ownFn (flagged true false)).msx = some ⟨true, false, table2⟩ ∧
    (ownFn (flagged true false)).cap ≠ none ∧ ¬ insideEntry ⟨true, false, table2⟩ 0x20 1 ∧
    insideEntry ⟨true, false, table2⟩ 0x0B 5 ∧
    (flagged true false).oracle.be =
      List.replicate (owedByTableWrite ⟨true, false, table2⟩ 0 0x0B 2 ⟨0, 0, 0, 1⟩).length .ok ++ List.replicate 11 .ok ∧
    (owedByTableWrite ⟨true, false, table2⟩ 0 0x0B 2 ⟨0, 0, 0, 1⟩)[3]? = some (.update 0) ∧
    (answering [.ok, .ok, .ok, .err 4] (flagged true false)).oracle.be = List.replicate 3 .ok ++ .err 4 :: [] := by
  refine ⟨by decide, by decide, by decide, ?_, ?_, by decide⟩ <;> (unfold insideEntry; decide)

theorem witness_TableWriteThenReadRoundTrips :
    guest.overlaps = false ∧ (ownFn (flagged true false)).msx = some ⟨true, false, table2⟩ ∧
    (ownFn (flagged true false)).cap ≠ none ∧ [1, 2, 3, 4].length = (4 : BitVec 8).toNat ∧ insideEntry ⟨true, false, table2⟩ 0x1C [1, 2, 3, 4].length := by
  refine ⟨by decide, by decide, by decide, by decide, ?_⟩
  unfold insideEntry; decide

theorem witness_PbaReadReportsPending :
    guest.overlaps = false ∧ (ownFn (flagged false false)).msx = some ⟨false, false, table2⟩ ∧
    (ownFn (flagged true false)).msx = some ⟨true, false, table2⟩ ∧ (ownFn (flagged false false)).cap ≠ none ∧
    (ownFn (flagged true false)).cap ≠ none ∧
    (queriedVectors ⟨true, false, table2⟩ 0 1).length ≤ (pending [true] (flagged true false)).oracle.pend.length := by decide

theorem witness_OverlappingMsixIsRefused :
    { asHost (flagged true false) with cur := { host with overlaps := true } }.cur.overlaps = true ∧
    fromHost { asHost (flagged true false) with cur := { host with overlaps := true } } = true := by decide

/-- A function with no object, one with a capability alone and one with an MSX alone. -/
theorem witness_MsixTransactionsNeedTheirObjects :
    base.cur.overlaps = false ∧ (ownFn (asHost base)).cap = none ∧ fromHost (asHost base) = true ∧
    (ownFn (withCapOnly capE4)).msx = none ∧ msxOnly.cur.overlaps = false ∧ (ownFn msxOnly).cap = none ∧
    fromHost msxOnly = true := by decide

theorem witness_GuestChangesOnlyItsOwn :
    fromHost (flagged true false) = false ∧ isHostInstr .rootActivate = true ∧
    exec (.tblWr 0x0C [1]) (flagged true false) = .next (result (.tblWr 0x0C [1]) (flagged true false)) ∧
    ((flagged true false).fnRec 3).cap = some cap2 ∧ ((flagged true false).fnRec 3).msx = some ⟨true, false, table2⟩ ∧
    ((flagged true false).fnRec 4).cap = none ∧ ((flagged true false).fnRec 4).msx = none ∧ rooted.root = some root ∧
    base.root = none :=
  ⟨by decide, by decide, rfl, by decide, by decide, by decide, by decide, by decide, by decide⟩

/-- A read after an earlier transaction of the host that ended in an error. -/
theorem witness_GuestSeesNoError :
    exec (.ecamRd 4 0x10A011) { rooted with replies := [⟨.host 0, .error .noResources⟩] } =
      .next (result (.ecamRd 4 0x10A011) { rooted with replies := [⟨.host 0, .error .noResources⟩] }) ∧
    (Reply.mk (.host 0) (.error .noResources)) ∈
      (result (.ecamRd 4 0x10A011) { rooted with replies := [⟨.host 0, .error .noResources⟩] }).replies :=
  ⟨rfl, by decide⟩

theorem witness_FunctionsAreIndependent :
    exec (.tblWr 0x0C [1]) (flagged true false) = .next (result (.tblWr 0x0C [1]) (flagged true false)) := rfl

theorem witness_FlagsChangeOnlyByTransition :
    exec (.capWr8 3 0x40) (flagged false false) = .next (result (.capWr8 3 0x40) (flagged false false)) ∧
    ((flagged false false).fnRec 3).msx = some ⟨false, false, table2⟩ ∧
    ((result (.capWr8 3 0x40) (flagged false false)).fnRec 3).msx = some ⟨false, true, table2⟩ ∧ (true ≠ false) :=
  ⟨rfl, by decide, by decide, by decide⟩

/-- The guest write of byte 3 as the next event. -/
def enabling : State := queued (.issue { guest with bytes := [3, 0, 0, 0, 0, 0, 1, 0x21, 0x80] }) (flagged false false)

theorem witness_ConfigurationNeverChanges :
    step enabling = .next enabling.after ∧ (enabling.fnRec 3).msx = some ⟨false, false, table2⟩ ∧ (enabling.fnRec 3).cap ≠ none ∧
    step (queued (.forward (.vcpu 0)) (flying (.write [1]))) = .next (queued (.forward (.vcpu 0)) (flying (.write [1]))).after ∧
    (flying (.write [1])).root = some root ∧ { root with activated := true }.activated = true :=
  ⟨rfl, by decide, by decide, rfl, by decide, by decide⟩

theorem witness_LogsOnlyGrowAndNeverNotify :
    step enabling = .next enabling.after ∧ calls enabling.after ≠ calls enabling := ⟨rfl, by decide +kernel⟩

theorem witness_CallsAreBounded :
    exec (.capWr8 3 0xC0) (flagged false false) = .next (result (.capWr8 3 0xC0) (flagged false false)) ∧
    (ownFn (flagged false false)).msx = some ⟨false, false, table2⟩ := ⟨rfl, by decide⟩

theorem witness_StepKeepsRootOk :
    rootOk rooted = true ∧ step (rooted.withFetchWord 64 0x8100000000000000) = .next (rooted.withFetchWord 64 0x8100000000000000).after :=
  ⟨by decide, rfl⟩

theorem witness_StepKeepsFunctionsOk : fnsOk enabling = true ∧ step enabling = .next enabling.after :=
  ⟨by decide, rfl⟩

theorem witness_StepKeepsAccessesAligned :
    accessesOk (queued (.forward (.vcpu 0)) (flying (.read 4))) = true ∧
    step (queued (.forward (.vcpu 0)) (flying (.write [1]))) = .next (queued (.forward (.vcpu 0)) (flying (.write [1]))).after :=
  ⟨by decide, rfl⟩

/-- Function 3 enabled by its own transition, its log in place and the back-end still answering `Ok`. -/
def running : State :=
  { result (.msxSetctl 0x8000) (asHost (flagged false false)) with oracle := { Oracle.blank with be := List.replicate 8 .ok } }

theorem running_ownFn : ownFn running =
    { fn2 true false with log := allOk (owedByTransition .x86 ⟨false, false, table2⟩ 0x8000) } := by decide

theorem running_entries (P : Nat → Entry → Prop) (h0 : P 0 ⟨0, 0, 0, 0⟩) (h1 : P 1 ⟨0, 0, 0, 1⟩) :
    ∀ j e, table2[j]? = some e → P j e := by
  intro j e h
  match j, h with
  | 0, h => cases h; exact h0
  | 1, h => cases h; exact h1

theorem running_viewsOk : viewsOk running := by
  intro f m hm _
  by_cases hf : f = 3
  · subst hf
    have e : running.fnRec 3 = ownFn running := by decide
    rw [e, running_ownFn] at hm ⊢
    cases hm
    exact running_entries _ (fun _ => by unfold viewMatches; decide) (fun _ => by unfold viewMatches; decide)
  · have e : running.fns = [(3, ownFn running)] := by decide
    simp [State.fnRec, e, mapGet, Ne.symm hf, FnRec.empty] at hm

theorem witness_StepKeepsBackendInStep : viewsOk running ∧ step running = .next running.after := ⟨running_viewsOk, rfl⟩

theorem witness_MaskRoundTripRestores :
    (ownFn running).msx = some ⟨true, false, table2⟩ ∧ 1 < table2.length ∧
    (∀ j e, table2[j]? = some e → (beView j (ownFn running).log).valid = true ∧ (beView j (ownFn running).log).on = true ∧
      (beView j (ownFn running).log).mask = some (e.vctl.getLsbD 0)) ∧
    exec (.msxSetctl 0xC000) running = .next (result (.msxSetctl 0xC000) running) ∧
    (result (.msxSetctl 0xC000) running).replies = running.replies ++ [⟨running.cur.agent, .done⟩] ∧
    exec (.msxSetctl 0x8000) (result (.msxSetctl 0xC000) running) =
      .next (result (.msxSetctl 0x8000) (result (.msxSetctl 0xC000) running)) ∧
    (result (.msxSetctl 0x8000) (result (.msxSetctl 0xC000) running)).replies =
      (result (.msxSetctl 0xC000) running).replies ++ [⟨running.cur.agent, .done⟩] :=
  ⟨by decide, by decide, running_entries _ (by decide) (by decide), rfl, by decide, rfl, by decide⟩

/-- The guest masks vector 0 in the table, with `guestStep`; the host masks the function, with `hostStep`. -/
def guestStep (s : State) : State := result (.tblWr 0x0C [1]) { s with cur := guest }

def hostStep (s : State) : State := result (.msxSetctl 0xC000) { s with cur := host }

theorem witness_MaskChangesCommute :
    guest.operands.fn = 3 ∧ host.operands.fn = 3 ∧ (running.fnRec 3).msx = some ⟨true, false, table2⟩ ∧ viewsOk running ∧
    (∀ i, (beView i (running.fnRec 3).log).valid = true) ∧
    exec (.tblWr 0x0C [1]) { running with cur := guest } = .next (guestStep running) ∧
    (guestStep running).replies = running.replies ++ [⟨.vcpu 0, .done⟩] ∧
    exec (.msxSetctl 0xC000) { guestStep running with cur := host } = .next (hostStep (guestStep running)) ∧
    (hostStep (guestStep running)).replies = (guestStep running).replies ++ [⟨.host 0, .done⟩] ∧
    exec (.msxSetctl 0xC000) { running with cur := host } = .next (hostStep running) ∧
    (hostStep running).replies = running.replies ++ [⟨.host 0, .done⟩] ∧
    exec (.tblWr 0x0C [1]) { hostStep running with cur := guest } = .next (guestStep (hostStep running)) ∧
    (guestStep (hostStep running)).replies = (hostStep running).replies ++ [⟨.vcpu 0, .done⟩] ∧ enableBit 0xC000 = true := by
  refine ⟨rfl, rfl, by decide, running_viewsOk, ?_, rfl, by decide, rfl, by decide, rfl, by decide, rfl, by decide, by decide⟩
  intro i
  have e : running.fnRec 3 = ownFn running := by decide
  rw [e, running_ownFn]
  exact beView_allOk_valid i _

end Sys2Proof.Tests
end

section
/-! PROOF. The statements of 00_scope.md: what a step keeps for the life of the machine (O51), when an access in flight takes its
second step (O7), and what there is before any constructor has run (O9). -/

namespace Sys2Proof.Machine

/-! ## What a transaction keeps of its function's record -/

/-- `fr'` still has every object that `fr` has, the table at its length (R43, R282). -/
def keepsObjects (fr fr' : FnRec) : Prop :=
  (fr.cap ≠ none → fr'.cap ≠ none) ∧
    ∀ m, fr.msx = some m → ∃ m', fr'.msx = some m' ∧ m'.tbl.length = m.tbl.length

theorem keepsObjects_refl (fr : FnRec) : keepsObjects fr fr := ⟨id, fun m hm => ⟨m, hm, rfl⟩⟩

/-- A record that keeps the capability and holds an MSX with a table of the old length keeps the objects. -/
theorem keepsObjects_of_msx {fr fr' : FnRec} {m m' : Msx} (hcap : fr.cap ≠ none → fr'.cap ≠ none) (hm : fr.msx = some m)
    (hm' : fr'.msx = some m') (hlen : m'.tbl.length = m.tbl.length) : keepsObjects fr fr' :=
  ⟨hcap, fun n hn => ⟨m', hm', by rw [hlen, Option.some.inj (hm.symm.trans hn)]⟩⟩

/-- The record a transition starts from has the objects of the function's record, and its very MSX. -/
theorem TransitionStart.kept {fr fr0 : FnRec} {i : Instr} {reg : U16} (h : TransitionStart fr i fr0 reg) :
    (fr.cap ≠ none → fr0.cap ≠ none) ∧ fr0.msx = fr.msx := by
  cases h with
  | setctl => exact ⟨id, rfl⟩
  | write c v hc => exact ⟨fun _ => Option.some_ne_none _, rfl⟩

theorem keepsObjects_of_fnChange {p : Params} {o : Operands} {fr fr' : FnRec} {i : Instr} (h : FnChange p o fr i fr') :
    keepsObjects fr fr' := by
  cases h with
  | capNew | capSetctl => exact ⟨fun _ => Option.some_ne_none _, fun m hm => ⟨m, hm, rfl⟩⟩
  | msxNew n hnone => exact ⟨id, fun m hm => absurd (hnone.symm.trans hm) (Option.some_ne_none m).symm⟩
  | unchanged _ m fr0 reg hs hm | transitionErr _ m fr0 reg hs hm =>
    exact keepsObjects_of_msx hs.kept.1 hm (hs.kept.2.trans hm) rfl
  | transitionOk _ m fr0 reg hs hm => exact keepsObjects_of_msx hs.kept.1 hm rfl rfl
  | tblWrOk m off d old hm | tblWrErr m off d old hm => exact keepsObjects_of_msx id hm rfl List.length_set
  | pbaRd => exact keepsObjects_refl fr

/-- The same of every function's record, after one change of the function map. -/
theorem keepsObjects_of_fnsChange {i : Instr} {s t : State} (h : fnsChange i s t) (f : FnHandle) :
    keepsObjects (s.fnRec f) (t.fnRec f) := by
  rcases h with hsame | ⟨fr, hfr, hput⟩
  · have hrec : t.fnRec f = s.fnRec f := by rw [State.fnRec, State.fnRec, hsame]
    rw [hrec]
    exact keepsObjects_refl _
  · have hrec : t.fnRec f = (s.setFn s.cur.operands.fn fr).fnRec f := by
      rw [State.fnRec, State.fnRec, hput, State.setFn_fns]
    rw [hrec]
    by_cases hf : f = s.cur.operands.fn
    · subst hf
      rw [State.fnRec_setFn_same]
      exact keepsObjects_of_fnChange hfr
    · rw [State.fnRec_setFn_other s hf]
      exact keepsObjects_refl _

/-! ## What a transaction keeps of ROOT -/

/-- `after` is ROOT with the configuration of `before`, and activated if `before` was (R23, R163). -/
def keepsRoot (before after : Option Root) : Prop :=
  ∀ r, before = some r → ∃ q, after = some q ∧ sameConfiguration r q ∧ (r.activated = true → q.activated = true)

theorem sameConfiguration_refl (r : Root) : sameConfiguration r r := ⟨rfl, rfl, rfl, rfl, rfl, rfl, rfl⟩

theorem keepsRoot_refl (ro : Option Root) : keepsRoot ro ro := fun r hr => ⟨r, hr, sameConfiguration_refl r, id⟩

/-- A root device put in the place of an existing one. -/
theorem keepsRoot_some {ro : Option Root} {r q : Root} (hr : ro = some r) (hc : sameConfiguration r q)
    (ha : r.activated = true → q.activated = true) : keepsRoot ro (some q) := by
  intro r' hr'
  cases hr.symm.trans hr'
  exact ⟨q, rfl, hc, ha⟩

theorem keepsRoot_of_rootChange {s : State} {i : Instr} {ro : Option Root} (h : RootChange s i ro) : keepsRoot s.root ro := by
  cases h with
  | kept => exact keepsRoot_refl _
  | written r lane d hr => exact keepsRoot_some hr (sameConfiguration_refl r) id
  | created maxBus hnone => exact fun r hr => absurd (hnone.symm.trans hr) (Option.some_ne_none r).symm
  | added r id hr => exact keepsRoot_some hr (sameConfiguration_refl r) (fun ha => ha)
  | activated r hr => exact keepsRoot_some hr (sameConfiguration_refl r) fun _ => rfl

/-! ## What a step keeps -/

/-- The parameters, ROOT's configuration and every function's objects are kept from `s` to `t` (R8, R23, R43, R282). -/
def keepsConfiguration (s t : State) : Prop :=
  t.params = s.params ∧ keepsRoot s.root t.root ∧ ∀ f, keepsObjects (s.fnRec f) (t.fnRec f)

/-- A state that differs in none of the three fields keeps the configuration. -/
theorem keepsConfiguration_of_eq {s t : State} (hp : t.params = s.params) (hr : t.root = s.root) (hf : t.fns = s.fns) :
    keepsConfiguration s t := by
  refine ⟨hp, hr ▸ keepsRoot_refl _, fun f => ?_⟩
  rw [State.fnRec, State.fnRec, hf]
  exact keepsObjects_refl _

theorem exec_keepsConfiguration {i : Instr} {s t : State} (h : exec i s = .next t) : keepsConfiguration s t := by
  obtain ⟨⟨hparams, -⟩, hroot⟩ := exec_kept h
  exact ⟨hparams, keepsRoot_of_rootChange hroot, keepsObjects_of_fnsChange (exec_fns h)⟩

/-- Putting a transaction in place to run constructs and removes nothing. -/
theorem keepsConfiguration_load (s t : State) (iss : Issue) (rest : List Slot) :
    keepsConfiguration (s.load iss rest) t ↔ keepsConfiguration s t := by
  simp [keepsConfiguration]

/-- Completing an access touches none of the constructed objects. -/
theorem keepsConfiguration_complete (s : State) (fw : Forward) (q : List Slot) :
    keepsConfiguration s ((s.complete fw).setQueue q) := by
  rw [State.complete_eq]
  exact keepsConfiguration_of_eq rfl rfl rfl

theorem step_keepsConfiguration {s t : State} (h : step s = .next t) : keepsConfiguration s t := by
  rcases step_cases h with ⟨iss, rest, i, hexec⟩ | ⟨fw, q, -, rfl⟩ | ⟨q, rfl⟩ | ⟨-, q, -, rfl⟩
  · exact (keepsConfiguration_load s t iss rest).mp (exec_keepsConfiguration hexec)
  · exact keepsConfiguration_complete s fw q
  · exact keepsConfiguration_of_eq rfl rfl rfl
  · exact keepsConfiguration_of_eq rfl rfl rfl

/-- An object that is kept is there afterwards (R282). -/
theorem outlives_of_keepsConfiguration {s t : State} (h : keepsConfiguration s t) : outlives s t := by
  obtain ⟨-, hroot, hfns⟩ := h
  refine ⟨fun hs => ?_, fun f => ⟨(hfns f).1, fun hs => ?_⟩⟩
  · obtain ⟨r, hr⟩ := Option.ne_none_iff_exists'.mp hs
    obtain ⟨q, hq, -⟩ := hroot r hr
    simp [hq]
  · obtain ⟨m, hm⟩ := Option.ne_none_iff_exists'.mp hs
    obtain ⟨m', hm', -⟩ := (hfns f).2 m hm
    simp [hm']

/-- Settles O51: by what one step can do (`step_cases`), and for a transaction by what it can make of ROOT (`exec_kept`) and of the
functions (`exec_fns`). -/
theorem configurationNeverChanges : Obligations.ConfigurationNeverChanges := by
  intro s t h
  obtain ⟨hparams, hroot, hfns⟩ := step_keepsConfiguration h
  exact ⟨hparams, hroot, fun f => (hfns f).2, outlives_of_keepsConfiguration ⟨hparams, hroot, hfns⟩⟩

/-! ## The second step of an access in flight -/

/-- The second step of an access neither reads the queue nor writes it. -/
theorem State.complete_setQueue (s : State) (fw : Forward) (q : List Slot) :
    (s.setQueue q).complete fw = (s.complete fw).setQueue q := by
  unfold State.complete State.perform
  cases fw.access <;> rfl

/-- An issue of an agent with an access in flight completes the access and stays in the queue (log 6). -/
theorem step_of_waiting_issue {s : State} {iss : Issue} {rest : List Slot} {fw : Forward} (hf : s.faulted = false)
    (hr : s.refused = false) (hq : s.queue = .issue iss :: rest) (hfw : accessOf iss.agent s.inflight = some fw) :
    step s = .next (s.complete fw) := by
  rw [step_of_event hf hr hq, runEvent, issueEvent, hfw]

/-- With an empty queue the oldest access in flight is completed (log 6). -/
theorem step_of_oldest_access {s : State} {fw : Forward} {l : List Forward} (hf : s.faulted = false) (hr : s.refused = false)
    (hq : s.queue = []) (hl : s.inflight = fw :: l) : step s = .next (s.complete fw) := by
  rw [step_of_idle hf hr hq, State.idle, hl]

/-- A `forward` event put before the queue completes the agent's access and leaves the queue as it was. -/
theorem step_of_forward_first {s : State} {a : Agent} {fw : Forward} (hf : s.faulted = false) (hr : s.refused = false)
    (hfw : accessOf a s.inflight = some fw) : step (s.setQueue (.forward a :: s.queue)) = .next (s.complete fw) := by
  have hrun : step (s.setQueue (.forward a :: s.queue)) =
      .next ((s.setQueue (.forward a :: s.queue)).forwardEvent a s.queue) :=
    step_of_event (s := s.setQueue (.forward a :: s.queue)) hf hr rfl
  have hback : ((s.complete fw).setQueue (.forward a :: s.queue)).setQueue s.queue = s.complete fw := by
    rw [State.complete_eq]
    rfl
  rw [hrun, State.forwardEvent, State.setQueue_inflight, hfw]
  dsimp only
  rw [State.complete_setQueue, hback]

/-- The access at the front of the list is the one its own agent has in flight. -/
theorem accessOf_cons_self (fw : Forward) (l : List Forward) : accessOf fw.agent (fw :: l) = some fw :=
  List.find?_cons_of_pos (beq_self_eq_true fw.agent)

/-- Settles O7: on each side the step completes the one access, and the queue is the one of `s`. -/
theorem agentFinishesItsAccessFirst : Obligations.AgentFinishesItsAccessFirst := by
  intro s fw hf hr
  constructor
  · intro iss rest hq hfw
    exact (step_of_waiting_issue hf hr hq hfw).trans (step_of_forward_first hf hr hfw).symm
  · intro l hq hl
    have hfw : accessOf fw.agent s.inflight = some fw := by rw [hl, accessOf_cons_self]
    have hforward := step_of_forward_first hf hr hfw
    rw [hq] at hforward
    exact (step_of_oldest_access hf hr hq hl).trans hforward.symm

/-! ## The machine at reset -/

/-- Settles O9: each conjunct is a field that `State.reset` writes. -/
theorem resetConstructsNothing : Obligations.ResetConstructsNothing :=
  ⟨rfl, rfl, rfl, rfl, rfl⟩

end Sys2Proof.Machine
end

section
/-! SUPPORT. The control bits of a capability, the fields that `cap.new` packs, and the flags a control value stands for, each as a
number or as a bit. -/

namespace Sys2Proof.Machine

/-! ## Control values -/

theorem newEnabled_eq_getLsbD (reg : U16) : newEnabled reg = reg.getLsbD 15 := by
  have hmask : reg &&& msixEnableMask = if reg.getLsbD 15 then BitVec.twoPow 16 15 else 0#16 := BitVec.and_twoPow reg 15
  rw [newEnabled, hmask]
  cases reg.getLsbD 15 <;> rfl

theorem newMasked_eq_getLsbD (reg : U16) : newMasked reg = reg.getLsbD 14 := by
  have hmask : reg &&& functionMaskMask = if reg.getLsbD 14 then BitVec.twoPow 16 14 else 0#16 := BitVec.and_twoPow reg 14
  rw [newMasked, hmask]
  cases reg.getLsbD 14 <;> rfl

/-- The arithmetic reading of a bit of a control value. -/
theorem getLsbD_eq_decide (reg : U16) (k : Nat) : reg.getLsbD k = decide (reg.toNat / 2 ^ k % 2 = 1) := by
  rw [BitVec.getLsbD, Nat.testBit_eq_decide_div_mod_eq]

theorem newEnabled_eq_enableBit (reg : U16) : newEnabled reg = enableBit reg := by
  rw [newEnabled_eq_getLsbD, getLsbD_eq_decide, enableBit]

theorem newMasked_eq_functionMaskBit (reg : U16) : newMasked reg = functionMaskBit reg := by
  rw [newMasked_eq_getLsbD, getLsbD_eq_decide, functionMaskBit]

/-! ## What a control write keeps and what it stores -/

/-- Bits 15 and 14 come from the control value, the others from MSG_CTL (R36). -/
theorem getLsbD_setControl (c : Cap) (data : U16) (k : Nat) (hk : k < 16) :
    (c.setControl data).msgCtl.getLsbD k = if k < 14 then c.msgCtl.getLsbD k else data.getLsbD k := by
  unfold Cap.setControl functionMaskMask msixEnableMask
  interval_cases k <;> simp

theorem setControl_low_bits (c : Cap) (data : U16) :
    (c.setControl data).msgCtl.toNat % 2 ^ 14 = c.msgCtl.toNat % 2 ^ 14 := by
  rw [← BitVec.toNat_setWidth, ← BitVec.toNat_setWidth]
  congr 1
  apply BitVec.eq_of_getLsbD_eq
  intro k hk
  rw [BitVec.getLsbD_setWidth, BitVec.getLsbD_setWidth, getLsbD_setControl c data k (by omega), if_pos hk]

theorem onlyControlBits_refl (c : Cap) : onlyControlBits c c := ⟨rfl, rfl, rfl, rfl, rfl⟩

theorem onlyControlBits_setControl (c : Cap) (data : U16) : onlyControlBits c (c.setControl data) :=
  ⟨rfl, rfl, rfl, rfl, setControl_low_bits c data⟩

/-- The bits that a guest byte written to offset 3 puts in MSG_CTL (R100, R182). -/
theorem enableBit_controlByte (c : Cap) (v : Byte) :
    enableBit (c.setControl (controlByte v)).msgCtl = v.getLsbD 7 := by
  rw [← newEnabled_eq_enableBit, newEnabled_eq_getLsbD, getLsbD_setControl c _ 15 (by omega)]
  simp [controlByte]

theorem functionMaskBit_controlByte (c : Cap) (v : Byte) :
    functionMaskBit (c.setControl (controlByte v)).msgCtl = v.getLsbD 6 := by
  rw [← newMasked_eq_functionMaskBit, newMasked_eq_getLsbD, getLsbD_setControl c _ 14 (by omega)]
  simp [controlByte]

/-! ## The declared size -/

theorem Cap.tableSize_toNat (c : Cap) : c.tableSize.toNat = c.msgCtl.toNat % 2 ^ 11 + 1 := by
  simp only [Cap.tableSize, BitVec.toNat_add, BitVec.toNat_setWidth, BitVec.extractLsb'_toNat,
    BitVec.ofNat_eq_ofNat, BitVec.toNat_ofNat, Nat.shiftRight_zero]
  omega

/-- The declared size is among the bits that a control write keeps (R36, R190). -/
theorem tableSize_of_onlyControlBits {c d : Cap} (h : onlyControlBits c d) : d.tableSize = c.tableSize := by
  obtain ⟨-, -, -, -, hlow⟩ := h
  apply BitVec.eq_of_toNat_eq
  rw [Cap.tableSize_toNat, Cap.tableSize_toNat]
  omega

/-- Both parts of R33 in one bound on MSG_CTL[13:0]. -/
theorem capOk_iff (c : Cap) : capOk c = true ↔ c.msgCtl.toNat % 2 ^ 14 < 2047 := by
  have hbits : c.msgCtl.extractLsb' 11 3 = 0 ↔ c.msgCtl.toNat / 2 ^ 11 % 8 = 0 := by
    rw [← BitVec.toNat_inj, BitVec.extractLsb'_toNat, Nat.shiftRight_eq_div_pow]
    rfl
  simp only [capOk, Bool.and_eq_true, beq_iff_eq, decide_eq_true_eq, hbits, Cap.tableSize_toNat]
  omega

theorem capOk_of_onlyControlBits {c d : Cap} (h : onlyControlBits c d) (hc : capOk c = true) : capOk d = true := by
  obtain ⟨-, -, -, -, hlow⟩ := h
  rwa [capOk_iff, hlow, ← capOk_iff]

/-! ## What `cap.new` packs -/

/-- A table size other than 0, as R180 and R210 ask for one, is at least 1. -/
theorem ne_zero_iff_one_le_toNat (n : U16) : n ≠ 0 ↔ 1 ≤ n.toNat := by
  rw [ne_eq, ← BitVec.toNat_inj, BitVec.ofNat_eq_ofNat, BitVec.toNat_ofNat, Nat.zero_mod]
  omega

/-- MSG_CTL holds the size less one (R33). -/
theorem newCap_msgCtl_toNat (p : Params) (o : Operands) (h0 : o.tableSize ≠ 0) :
    (newCap p o).msgCtl.toNat = o.tableSize.toNat - 1 := by
  have hpos := (ne_zero_iff_one_le_toNat _).mp h0
  have hlt := o.tableSize.isLt
  simp only [newCap, BitVec.toNat_sub, BitVec.ofNat_eq_ofNat, BitVec.toNat_ofNat]
  omega

theorem newCap_tableSize_toNat (p : Params) (o : Operands) (h0 : o.tableSize ≠ 0) (h1 : o.tableSize.toNat < 2048) :
    (newCap p o).tableSize.toNat = o.tableSize.toNat := by
  have hpos := (ne_zero_iff_one_le_toNat _).mp h0
  rw [Cap.tableSize_toNat, newCap_msgCtl_toNat p o h0]
  omega

theorem capOk_newCap (p : Params) (o : Operands) (h0 : o.tableSize ≠ 0) (h1 : o.tableSize.toNat < 2048) :
    capOk (newCap p o) = true := by
  rw [capOk_iff, newCap_msgCtl_toNat p o h0]
  omega

/-- Clearing the low three bits of an offset (R34, R35). -/
theorem and_clear_low_bits (off : U32) : off &&& 0xFFFFFFF8#32 = (off >>> 3) <<< 3 := by
  apply BitVec.eq_of_getLsbD_eq
  intro k hk
  interval_cases k <;> simp

theorem packOffset_toNat (off : U32) (bir : BitVec 8) :
    (packOffset off bir).toNat = off.toNat / 8 * 8 + bir.toNat % 8 := by
  have hoff := off.isLt
  have hhigh : (off &&& 0xFFFFFFF8#32).toNat = (off.toNat / 8) <<< 3 := by
    rw [and_clear_low_bits, BitVec.toNat_shiftLeft, BitVec.toNat_ushiftRight, Nat.shiftRight_eq_div_pow, Nat.shiftLeft_eq]
    omega
  have hlow : ((bir &&& 0x7#8).setWidth 32).toNat = bir.toNat % 2 ^ 3 := by
    rw [BitVec.toNat_setWidth, BitVec.toNat_and, show (0x7#8).toNat = 2 ^ 3 - 1 from rfl, Nat.and_two_pow_sub_one_eq_mod]
    omega
  have hlt : bir.toNat % 2 ^ 3 < 2 ^ 3 := Nat.mod_lt _ (by decide)
  rw [packOffset, BitVec.toNat_or, hhigh, hlow, ← Nat.shiftLeft_add_eq_or_of_lt hlt, Nat.shiftLeft_eq]
  omega

end Sys2Proof.Machine
end

section
/-! PROOF. What a transaction can make of one function's record, read off `FnChange` once for the capability, the MSX and the log; and
the statements of 10_state.md that follow from it. -/

namespace Sys2Proof.Machine

/-! ## The record of one function, transaction by transaction and step by step -/

/-- A transaction leaves a record as it was, or changes its own function's (R77). -/
theorem fnRec_of_fnsChange {i : Instr} {s t : State} (h : fnsChange i s t) (f : FnHandle) :
    t.fnRec f = s.fnRec f ∨
      f = s.cur.operands.fn ∧ FnChange s.params s.cur.operands (s.fnRec f) i (t.fnRec f) := by
  rcases h with hsame | ⟨fr, hfr, hput⟩
  · exact .inl (by rw [State.fnRec, State.fnRec, hsame])
  · have hrec : t.fnRec f = (s.setFn s.cur.operands.fn fr).fnRec f := by
      rw [State.fnRec, State.fnRec, hput, State.setFn_fns]
    rw [hrec]
    by_cases hf : f = s.cur.operands.fn
    · subst hf
      rw [State.fnRec_setFn_same]
      exact .inr ⟨rfl, hfr⟩
    · exact .inl (State.fnRec_setFn_other s hf fr)

theorem exec_fnRec {i : Instr} {s t : State} (h : exec i s = .next t) (f : FnHandle) :
    t.fnRec f = s.fnRec f ∨
      f = s.cur.operands.fn ∧ FnChange s.params s.cur.operands (s.fnRec f) i (t.fnRec f) :=
  fnRec_of_fnsChange (exec_fns h) f

/-- What holds between a record and itself, and between a record and what a transaction makes of it, holds between the records of a
function before and after a step. -/
theorem step_fnRec {R : FnRec → FnRec → Prop} (hrefl : ∀ fr, R fr fr)
    (hchange : ∀ {p o fr i fr'}, FnChange p o fr i fr' → R fr fr') {s t : State} (h : step s = .next t) (f : FnHandle) :
    R (s.fnRec f) (t.fnRec f) := by
  rcases step_fns h with hsame | ⟨iss, rest, i, -, hi⟩
  · rw [State.fnRec, State.fnRec, hsame]
    exact hrefl _
  · rcases fnRec_of_fnsChange hi f with hsame | ⟨-, hfr⟩
    · rw [hsame, State.fnRec_load]
      exact hrefl _
    · exact hchange hfr

/-! ## The capability -/

/-- The capability is as it was, or has new control bits (R36). -/
def controlled (before after : Option Cap) : Prop :=
  after = before ∨ ∃ c data, before = some c ∧ after = some (c.setControl data)

theorem controlled.after_of_before {before after : Option Cap} (h : controlled before after) {c : Cap} (hc : before = some c) :
    ∃ d, after = some d ∧ onlyControlBits c d := by
  rcases h with rfl | ⟨b, data, hb, rfl⟩
  · exact ⟨c, hc, onlyControlBits_refl c⟩
  · cases hc.symm.trans hb
    exact ⟨_, rfl, onlyControlBits_setControl c data⟩

theorem controlled.eq_none {before after : Option Cap} (h : controlled before after) (hc : before = none) :
    after = none := by
  rcases h with rfl | ⟨b, data, hb, -⟩
  · exact hc
  · exact absurd (hc.symm.trans hb) (Option.some_ne_none b).symm

/-- A capability that is there afterwards was there before, with the same bits but for the control bits. -/
theorem controlled.before_of_after {before after : Option Cap} (h : controlled before after) {d : Cap} (hd : after = some d) :
    ∃ c, before = some c ∧ onlyControlBits c d := by
  rcases h with rfl | ⟨b, data, hb, hafter⟩
  · exact ⟨d, hd, onlyControlBits_refl d⟩
  · cases hafter.symm.trans hd
    exact ⟨b, hb, onlyControlBits_setControl b data⟩

/-- A transition changes at most the control bits before it issues its calls (R182). -/
theorem TransitionStart.cap_controlled {fr fr0 : FnRec} {i : Instr} {reg : U16} (h : TransitionStart fr i fr0 reg) :
    controlled fr.cap fr0.cap := by
  cases h with
  | setctl => exact .inl rfl
  | write c v hc => exact .inr ⟨c, controlByte v, hc, rfl⟩

theorem TransitionStart.instr {fr fr0 : FnRec} {i : Instr} {reg : U16} (h : TransitionStart fr i fr0 reg) :
    (∃ reg, i = .msxSetctl reg) ∨ ∃ v, i = .capWr8 3 v := by
  cases h with
  | setctl => exact .inl ⟨reg, rfl⟩
  | write c v => exact .inr ⟨v, rfl⟩

theorem TransitionStart.log {fr fr0 : FnRec} {i : Instr} {reg : U16} (h : TransitionStart fr i fr0 reg) : fr0.log = fr.log := by
  cases h <;> rfl

/-- A transaction touches at most the control bits of a capability, or constructs one where there was none (R36, R180). -/
theorem FnChange.cap_cases {p : Params} {o : Operands} {fr fr' : FnRec} {i : Instr} (h : FnChange p o fr i fr') :
    controlled fr.cap fr'.cap ∨
      (i = .capNew ∧ fr.cap = none ∧ o.tableSize ≠ 0 ∧ o.tableSize.toNat < 2048 ∧
        builtSizeDiffers fr o.tableSize = false ∧ fr' = { fr with cap := some (newCap p o) }) := by
  cases h with
  | capNew hnone h0 h1 h2 => exact .inr ⟨rfl, hnone, h0, h1, h2, rfl⟩
  | capSetctl c v hc => exact .inl (.inr ⟨c, v, hc, rfl⟩)
  | unchanged _ m fr0 reg hs | transitionOk _ m fr0 reg hs | transitionErr _ m fr0 reg hs => exact .inl hs.cap_controlled
  | msxNew | tblWrOk | tblWrErr | pbaRd => exact .inl (.inl rfl)

/-- Settles O35: a constructor never meets a capability that exists, and the declared size is not among the control bits. -/
theorem onlyControlBitsChange : Obligations.OnlyControlBitsChange := by
  intro s t f c h hc
  refine step_fnRec (R := fun fr fr' => ∀ c, fr.cap = some c →
    ∃ d, fr'.cap = some d ∧ onlyControlBits c d ∧ d.tableSize = c.tableSize) ?_ ?_ h f c hc
  · exact fun fr c hc => ⟨c, hc, onlyControlBits_refl c, rfl⟩
  · intro p o fr i fr' hfr c hc
    rcases hfr.cap_cases with hcap | ⟨-, hnone, -⟩
    · obtain ⟨d, hd, hcd⟩ := hcap.after_of_before hc
      exact ⟨d, hd, hcd, tableSize_of_onlyControlBits hcd⟩
    · exact absurd (hnone.symm.trans hc) (Option.some_ne_none c).symm

/-! ## The state machine and its table -/

/-- Everything a transaction can make of MSX: nothing, a new one, other flags by a transition, or another entry of the table. -/
theorem FnChange.msx_cases {p : Params} {o : Operands} {fr fr' : FnRec} {i : Instr} (h : FnChange p o fr i fr') :
    fr'.msx = fr.msx ∨
    (∃ n, i = .msxNew n ∧ fr.msx = none ∧ n ≠ 0 ∧ n.toNat < 2048 ∧ declaredSizeDiffers fr n = false ∧
      fr' = { fr with msx := some (newMsx p n.toNat), log := [] }) ∨
    (∃ m en ma, ((∃ reg, i = .msxSetctl reg) ∨ ∃ v, i = .capWr8 3 v) ∧ fr.msx = some m ∧
      fr'.msx = some { m with enabled := en, masked := ma }) ∨
    ∃ m off d k e, i = .tblWr off d ∧ fr.msx = some m ∧ fr'.msx = some { m with tbl := m.tbl.set k e } := by
  cases h with
  | capNew | capSetctl | pbaRd => exact .inl rfl
  | msxNew n hnone h0 h1 h2 => exact .inr (.inl ⟨n, rfl, hnone, h0, h1, h2, rfl⟩)
  | unchanged _ m fr0 reg hs | transitionErr _ m fr0 reg hs => exact .inl hs.kept.2
  | transitionOk _ m fr0 reg hs hm => exact .inr (.inr (.inl ⟨m, _, _, hs.instr, hm, rfl⟩))
  | tblWrOk m off d old hm | tblWrErr m off d old hm => exact .inr (.inr (.inr ⟨m, off, d, _, _, rfl, hm, rfl⟩))

/-- A table that is there afterwards was there before with as many entries, or is a new one (R43). -/
theorem FnChange.msx_before {p : Params} {o : Operands} {fr fr' : FnRec} {i : Instr} (h : FnChange p o fr i fr') {m' : Msx}
    (hm' : fr'.msx = some m') :
    (∃ m, fr.msx = some m ∧ m'.size = m.size) ∨
    ∃ n, i = .msxNew n ∧ n ≠ 0 ∧ n.toNat < 2048 ∧ declaredSizeDiffers fr n = false ∧
      fr' = { fr with msx := some (newMsx p n.toNat), log := [] } := by
  rcases h.msx_cases with hsame | ⟨n, hi, -, hn⟩ | ⟨m, en, ma, -, hm, hafter⟩ | ⟨m, off, d, k, e, -, hm, hafter⟩
  · exact .inl ⟨m', hsame.symm.trans hm', rfl⟩
  · exact .inr ⟨n, hi, hn⟩
  · cases hafter.symm.trans hm'
    exact .inl ⟨m, hm, rfl⟩
  · cases hafter.symm.trans hm'
    exact .inl ⟨m, hm, List.length_set⟩

/-- The flags of an MSX that exists change in a transition or not at all (R40). -/
theorem FnChange.flags {p : Params} {o : Operands} {fr fr' : FnRec} {i : Instr} (h : FnChange p o fr i fr') {m m' : Msx}
    (hm : fr.msx = some m) (hm' : fr'.msx = some m') :
    (m'.enabled = m.enabled ∧ m'.masked = m.masked) ∨ (∃ reg, i = .msxSetctl reg) ∨ ∃ v, i = .capWr8 3 v := by
  rcases h.msx_cases with hsame | ⟨n, -, hnone, -⟩ | ⟨b, en, ma, hi, -⟩ | ⟨b, off, d, k, e, -, hb, hafter⟩
  · cases hm.symm.trans (hsame.symm.trans hm')
    exact .inl ⟨rfl, rfl⟩
  · exact absurd (hnone.symm.trans hm) (Option.some_ne_none m).symm
  · exact .inr hi
  · cases hm.symm.trans hb
    cases hafter.symm.trans hm'
    exact .inl ⟨rfl, rfl⟩

/-- Settles O50: a transaction changes only its own function's record (`exec_fnRec`), and flags only in a transition. -/
theorem flagsChangeOnlyByTransition : Obligations.FlagsChangeOnlyByTransition := by
  intro i s t f m m' h hm hm' hflags
  rcases exec_fnRec h f with hsame | ⟨hf, hfr⟩
  · cases hm.symm.trans (hsame ▸ hm')
    simp at hflags
  · rcases hfr.flags hm hm' with ⟨hen, hma⟩ | hi
    · simp [hen, hma] at hflags
    · exact ⟨hf, hi⟩

/-! ## Sizes that agree -/

theorem sizesAgree_iff (fr : FnRec) :
    sizesAgree fr = true ↔ ∀ c m, fr.cap = some c → fr.msx = some m → m.size = c.tableSize.toNat := by
  unfold sizesAgree
  split <;> simp_all

theorem builtSizeDiffers_eq_false_iff (fr : FnRec) (n : U16) :
    builtSizeDiffers fr n = false ↔ ∀ m, fr.msx = some m → m.size = n.toNat := by
  unfold builtSizeDiffers
  split <;> simp_all

theorem declaredSizeDiffers_eq_false_iff (fr : FnRec) (n : U16) :
    declaredSizeDiffers fr n = false ↔ ∀ c, fr.cap = some c → c.tableSize = n := by
  unfold declaredSizeDiffers
  split <;> simp_all

theorem newMsx_size (p : Params) (n : Nat) : (newMsx p n).size = n := List.length_replicate

/-- Whichever object is built second is built with the size of the other, and nothing changes a size afterwards (R43, R293). -/
theorem FnChange.keeps_sizesAgree {p : Params} {o : Operands} {fr fr' : FnRec} {i : Instr} (h : FnChange p o fr i fr')
    (hfr : sizesAgree fr = true) : sizesAgree fr' = true := by
  rw [sizesAgree_iff] at hfr ⊢
  intro c' m' hc' hm'
  rcases h.cap_cases with hcap | ⟨-, -, h0, h1, hbuilt, rfl⟩
  · obtain ⟨c, hc, hcc'⟩ := hcap.before_of_after hc'
    rcases h.msx_before hm' with ⟨m, hm, hsize⟩ | ⟨n, -, -, -, hdeclared, rfl⟩
    · rw [hsize, hfr c m hc hm, tableSize_of_onlyControlBits hcc']
    · cases hm'
      rw [newMsx_size, ← (declaredSizeDiffers_eq_false_iff fr n).mp hdeclared c' hc']
  · cases hc'
    rw [newCap_tableSize_toNat p o h0 h1, (builtSizeDiffers_eq_false_iff fr o.tableSize).mp hbuilt m' hm']

/-- Settles O30: no change of a record breaks the agreement of its sizes. -/
theorem tableSizesStayAgreed : Obligations.TableSizesStayAgreed := fun _ _ f h =>
  step_fnRec (R := fun fr fr' => sizesAgree fr = true → sizesAgree fr' = true) (fun _ => id) FnChange.keeps_sizesAgree h f

/-! ## The invariant of the functions -/

theorem fnOk_iff (fr : FnRec) :
    fnOk fr = true ↔
      (∀ c, fr.cap = some c → capOk c = true) ∧ (∀ m, fr.msx = some m → msxOk m = true) ∧ sizesAgree fr = true := by
  simp only [fnOk, Bool.and_eq_true, and_assoc]
  cases fr.cap <;> cases fr.msx <;> simp

theorem fnOk_empty : fnOk FnRec.empty = true := rfl

/-- MSX is judged by its size alone (R43). -/
theorem msxOk_iff (m : Msx) : msxOk m = true ↔ 1 ≤ m.size ∧ m.size ≤ 2047 := by
  simp [msxOk]

theorem FnChange.keeps_fnOk {p : Params} {o : Operands} {fr fr' : FnRec} {i : Instr} (h : FnChange p o fr i fr')
    (hfr : fnOk fr = true) : fnOk fr' = true := by
  rw [fnOk_iff] at hfr ⊢
  obtain ⟨hcaps, hmsxs, hsizes⟩ := hfr
  refine ⟨fun c' hc' => ?_, fun m' hm' => ?_, h.keeps_sizesAgree hsizes⟩
  · rcases h.cap_cases with hcap | ⟨-, -, h0, h1, -, rfl⟩
    · obtain ⟨c, hc, hcc'⟩ := hcap.before_of_after hc'
      exact capOk_of_onlyControlBits hcc' (hcaps c hc)
    · cases hc'
      exact capOk_newCap p o h0 h1
  · rw [msxOk_iff]
    rcases h.msx_before hm' with ⟨m, hm, hsize⟩ | ⟨n, -, h0, h1, -, rfl⟩
    · rw [hsize]
      exact (msxOk_iff m).mp (hmsxs m hm)
    · cases hm'
      have hpos := (ne_zero_iff_one_le_toNat n).mp h0
      rw [newMsx_size]
      omega

theorem fnOk_fnRec {s : State} (h : fnsOk s = true) (f : FnHandle) : fnOk (s.fnRec f) = true := by
  simp only [fnsOk, Bool.and_eq_true, List.all_eq_true] at h
  rw [State.fnRec]
  cases hget : mapGet f s.fns with
  | none => exact fnOk_empty
  | some fr => exact h.2 (f, fr) (mem_of_mapGet f fr s.fns hget)

/-- The invariant speaks of the function map alone. -/
theorem fnsOk_congr {s t : State} (h : t.fns = s.fns) : fnsOk t = fnsOk s := by
  rw [fnsOk, fnsOk, h]

theorem fnsOk_of_fnsChange {i : Instr} {s t : State} (h : fnsChange i s t) (hs : fnsOk s = true) : fnsOk t = true := by
  rcases h with hsame | ⟨fr, hfr, hput⟩
  · rwa [fnsOk_congr hsame]
  · have hnew : fnOk fr = true := hfr.keeps_fnOk (fnOk_fnRec hs s.cur.operands.fn)
    simp only [fnsOk, Bool.and_eq_true] at hs
    obtain ⟨hwf, hall⟩ := hs
    rw [fnsOk, hput, mapWf_mapPut _ _ _ hwf, all_mapPut _ _ _ _ hall hnew, Bool.and_self]

/-- Settles O55: a step leaves the function map alone or makes one change of one record in it (`step_fns`). -/
theorem stepKeepsFunctionsOk : Obligations.StepKeepsFunctionsOk := by
  intro s t hs h
  rcases step_fns h with hsame | ⟨iss, rest, i, -, hi⟩
  · rwa [fnsOk_congr hsame]
  · exact fnsOk_of_fnsChange hi ((fnsOk_congr (State.load_fns s iss rest)).trans hs)

/-! ## The log -/

/-- `log'` is `log` with calls added to it, none of them `notifier` (R47, R270). -/
def growsQuietly (log log' : List LogEntry) : Prop :=
  ∃ more, log' = log ++ more ∧ ∀ entry ∈ more, ∀ idx, entry.call ≠ .notifier idx

theorem growsQuietly_refl (log : List LogEntry) : growsQuietly log log := ⟨[], (List.append_nil log).symm, by simp⟩

/-- The call is not `notifier`. -/
def quiet (c : Call) : Prop := ∀ idx, c ≠ .notifier idx

theorem growsQuietly_allOk {calls : List Call} (h : ∀ c ∈ calls, quiet c) (log : List LogEntry) :
    growsQuietly log (log ++ allOk calls) := by
  refine ⟨allOk calls, rfl, fun entry hentry => ?_⟩
  obtain ⟨c, hc, rfl⟩ := List.mem_map.mp hentry
  exact h c hc

/-- The log after a sequence of calls that failed at its `k`-th. -/
theorem growsQuietly_failed {calls : List Call} (h : ∀ c ∈ calls, quiet c) (log : List LogEntry) {k : Nat} {c : Call}
    (hk : calls[k]? = some c) (e : Nat) :
    growsQuietly log (log ++ allOk (calls.take k) ++ [⟨c, .result (.err e)⟩]) := by
  obtain ⟨more, hmore, hquiet⟩ := growsQuietly_allOk (fun c hc => h c (List.mem_of_mem_take hc)) log
  refine ⟨more ++ [⟨c, .result (.err e)⟩], by rw [hmore, List.append_assoc], fun entry hentry => ?_⟩
  rcases List.mem_append.mp hentry with hentry | hentry
  · exact hquiet entry hentry
  · cases List.mem_singleton.mp hentry
    exact h c (List.mem_of_getElem? hk)

theorem growsQuietly_pbaBytes (m : Msx) (n k : Nat) (log : List LogEntry) (o : Oracle) :
    growsQuietly log (pbaBytes m n k log o).log := by
  obtain ⟨more, hmore, hpending⟩ := pbaBytes_log m n k log o
  refine ⟨more, hmore, fun entry hentry idx => ?_⟩
  obtain ⟨v, b, rfl⟩ := hpending entry hentry
  exact Call.noConfusion

theorem quiet_of_mem_vectorLoop {op : Nat → Call} (hop : ∀ i, quiet (op i)) (which : Entry → Bool) (i : Nat) (tbl : List Entry) :
    ∀ c ∈ vectorLoop op which i tbl, quiet c := by
  intro c hc
  rw [vectorLoop_eq] at hc
  obtain ⟨p, -, rfl⟩ := List.mem_map.mp hc
  exact hop p.2

theorem quiet_of_mem_programCalls (i : Nat) (e : Entry) : ∀ c ∈ programCalls i e, quiet c := by
  simp [programCalls, quiet]

theorem quiet_of_mem_programLoop (arch : Arch) (i : Nat) (tbl : List Entry) : ∀ c ∈ programLoop arch i tbl, quiet c := by
  intro c hc
  rw [programLoop_eq] at hc
  obtain ⟨p, -, hp⟩ := List.mem_flatMap.mp hc
  rcases List.mem_append.mp hp with hp | hp
  · exact quiet_of_mem_programCalls p.2 p.1 c hp
  · cases arch <;> simp_all [deviceIdCalls, quiet]

theorem quiet_of_mem_enableCalls (arch : Arch) (tbl : List Entry) (newM : Bool) : ∀ c ∈ enableCalls arch tbl newM, quiet c := by
  intro c hc
  simp only [enableCalls, List.mem_append] at hc
  rcases hc with ((hc | hc) | hc) | hc
  · revert c
    simp [quiet]
  · exact quiet_of_mem_programLoop arch 0 tbl c hc
  · revert c
    simp [quiet]
  · exact quiet_of_mem_vectorLoop (fun _ _ => Call.noConfusion) _ 0 tbl c hc

theorem quiet_of_mem_toggleCalls (oldM newM : Bool) (tbl : List Entry) : ∀ c ∈ toggleCalls oldM newM tbl, quiet c := by
  cases oldM <;> cases newM
  · simp [toggleCalls]
  · exact quiet_of_mem_vectorLoop (fun _ _ => Call.noConfusion) _ 0 tbl
  · exact quiet_of_mem_vectorLoop (fun _ _ => Call.noConfusion) _ 0 tbl
  · simp [toggleCalls]

theorem quiet_of_mem_transitionCalls (arch : Arch) (m : Msx) (newEn newM : Bool) :
    ∀ c ∈ transitionCalls arch m newEn newM, quiet c := by
  unfold transitionCalls
  split
  · simp
  · exact quiet_of_mem_enableCalls arch m.tbl newM
  · simp [quiet]
  · exact quiet_of_mem_toggleCalls m.masked newM m.tbl

theorem quiet_of_mem_tableWriteCalls (m : Msx) (i j len : Nat) (e : Entry) : ∀ c ∈ tableWriteCalls m i j len e, quiet c := by
  intro c hc
  unfold tableWriteCalls at hc
  split at hc
  · rcases List.mem_append.mp hc with hc | hc
    · unfold reprogramCalls at hc
      split at hc
      · rcases List.mem_append.mp hc with hc | hc
        · exact quiet_of_mem_programCalls i e c hc
        · simp_all [quiet]
      · simp at hc
    · unfold propagateCalls at hc
      split at hc
      · cases List.mem_singleton.mp hc
        split <;> exact fun _ => Call.noConfusion
      · simp at hc
  · simp at hc

/-- What a transaction makes of the log: `msx.new` starts it, every other adds calls to it (R47, R210). -/
theorem FnChange.log_cases {p : Params} {o : Operands} {fr fr' : FnRec} {i : Instr} (h : FnChange p o fr i fr') :
    (fr.msx = none ∧ fr'.log = []) ∨ growsQuietly fr.log fr'.log := by
  cases h with
  | msxNew n hnone => exact .inl ⟨hnone, rfl⟩
  | capNew | capSetctl => exact .inr (growsQuietly_refl fr.log)
  | unchanged _ m fr0 reg hs => exact .inr (hs.log ▸ growsQuietly_refl fr.log)
  | transitionOk => exact .inr (growsQuietly_allOk (quiet_of_mem_transitionCalls _ _ _ _) fr.log)
  | transitionErr _ m fr0 reg hs hm hf k c e hk =>
    exact .inr (growsQuietly_failed (quiet_of_mem_transitionCalls _ _ _ _) fr.log hk e)
  | tblWrOk => exact .inr (growsQuietly_allOk (quiet_of_mem_tableWriteCalls _ _ _ _ _) fr.log)
  | tblWrErr m off d old hm ha k c e hk =>
    exact .inr (growsQuietly_failed (quiet_of_mem_tableWriteCalls _ _ _ _ _) fr.log hk e)
  | pbaRd m len off hm he orc => exact .inr (growsQuietly_pbaBytes m _ _ fr.log orc)

/-- Settles O52: every change of a record starts its log or adds quiet calls to it. -/
theorem logsOnlyGrowAndNeverNotify : Obligations.LogsOnlyGrowAndNeverNotify := fun _ _ f h =>
  step_fnRec (R := fun fr fr' => (fr.msx = none ∧ fr'.log = []) ∨ growsQuietly fr.log fr'.log)
    (fun fr => .inr (growsQuietly_refl fr.log)) FnChange.log_cases h f

/-! ## What a guest may change -/

/-- A guest's attempt at a host transaction is refused before any other check of it (R277, log 13). -/
theorem exec_host_of_guest {i : Instr} {s : State} (hg : fromHost s = false) (hi : isHostInstr i = true) :
    exec i s = .refused .guestPrivilege := by
  cases i with
  | rootCreate | rootAddBus | rootGetBus | rootActivate | rootResources | capNew | capSetctl | capQMasked | capQEnabled
  | capQTableOffset | capQPbaOffset | capQTableBir | capQPbaBir | capQTableSize | msxNew | msxSetctl | msxQEnabled | msxQMasked =>
    exact hostOnly_of_guest hg
  | ecamRd | ecamWr | pioRdAddr | pioWrAddr | pioRdData | pioWrData | pioRdOor | pioWrOor | capRd8 | capWr8 | tblRd | tblWr
  | pbaRd => cases hi

/-- A transaction that runs for a guest is none of the host's. -/
theorem not_isHostInstr_of_next {i : Instr} {s t : State} (hg : fromHost s = false) (h : exec i s = .next t) :
    isHostInstr i = false := by
  cases hi : isHostInstr i with
  | false => rfl
  | true => cases (exec_host_of_guest hg hi).symm.trans h

/-- Of ROOT no guest transaction writes more than IO_ADDR. -/
theorem RootChange.of_guest {s : State} {i : Instr} {ro : Option Root} (h : RootChange s i ro) (hi : isHostInstr i = false) :
    (s.root = none → ro = none) ∧ ∀ r, s.root = some r → ∃ v, ro = some { r with ioAddr := v } := by
  cases h with
  | kept => exact ⟨id, fun r hr => ⟨r.ioAddr, hr⟩⟩
  | written r lane d hr =>
    refine ⟨fun hnone => absurd (hnone.symm.trans hr) (Option.some_ne_none r).symm, fun q hq => ?_⟩
    cases hr.symm.trans hq
    exact ⟨_, rfl⟩
  | created | added | activated => cases hi

theorem FnChange.cap_of_guest {p : Params} {o : Operands} {fr fr' : FnRec} {i : Instr} (h : FnChange p o fr i fr')
    (hi : isHostInstr i = false) : controlled fr.cap fr'.cap := by
  rcases h.cap_cases with hcap | ⟨rfl, -⟩
  · exact hcap
  · cases hi

/-- What is left of an MSX by a guest's transaction `i`: its size, its table but for `tbl.wr`, its flags but for the write of
capability byte 3 (R277). -/
def guestKeepsMsx (i : Instr) (m m' : Msx) : Prop :=
  m'.tbl.length = m.tbl.length ∧ ((∀ off d, i ≠ .tblWr off d) → m'.tbl = m.tbl) ∧
    ((∀ v, i ≠ .capWr8 3 v) → m'.enabled = m.enabled ∧ m'.masked = m.masked)

theorem guestKeepsMsx_refl (i : Instr) (m : Msx) : guestKeepsMsx i m m := ⟨rfl, fun _ => rfl, fun _ => ⟨rfl, rfl⟩⟩

/-- What a guest's transaction leaves of a record: at most the control bits of its capability differ, and it has an MSX if it had. -/
def guestKeeps (i : Instr) (fr fr' : FnRec) : Prop :=
  controlled fr.cap fr'.cap ∧ (fr.msx = none → fr'.msx = none) ∧
    ∀ m, fr.msx = some m → ∃ m', fr'.msx = some m' ∧ guestKeepsMsx i m m'

theorem guestKeeps_refl (i : Instr) (fr : FnRec) : guestKeeps i fr fr :=
  ⟨.inl rfl, id, fun m hm => ⟨m, hm, guestKeepsMsx_refl i m⟩⟩

/-- A record whose MSX was and is there. -/
theorem guestKeeps_of_msx {i : Instr} {fr fr' : FnRec} {m m' : Msx} (hcap : controlled fr.cap fr'.cap) (hm : fr.msx = some m)
    (hm' : fr'.msx = some m') (hkeep : guestKeepsMsx i m m') : guestKeeps i fr fr' := by
  refine ⟨hcap, fun hnone => absurd (hnone.symm.trans hm) (Option.some_ne_none m).symm, fun n hn => ?_⟩
  cases hm.symm.trans hn
  exact ⟨m', hm', hkeep⟩

theorem FnChange.keeps_of_guest {p : Params} {o : Operands} {fr fr' : FnRec} {i : Instr} (h : FnChange p o fr i fr')
    (hi : isHostInstr i = false) : guestKeeps i fr fr' := by
  have hcap := h.cap_of_guest hi
  rcases h.msx_cases with hsame | ⟨n, rfl, -⟩ | ⟨m, en, ma, hinstr, hm, hm'⟩ | ⟨m, off, d, k, e, rfl, hm, hm'⟩
  · exact ⟨hcap, hsame.trans, fun m hm => ⟨m, hsame.trans hm, guestKeepsMsx_refl i m⟩⟩
  · cases hi
  · rcases hinstr with ⟨reg, rfl⟩ | ⟨v, rfl⟩
    · cases hi
    · exact guestKeeps_of_msx hcap hm hm' ⟨rfl, fun _ => rfl, fun hne => absurd rfl (hne v)⟩
  · exact guestKeeps_of_msx hcap hm hm' ⟨List.length_set, fun hne => absurd rfl (hne off d), fun _ => ⟨rfl, rfl⟩⟩

theorem exec_guestKeeps {i : Instr} {s t : State} (h : exec i s = .next t) (hi : isHostInstr i = false) (f : FnHandle) :
    guestKeeps i (s.fnRec f) (t.fnRec f) := by
  rcases exec_fnRec h f with hsame | ⟨-, hfr⟩
  · rw [hsame]
    exact guestKeeps_refl i _
  · exact hfr.keeps_of_guest hi

/-- Settles O47: a host transaction is refused at its first check; for the others, by what a transaction can make of ROOT
(`exec_kept`) and of a record (`exec_fnRec`). -/
theorem guestChangesOnlyItsOwn : Obligations.GuestChangesOnlyItsOwn := by
  intro i s hg
  refine ⟨exec_host_of_guest hg, fun t h => ?_⟩
  have hi := not_isHostInstr_of_next hg h
  obtain ⟨⟨hparams, -⟩, hchange⟩ := exec_kept h
  obtain ⟨hnone, hsome⟩ := hchange.of_guest hi
  have hfn := exec_guestKeeps h hi
  refine ⟨hparams, hnone, hsome, fun f => ?_, fun f c => ?_, fun f => ?_, fun f m => ?_⟩
  · exact (hfn f).1.eq_none
  · exact (hfn f).1.after_of_before
  · exact (hfn f).2.1
  · exact (hfn f).2.2 m

/-! ## Agreement after a control write -/

/-- A write of capability byte 3 stores the control bits and runs the transition on the new MSG_CTL (R182). -/
theorem exec_controlWrite_next {s t : State} {v : Byte} (h : exec (.capWr8 3 v) s = .next t) :
    ∃ c m, (ownFn s).cap = some c ∧ (ownFn s).msx = some m ∧
      t = transition s s.cur.operands.fn { ownFn s with cap := some (c.setControl (controlByte v)) } m
        (c.setControl (controlByte v)).msgCtl := by
  obtain ⟨-, h⟩ := serialized_next h
  obtain ⟨c, m, hc, hm, h⟩ := withFunction_next h
  rw [if_neg (not_not_intro rfl)] at h
  cases h
  exact ⟨c, m, hc, hm, rfl⟩

/-- A transition that answers `done` stores the capability it was given, and flags as the control value says (R211). -/
theorem transition_done {s : State} {f : FnHandle} {fr : FnRec} {m : Msx} {reg : U16}
    (h : (transition s f fr m reg).replies = s.replies ++ [⟨s.cur.agent, .done⟩]) (hm : fr.msx = some m) :
    ((transition s f fr m reg).fnRec f).cap = fr.cap ∧ ∃ m', ((transition s f fr m reg).fnRec f).msx = some m' ∧
      m'.enabled = newEnabled reg ∧ m'.masked = newMasked reg := by
  rcases transition_cases s f fr m reg with ⟨⟨hen, hma⟩, heq⟩ | ⟨-, o', -, heq | ⟨k, c, e, -, heq⟩⟩
  · rw [heq, State.fnRec, mapGet_mapPut_same]
    exact ⟨rfl, m, hm, hen, hma⟩
  · rw [heq, State.fnRec, mapGet_mapPut_same]
    exact ⟨rfl, _, rfl, rfl, rfl⟩
  · rw [heq] at h
    simp at h

/-- Settles O39: the transition ran on the MSG_CTL that the write stored. -/
theorem controlWriteBringsAgreement : Obligations.ControlWriteBringsAgreement := by
  intro s t v h hdone
  obtain ⟨c, m, -, hm, rfl⟩ := exec_controlWrite_next h
  obtain ⟨hcap, m', hm', hen, hma⟩ := transition_done hdone hm
  obtain ⟨⟨-, -, -, -, -, hcur, -⟩, -⟩ := transition_kept s s.cur.operands.fn
    { ownFn s with cap := some (c.setControl (controlByte v)) } m (c.setControl (controlByte v)).msgCtl
  rw [ownFn, hcur]
  exact ⟨_, m', hcap, hm', hen.trans (newEnabled_eq_enableBit _), hma.trans (newMasked_eq_functionMaskBit _),
    enableBit_controlByte c v, functionMaskBit_controlByte c v⟩

end Sys2Proof.Machine
end

section
/-! PROOF. The statements of 10_state.md about the root device and its lock, about a step's events and marks, about the state at reset,
and about the construction of a capability. -/

namespace Sys2Proof.Machine

/-! ## The invariant of the root device -/

theorem rootOk_of_some {s : State} {r : Root} (h : s.root = some r) : rootOk s = (busesOk r && rangesOk r) := by
  rw [rootOk, h]

theorem rootOk_of_none {s : State} (h : s.root = none) : rootOk s = !s.poisoned := by
  rw [rootOk, h]

/-- The invariant speaks of ROOT and its lock alone. -/
theorem rootOk_congr {s t : State} (hr : t.root = s.root) (hp : t.poisoned = s.poisoned) : rootOk t = rootOk s := by
  rw [rootOk, rootOk, hr, hp]

theorem resourcesFit_iff (maxBus : BitVec 8) (pio : List (U16 × Nat)) (mmio : List (U64 × U64)) :
    resourcesFit maxBus pio mmio = true ↔
      pio.length ≤ 1 ∧ mmio.length ≤ 1 ∧ (pio ≠ [] ∨ mmio ≠ []) ∧ (∀ p ∈ pio, p.2 = 8) ∧
        ∀ w ∈ mmio, windowMinimum maxBus ≤ w.2.toNat := by
  simp [resourcesFit, and_assoc, ← not_and_or]

/-- The ranges that `root.create` accepts are the ones R23 asks for. -/
theorem rangesOk_newRoot {maxBus : BitVec 8} {resources : List Resource}
    (h : resourcesFit maxBus (pioRanges resources) (mmioRanges resources) = true) :
    rangesOk (newRoot maxBus resources) = true := by
  obtain ⟨hpio, hmmio, hsome, -, hwindow⟩ := (resourcesFit_iff _ _ _).mp h
  unfold newRoot rangesOk
  generalize pioRanges resources = pio at *
  generalize mmioRanges resources = mmio at *
  match pio, mmio, hpio, hmmio with
  | [], [], _, _ => simp at hsome
  | [], [w], _, _ | [_], [w], _, _ => simpa using hwindow w
  | [_], [], _, _ => simp

/-- An id that `root.add_bus` lets through keeps the map of R26 in form. -/
theorem busesOk_added {r : Root} (h : busesOk r = true) {id : BitVec 8} (hid : id.toNat ≤ r.maxBus.toNat) (b : BusHandle) :
    busesOk { r with buses := mapPut id.toNat b r.buses } = true := by
  simp only [busesOk, Bool.and_eq_true] at h ⊢
  exact ⟨mapWf_mapPut _ _ _ h.1, all_mapPut _ _ _ _ h.2 (decide_eq_true hid)⟩

theorem rootOk_of_rootChange {s t : State} {i : Instr} (h : RootChange s i t.root) (hp : t.poisoned = s.poisoned)
    (hs : rootOk s = true) : rootOk t = true := by
  generalize hro : t.root = ro at h
  cases h with
  | kept => rwa [rootOk_congr hro hp]
  | written r lane d hr | activated r hr =>
    rw [rootOk_of_some hr] at hs
    rwa [rootOk_of_some hro]
  | created maxBus _ hfit => rw [rootOk_of_some hro, rangesOk_newRoot hfit]; rfl
  | added r id hr hid =>
    rw [rootOk_of_some hr, Bool.and_eq_true] at hs
    rw [rootOk_of_some hro, busesOk_added hs.1 hid, Bool.true_and]
    exact hs.2

/-- Settles O54: a transaction makes at most one change of ROOT (`exec_kept`) and none of its lock; a panic poisons the lock of a ROOT
that exists. -/
theorem stepKeepsRootOk : Obligations.StepKeepsRootOk := by
  intro s t hs h
  rcases step_cases h with ⟨iss, rest, i, hexec⟩ | ⟨fw, q, -, rfl⟩ | ⟨q, rfl⟩ | ⟨⟨r, hr⟩, q, -, rfl⟩
  · obtain ⟨⟨-, hpoisoned, -⟩, hroot⟩ := exec_kept hexec
    exact rootOk_of_rootChange hroot hpoisoned hs
  · rw [State.complete_eq]
    exact hs
  · exact hs
  · rw [rootOk_of_some hr] at hs
    rwa [rootOk_of_some (s := (s.setQueue q).poison) hr]

/-! ## The state at reset -/

theorem fnRec_reset (f : FnHandle) : State.reset.fnRec f = FnRec.empty := rfl

/-- Settles O58: nothing is constructed and nothing has gone out. -/
theorem invariantsHoldAtReset : Obligations.InvariantsHoldAtReset := by
  refine ⟨rfl, rfl, rfl, fun f m hm => ?_⟩
  rw [fnRec_reset] at hm
  cases hm

/-! ## Events -/

/-- Settles O5: with nothing of its agent in flight, an issue is decoded and run. -/
theorem stepRunsDecodedTransaction : Obligations.StepRunsDecodedTransaction := by
  intro s iss rest i tail hf hr hq hidle hdecode _
  rw [step_of_event hf hr hq, runEvent, issueEvent, hidle]
  dsimp only
  rw [runCurrent, State.load_cur, hdecode]
  rfl

/-- A `forward` event of an agent with an access in flight takes its second step (R76). -/
theorem step_of_forward {s : State} {a : Agent} {rest : List Slot} {fw : Forward} (hf : s.faulted = false)
    (hr : s.refused = false) (hq : s.queue = .forward a :: rest) (hfw : accessOf a s.inflight = some fw) :
    step s = .next ((s.complete fw).setQueue rest) := by
  rw [step_of_event hf hr hq, runEvent, State.forwardEvent, hfw]

/-- Settles O6: the second step is `State.complete`, and the bytes of a read are those that `drawBytes` draws. -/
theorem forwardedAccessSecondStep : Obligations.ForwardedAccessSecondStep := by
  intro s a rest fw hf hr hq hfw
  have hstep := step_of_forward hf hr hq hfw
  have hagent := accessOf_agent hfw
  subst hagent
  constructor
  · intro n hread
    obtain ⟨hlen, htape, hbe, hpend, hmgr⟩ := drawBytes_spec n s.oracle
    refine ⟨(drawBytes n s.oracle).1, (drawBytes n s.oracle).2, hlen, htape, hbe, hpend, hmgr, ?_⟩
    rw [hstep, State.complete, State.perform, hread]
    rfl
  · intro payload hwrite
    rw [hstep, State.complete, State.perform, hwrite]
    rfl

/-! ## Marks -/

/-- A state with a mark takes no step (log 8). -/
theorem step_of_marked {s : State} (h : s.faulted = true ∨ s.refused = true) :
    step s = .fault .halted ∧ s.faulted = true ∨ step s = .refused .halted ∧ s.refused = true := by
  cases hf : s.faulted with
  | true => exact .inl ⟨by rw [step, if_pos hf], rfl⟩
  | false =>
    have hr : s.refused = true := by simpa [hf] using h
    exact .inr ⟨by rw [step, if_neg (by simp [hf]), if_pos hr], hr⟩

theorem after_of_fault {s : State} {e : Fault} (h : step s = .fault e) : s.after = { s with faulted := true } := by
  rw [State.after, h]
  rfl

theorem after_of_refused {s : State} {e : Refusal} (h : step s = .refused e) : s.after = { s with refused := true } := by
  rw [State.after, h]
  rfl

/-- The mark that a marked state's step sets is set already. -/
theorem after_of_marked {s : State} (h : s.faulted = true ∨ s.refused = true) : s.after = s := by
  rcases step_of_marked h with ⟨hstep, hmark⟩ | ⟨hstep, hmark⟩
  · rw [after_of_fault hstep, ← hmark]
  · rw [after_of_refused hstep, ← hmark]

theorem afterSteps_of_marked {s : State} (h : s.faulted = true ∨ s.refused = true) (n : Nat) : afterSteps n s = s := by
  induction n with
  | zero => rfl
  | succ n ih => rw [afterSteps, after_of_marked h, ih]

/-- Settles O8: `halted` sets the mark that is set already. -/
theorem marksAreNeverCleared : Obligations.MarksAreNeverCleared := by
  refine ⟨fun _ _ => after_of_fault, fun _ _ => after_of_refused, fun n s h => ⟨fun t hnext => ?_, afterSteps_of_marked h n⟩⟩
  rcases step_of_marked h with ⟨hstep, -⟩ | ⟨hstep, -⟩ <;> cases hstep.symm.trans hnext

/-! ## The construction of a capability -/

section
variable {s : State} (hh : fromHost s = true) (ho : s.cur.overlaps = false)
include hh ho

theorem execCapNew_twice {c : Cap} (hc : (ownFn s).cap = some c) : exec .capNew s = .refused .twice := by
  unfold ownFn at hc
  simp only [exec, execCapNew, hostOnly_of_host hh, serialized_ok ho, hc, Option.isSome_some, if_true]

/-- The checks of `cap.new` that come after the one for a capability that exists (R180). -/
theorem execCapNew_fresh (hc : (ownFn s).cap = none) :
    exec .capNew s =
      if s.cur.operands.tableSize = 0 then .refused .tableSize
      else if 2048 ≤ s.cur.operands.tableSize.toNat then .fault .tableSize
      else if builtSizeDiffers (ownFn s) s.cur.operands.tableSize then .refused .tableSize
      else .next ((s.setFn s.cur.operands.fn
        { ownFn s with cap := some (newCap s.params s.cur.operands) }).reply .done) := by
  unfold ownFn at hc ⊢
  simp only [exec, execCapNew, hostOnly_of_host hh, serialized_ok ho, hc, Option.isSome_none, Bool.false_eq_true, if_false]

end

/-- Settles O29: the checks in their order, then the capability that `newCap` packs. -/
theorem capNewConstructs : Obligations.CapNewConstructs := by
  intro s hh ho
  refine ⟨fun c hc => execCapNew_twice hh ho hc, fun hc h0 => ?_, fun hc hbig => ?_, fun m hc h1 hlt hm hne => ?_,
    fun hc h1 hlt hagree => ?_⟩
  · rw [execCapNew_fresh hh ho hc, if_pos (BitVec.eq_of_toNat_eq h0)]
  · rw [execCapNew_fresh hh ho hc, if_neg ((ne_zero_iff_one_le_toNat _).mpr (by omega)), if_pos hbig]
  · have hdiffers : builtSizeDiffers (ownFn s) s.cur.operands.tableSize = true := by
      rw [← Bool.not_eq_false, builtSizeDiffers_eq_false_iff]
      exact fun h => hne (h m hm)
    rw [execCapNew_fresh hh ho hc, if_neg ((ne_zero_iff_one_le_toNat _).mpr h1), if_neg (by omega), if_pos hdiffers]
  · have hsame : ¬ builtSizeDiffers (ownFn s) s.cur.operands.tableSize = true := by
      rw [Bool.not_eq_true, builtSizeDiffers_eq_false_iff]
      exact hagree
    rw [execCapNew_fresh hh ho hc, if_neg ((ne_zero_iff_one_le_toNat _).mpr h1), if_neg (by omega), if_neg hsame]
    exact ⟨_, newCap s.params s.cur.operands, rfl, rfl, fun g hg => State.fnRec_setFn_other s hg _,
      State.fnRec_setFn_same s _ _, rfl, rfl, newCap_msgCtl_toNat _ _ ((ne_zero_iff_one_le_toNat _).mpr h1),
      packOffset_toNat _ _, packOffset_toNat _ _⟩

end Sys2Proof.Machine
end

section
/-! SUPPORT. Config addresses in numbers: an access and the register it decodes to are aligned alike, the bus and the enable bit of
CONFIG_ADDRESS, and what a write of its byte lanes leaves bit by bit. -/

namespace Sys2Proof.Machine

/-! ## Alignment of a decoded address -/

/-- Alignment for 1, 2 or 4 bytes depends on the low two bits alone. -/
theorem checkAlign_congr {len a b : Nat} (h : a % 4 = b % 4) : checkAlign len a = checkAlign len b := by
  rw [Bool.eq_iff_iff, checkAlign_iff, checkAlign_iff]
  refine and_congr_right fun hlen => ?_
  rcases hlen with rfl | rfl | rfl <;> omega

/-- The byte index takes the place of the low two bits of a dword-aligned register (R99, R121). -/
theorem atByte_reg_mod {a : CfgAddr} (h : a.reg.toNat % 4 = 0) (lane : BitVec 2) :
    (a.atByte lane).reg.toNat % 4 = lane.toNat := by
  have hor : (a.reg.toNat ||| lane.toNat) % 2 ^ 2 = lane.toNat % 2 ^ 2 := by
    rw [Nat.or_mod_two_pow, show a.reg.toNat % 2 ^ 2 = 0 from h, Nat.zero_or]
  have hlane := lane.isLt
  have hwide : lane.toNat % 2 ^ 12 = lane.toNat := Nat.mod_eq_of_lt (by omega)
  rw [CfgAddr.atByte, BitVec.toNat_or, BitVec.toNat_setWidth, hwide]
  omega

theorem parseMmio_reg_mod (o : Off) : (parseMmio o).reg.toNat % 4 = 0 := by
  simp only [parseMmio, BitVec.toNat_append, BitVec.toNat_ofNat, Nat.zero_mod, Nat.or_zero, Nat.shiftLeft_eq]
  omega

theorem parseIo_reg_mod (lsb : ExtregLsb) (v : U32) : (parseIo lsb v).reg.toNat % 4 = 0 := by
  have hand (x : Nat) : (x &&& 0xFFC) % 2 ^ 2 = 0 := by
    rw [Nat.and_mod_two_pow]
    exact Nat.and_zero _
  rw [parseIo, BitVec.toNat_and]
  exact hand _

/-- An aligned ECAM access is aligned at the register it decodes to (R70, R121). -/
theorem accessAligned_ecam {len : Nat} {off : Off} (h : checkAlign len off.toNat = true) :
    accessAligned ((parseMmio off).atByte (off.extractLsb' 0 2)) len = true := by
  have hreg : ((parseMmio off).atByte (off.extractLsb' 0 2)).reg.toNat % 4 = off.toNat % 4 := by
    simp [atByte_reg_mod (parseMmio_reg_mod off), BitVec.extractLsb'_toNat]
  rw [accessAligned, checkAlign_congr hreg, h]

/-- An aligned CONFIG_DATA access is aligned at the register it decodes to (R70, R122). -/
theorem accessAligned_data {len : Nat} {lane : BitVec 2} (lsb : ExtregLsb) (v : U32)
    (h : checkAlign len (4 + lane.toNat) = true) : accessAligned ((parseIo lsb v).atByte lane) len = true := by
  have hlane := lane.isLt
  have hreg : ((parseIo lsb v).atByte lane).reg.toNat % 4 = (4 + lane.toNat) % 4 := by
    rw [atByte_reg_mod (parseIo_reg_mod lsb v)]
    omega
  rw [accessAligned, checkAlign_congr hreg, h]

theorem parseIo_bus_toNat (lsb : ExtregLsb) (v : U32) : (parseIo lsb v).bus.toNat = v.toNat / 2 ^ 16 % 2 ^ 8 := by
  rw [parseIo, BitVec.extractLsb'_toNat, Nat.shiftRight_eq_div_pow]

theorem caEnabled_iff (v : U32) : caEnabled v = true ↔ 2 ^ 31 ≤ v.toNat := by
  have hmsb : caEnabled v = v.msb := (BitVec.msb_eq_getLsbD_last v).symm
  rw [hmsb, BitVec.msb_eq_decide, decide_eq_true_iff]

/-! ## The byte lanes of CONFIG_ADDRESS -/

theorem leValue_append (d e : List Byte) : leValue (d ++ e) = 2 ^ (8 * d.length) * leValue e + leValue d := by
  induction d with
  | nil => simp [leValue]
  | cons b rest ih =>
    simp only [List.cons_append, leValue, ih, List.length_cons, Nat.mul_add, Nat.pow_add]
    ring

theorem leValue_lt_two_pow (d : List Byte) : leValue d < 2 ^ (8 * d.length) := by
  rw [Nat.pow_mul]
  exact leValue_lt d

theorem getLsbD_laneMask (len sh i : Nat) :
    (laneMask len sh).getLsbD i = decide (i < 32 ∧ sh ≤ i ∧ i < sh + 8 * len) := by
  rw [laneMask, BitVec.getLsbD_ofNat, Nat.testBit_mul_two_pow, Nat.testBit_two_pow_sub_one, ← Bool.decide_and,
    ← Bool.decide_and, decide_eq_decide]
  omega

/-- A write replaces the bits of its own lanes and no other (R68, R129). -/
theorem getLsbD_laneMerge (v : U32) (sh : Nat) (d : List Byte) {i : Nat} (hi : i < 32) :
    (laneMerge v sh d).getLsbD i =
      if sh ≤ i ∧ i < sh + 8 * d.length then (leValue d).testBit (i - sh) else v.getLsbD i := by
  simp only [laneMerge, BitVec.getLsbD_or, BitVec.getLsbD_and, BitVec.getLsbD_not, getLsbD_laneMask, BitVec.getLsbD_ofNat,
    Nat.testBit_mul_two_pow]
  split <;> rename_i h <;> simp [hi, h]

/-- A write to some lanes and then one to the lanes after them are one write of both byte strings (R68). -/
theorem laneMerge_laneMerge (v : U32) (sh : Nat) (d e : List Byte) :
    laneMerge (laneMerge v sh d) (sh + 8 * d.length) e = laneMerge v sh (d ++ e) := by
  refine BitVec.eq_of_getLsbD_eq fun i hi => ?_
  rw [getLsbD_laneMerge _ _ _ hi, getLsbD_laneMerge _ _ _ hi, getLsbD_laneMerge _ _ _ hi, leValue_append,
    Nat.testBit_two_pow_mul_add _ (leValue_lt_two_pow d), List.length_append]
  have hsub : i - (sh + 8 * d.length) = i - sh - 8 * d.length := by omega
  rw [hsub]
  by_cases hsh : sh ≤ i
  · by_cases hlow : i - sh < 8 * d.length
    · rw [if_neg (by omega), if_pos (by omega), if_pos (by omega), if_pos hlow]
    · rw [if_neg (c := sh ≤ i ∧ i < sh + 8 * d.length) (by omega), if_neg hlow]
      exact if_congr (by omega) rfl rfl
  · rw [if_neg (by omega), if_neg (by omega), if_neg (by omega)]

/-- A write of all four lanes leaves nothing of the old value. -/
theorem laneMerge_word (v w : U32) : laneMerge v 0 (bytesLe 4 w.toNat) = w := by
  refine BitVec.eq_of_getLsbD_eq fun i hi => ?_
  rw [getLsbD_laneMerge _ _ _ hi, if_pos (by rw [bytesLe_length]; omega), leValue_bytesLe,
    Nat.mod_eq_of_lt (b := 256 ^ 4) w.isLt]
  rfl

end Sys2Proof.Machine
end

section
/-! PROOF. Alignment of every access in flight and of every call that has reached a `PciBus` (R70, O56). -/

namespace Sys2Proof.Machine

/-! ## What a transaction can put in flight -/

/-- From `s` to `t` nothing or one aligned access was added to the accesses in flight. -/
def launchesAligned (s t : State) : Prop :=
  t.inflight = s.inflight ∨
    ∃ fw : Forward, accessAligned fw.addr fw.access.length = true ∧ t.inflight = s.inflight ++ [fw]

theorem launchesAligned_of_kept {s t : State} (h : fixedKept s t ∧ rootSideKept s t) : launchesAligned s t := by
  obtain ⟨-, -, hinflight, -⟩ := h
  exact .inl hinflight

theorem forwardOrMiss_launches {s : State} {r : Root} {a : CfgAddr} {acc : Access}
    (ha : accessAligned a acc.length = true) : launchesAligned s (forwardOrMiss s r a acc) := by
  rcases forwardOrMiss_cases s r a acc with ⟨-, heq⟩ | ⟨h, -, heq⟩
  · exact .inl (by rw [heq, State.fallback_inflight])
  · exact .inr ⟨⟨s.cur.agent, h, a, acc⟩, ha, by rw [heq, State.launch_inflight]⟩

theorem ecamAccess_launches {s t : State} {off : Off} {acc : Access} (h : ecamAccess off acc s = .next t) :
    launchesAligned s t := by
  obtain ⟨r, -, -, ⟨-, rfl⟩ | ⟨ha, -, rfl⟩⟩ := ecamAccess_cases h
  · exact .inl rfl
  · exact forwardOrMiss_launches (accessAligned_ecam ha)

theorem dataAccess_launches {s t : State} {lane : BitVec 2} {acc : Access} (h : dataAccess lane acc s = .next t) :
    launchesAligned s t := by
  obtain ⟨r, -, -, -, ⟨-, rfl⟩ | ⟨ha, -, ⟨-, rfl⟩ | ⟨-, rfl⟩⟩⟩ := dataAccess_cases h
  · exact .inl rfl
  · exact .inl rfl
  · exact forwardOrMiss_launches (accessAligned_data _ _ ha)

/-- An ECAM or a CONFIG_DATA access puts at most one aligned access in flight, any other transaction none. -/
theorem exec_launches {i : Instr} {s t : State} (h : exec i s = .next t) : launchesAligned s t := by
  cases i with
  | ecamRd | ecamWr => exact ecamAccess_launches h
  | pioRdData | pioWrData => exact dataAccess_launches h
  | pioRdAddr | pioWrAddr =>
    obtain ⟨r, -, -, -, h⟩ := withPio_next h
    split at h
    · obtain ⟨-, h⟩ := underLock_next h
      cases h
      exact .inl rfl
    · cases h
      exact .inl rfl
  | pioRdOor | pioWrOor =>
    obtain ⟨r, -, -, -, h⟩ := withPio_next h
    cases h
    exact .inl rfl
  | capRd8 | tblRd =>
    obtain ⟨-, h⟩ := serialized_next h
    obtain ⟨c, m, -, -, h⟩ := withFunction_next h
    cases h
    exact .inl rfl
  | capWr8 =>
    obtain ⟨-, h⟩ := serialized_next h
    obtain ⟨c, m, -, -, h⟩ := withFunction_next h
    split at h <;> cases h
    · exact .inl rfl
    · exact launchesAligned_of_kept (transition_kept _ _ _ _ _)
  | tblWr =>
    obtain ⟨-, h⟩ := serialized_next h
    obtain ⟨c, m, -, -, h⟩ := withFunction_next h
    split at h <;> cases h
    · exact .inl rfl
    · exact launchesAligned_of_kept (finishCalls_kept _ _ _ _ _ _)
  | pbaRd =>
    obtain ⟨-, h⟩ := serialized_next h
    obtain ⟨c, m, -, -, h⟩ := withFunction_next h
    split at h <;> cases h <;> exact .inl rfl
  | rootCreate =>
    obtain ⟨-, h⟩ := hostOnly_next h
    split_ifs at h <;> cases h <;> exact .inl rfl
  | rootAddBus =>
    obtain ⟨-, h⟩ := hostOnly_next h
    obtain ⟨r, -, h⟩ := withRoot_next h
    split at h
    · cases h
    · split at h
      · cases h
        exact .inl rfl
      · obtain ⟨-, h⟩ := underLock_next h
        cases h
        exact .inl rfl
  | rootGetBus =>
    obtain ⟨-, h⟩ := hostOnly_next h
    obtain ⟨r, -, h⟩ := withRoot_next h
    split at h
    · cases h
      exact .inl rfl
    · obtain ⟨-, h⟩ := underLock_next h
      cases h
      exact .inl rfl
  | rootActivate =>
    obtain ⟨-, h⟩ := hostOnly_next h
    obtain ⟨r, -, h⟩ := withRoot_next h
    split at h
    · cases h
    · dsimp only at h
      split at h <;> cases h <;> exact .inl rfl
  | rootResources =>
    obtain ⟨-, h⟩ := hostOnly_next h
    obtain ⟨r, -, h⟩ := withRoot_next h
    cases h
    exact .inl rfl
  | capNew | msxNew =>
    obtain ⟨-, h⟩ := hostOnly_next h
    obtain ⟨-, h⟩ := serialized_next h
    split_ifs at h
    cases h
    exact .inl rfl
  | capSetctl | msxQEnabled | msxQMasked =>
    obtain ⟨-, h⟩ := hostOnly_next h
    obtain ⟨-, h⟩ := serialized_next h
    obtain ⟨c, m, -, -, h⟩ := withFunction_next h
    cases h
    exact .inl rfl
  | msxSetctl =>
    obtain ⟨-, h⟩ := hostOnly_next h
    obtain ⟨-, h⟩ := serialized_next h
    obtain ⟨c, m, -, -, h⟩ := withFunction_next h
    cases h
    exact launchesAligned_of_kept (transition_kept _ _ _ _ _)
  | capQMasked | capQEnabled | capQTableOffset | capQPbaOffset | capQTableBir | capQPbaBir | capQTableSize =>
    obtain ⟨c, m, -, -, rfl⟩ := capQuery_next h
    exact .inl rfl

/-! ## The invariant -/

theorem accessesOk_iff (s : State) :
    accessesOk s = true ↔
      (∀ fw ∈ s.inflight, accessAligned fw.addr fw.access.length = true) ∧ ∀ c ∈ s.busLog, busCallAligned c = true := by
  rw [accessesOk, Bool.and_eq_true, List.all_eq_true, List.all_eq_true]

/-- The invariant speaks of the accesses in flight and the calls that went out alone. -/
theorem accessesOk_congr {s t : State} (hi : t.inflight = s.inflight) (hb : t.busLog = s.busLog) :
    accessesOk t = accessesOk s := by
  rw [accessesOk, accessesOk, hi, hb]

theorem accessesOk_of_exec {i : Instr} {s t : State} (h : exec i s = .next t) (hs : accessesOk s = true) :
    accessesOk t = true := by
  obtain ⟨⟨-, -, -, -, -, -, hbus⟩, -⟩ := exec_kept h
  rcases exec_launches h with hsame | ⟨fw, hfw, hadd⟩
  · rwa [accessesOk_congr hsame hbus]
  · obtain ⟨hin, hout⟩ := (accessesOk_iff s).mp hs
    rw [accessesOk_iff, hadd, hbus, List.forall_mem_append, List.forall_mem_singleton]
    exact ⟨⟨hin, hfw⟩, hout⟩

/-- The call an access makes moves its bytes at its address (R45, R69). -/
theorem complete_busLog (s : State) (fw : Forward) :
    ∃ c, (s.complete fw).busLog = s.busLog ++ [c] ∧ busCallAligned c = accessAligned fw.addr fw.access.length := by
  rw [State.complete, State.setInflight_busLog, State.perform]
  cases fw.access with
  | read n => exact ⟨.read fw.handle fw.addr n (drawBytes n s.oracle).1, rfl, rfl⟩
  | write payload => exact ⟨.write fw.handle fw.addr payload, rfl, rfl⟩

theorem accessesOk_complete {s : State} {fw : Forward} (hfw : fw ∈ s.inflight) (hs : accessesOk s = true) :
    accessesOk (s.complete fw) = true := by
  obtain ⟨hin, hout⟩ := (accessesOk_iff s).mp hs
  obtain ⟨c, hbus, hc⟩ := complete_busLog s fw
  rw [accessesOk_iff, hbus, List.forall_mem_append, List.forall_mem_singleton, hc]
  exact ⟨fun g hg => hin g (List.mem_of_mem_eraseP hg), hout, hin fw hfw⟩

/-- Settles O56: a transaction launches aligned accesses only (`exec_launches`), and the second step of an access makes the call
that was launched. -/
theorem stepKeepsAccessesAligned : Obligations.StepKeepsAccessesAligned := by
  intro s t hs h
  rcases step_cases h with ⟨iss, rest, i, hexec⟩ | ⟨fw, q, hfw, rfl⟩ | ⟨q, rfl⟩ | ⟨-, q, -, rfl⟩
  · exact accessesOk_of_exec hexec hs
  · exact accessesOk_complete hfw hs
  · exact hs
  · exact hs

end Sys2Proof.Machine
end

section
/-! PROOF. The statements of 20_memory.md about shared state: CONFIG_ADDRESS as one register for all agents (O19, O23), the root
lock (O24), activation (O27), and the functions apart from each other (O49, O45). -/

namespace Sys2Proof.Machine

/-! ## Accesses that take the root lock -/

/-- ROOT `r` with `v` in CONFIG_ADDRESS, and the answer to the write that stored it (R129). -/
def State.storeAddress (s : State) (r : Root) (v : U32) : State := (s.setRoot { r with ioAddr := v }).reply .done

theorem State.storeAddress_root (s : State) (r : Root) (v : U32) : (s.storeAddress r v).root = some { r with ioAddr := v } := rfl

section
variable {s : State} {r : Root}

theorem forwardOrMiss_of_lookup {a : CfgAddr} {acc : Access} {h : BusHandle} (hbus : busLookup r a.bus = some h) :
    forwardOrMiss s r a acc = s.launch ⟨s.cur.agent, h, a, acc⟩ := by
  rw [forwardOrMiss, hbus]

/-- An aligned ECAM access takes the lock and is forwarded or falls back under it (R75, R124, R125). -/
theorem ecamAccess_of_aligned (hr : s.root = some r) (hm : r.hasMmio = true) {off : Off} {acc : Access}
    (ha : aligned acc.length off.toNat) :
    ecamAccess off acc s =
      underLock s (.next (forwardOrMiss s r ((parseMmio off).atByte (off.extractLsb' 0 2)) acc)) := by
  rw [ecamAccess, withEcam_some hr hm, if_pos ((checkAlign_iff _ _).mpr ha)]

variable (hr : s.root = some r) (hx : s.params.arch = .x86) (hp : r.hasPio = true)
include hr hx hp

/-- An aligned read of CONFIG_ADDRESS takes the lock (R75, R128). -/
theorem exec_pioRdAddr_of_aligned {len : BitVec 8} {lane : BitVec 2} (ha : aligned len.toNat lane.toNat) :
    exec (.pioRdAddr len lane) s =
      underLock s (.next (s.reply (.bytes (laneBytes r.ioAddr (laneShift lane) len.toNat)))) := by
  rw [exec, execPioRdAddr, withPio_some hr hx hp, if_pos ((checkAlign_iff _ _).mpr ha)]

/-- An aligned write of CONFIG_ADDRESS takes the lock (R75, R129). -/
theorem exec_pioWrAddr_of_aligned {lane : BitVec 2} {d : List Byte} (ha : aligned d.length lane.toNat) :
    exec (.pioWrAddr lane d) s =
      underLock s (.next (s.storeAddress r (laneMerge r.ioAddr (laneShift lane) d))) := by
  rw [exec, execPioWrAddr, withPio_some hr hx hp, if_pos ((checkAlign_iff _ _).mpr ha)]
  rfl

/-- An aligned CONFIG_DATA access takes the lock before it looks at the enable bit (R75, R130, R131). -/
theorem dataAccess_of_aligned {lane : BitVec 2} {acc : Access} (ha : aligned acc.length (4 + lane.toNat)) :
    dataAccess lane acc s = underLock s (
      if caEnabled r.ioAddr then .next (forwardOrMiss s r ((parseIo s.params.extregLsb r.ioAddr).atByte lane) acc)
      else .next (s.fallback .caDisabled acc)) := by
  rw [dataAccess, withPio_some hr hx hp, if_pos ((checkAlign_iff _ _).mpr ha)]

/-- An aligned, enabled CONFIG_DATA access to a registered bus is in flight to the address that CONFIG_ADDRESS decodes to (R76,
R130, R131). -/
theorem dataAccess_of_enabled {lane : BitVec 2} {acc : Access} {h : BusHandle} (hlock : s.poisoned = false)
    (ha : aligned acc.length (4 + lane.toNat)) (hen : 2 ^ 31 ≤ r.ioAddr.toNat)
    (hbus : mapGet (r.ioAddr.toNat / 2 ^ 16 % 2 ^ 8) r.buses = some h) :
    dataAccess lane acc s =
      .next (s.launch ⟨s.cur.agent, h, (parseIo s.params.extregLsb r.ioAddr).atByte lane, acc⟩) := by
  have hlookup : busLookup r ((parseIo s.params.extregLsb r.ioAddr).atByte lane).bus = some h := by
    rw [busLookup, CfgAddr.atByte, parseIo_bus_toNat, hbus]
  rw [dataAccess_of_aligned hr hx hp ha, underLock_ok hlock, if_pos ((caEnabled_iff _).mpr hen),
    forwardOrMiss_of_lookup hlookup]

/-- A word written to CONFIG_ADDRESS becomes its value, whatever it held. -/
theorem exec_pioWrAddr_word (hlock : s.poisoned = false) (w : U32) :
    exec (.pioWrAddr 0 (bytesLe 4 w.toNat)) s = .next (s.storeAddress r w) := by
  have ha : aligned (bytesLe 4 w.toNat).length (0 : BitVec 2).toNat := by
    rw [bytesLe_length]
    exact ⟨.inr (.inr rfl), rfl⟩
  rw [exec_pioWrAddr_of_aligned hr hx hp ha, underLock_ok hlock, show laneShift 0 = 0 from rfl, laneMerge_word]

end

/-! ## CONFIG_ADDRESS -/

/-- Settles O19: the second write's lanes begin where the first write's end (`laneMerge_laneMerge`). -/
theorem halfWordWritesCompose : Obligations.HalfWordWritesCompose := by
  intro s r a b c d hr hx hp hlock
  have hlow : aligned [a, b].length (0 : BitVec 2).toNat := by simp [aligned]
  have hhigh : aligned [c, d].length (2 : BitVec 2).toNat := by simp [aligned]
  have hword : aligned [a, b, c, d].length (0 : BitVec 2).toNat := by simp [aligned]
  have hmerge : laneMerge (laneMerge r.ioAddr (laneShift 0) [a, b]) (laneShift 2) [c, d] =
      laneMerge r.ioAddr (laneShift 0) [a, b, c, d] := laneMerge_laneMerge r.ioAddr 0 [a, b] [c, d]
  have hsecond := exec_pioWrAddr_of_aligned (State.storeAddress_root s r (laneMerge r.ioAddr (laneShift 0) [a, b])) hx hp hhigh
  rw [hmerge] at hsecond
  exact ⟨_, _, _, (exec_pioWrAddr_of_aligned hr hx hp hlow).trans (underLock_ok hlock), hsecond.trans (underLock_ok hlock),
    (exec_pioWrAddr_of_aligned hr hx hp hword).trans (underLock_ok hlock), rfl⟩

/-- Settles O23: the second write replaces the whole of the first one's word (`exec_pioWrAddr_word`), and the access decodes
what it finds. -/
theorem configAddressIsShared : Obligations.ConfigAddressIsShared := by
  intro s r a b v w len lane h hr hx hp hlock _ ha hen hbus
  have hfirst := exec_pioWrAddr_word (s := s.setCur a) hr hx hp hlock v
  have hsecond := exec_pioWrAddr_word (s := ((s.setCur a).storeAddress r v).setCur b) (r := { r with ioAddr := v }) rfl hx hp
    hlock w
  have hthird := dataAccess_of_enabled (r := { r with ioAddr := w }) (acc := .read len.toNat)
    (s := ((((s.setCur a).storeAddress r v).setCur b).storeAddress { r with ioAddr := v } w).setCur a) rfl hx hp hlock ha hen hbus
  exact ⟨_, _, _, hfirst, hsecond, hthird, rfl⟩

/-! ## The root lock -/

/-- `root.get_bus` takes the lock for an id that can be registered (R162). -/
theorem exec_rootGetBus_of_le {s : State} {r : Root} {id : BitVec 8} (hh : fromHost s = true) (hr : s.root = some r)
    (hid : id.toNat ≤ r.maxBus.toNat) : exec (.rootGetBus id) s = underLock s (.next (s.reply (.bus (busLookup r id)))) := by
  rw [exec, execRootGetBus, hostOnly_of_host hh, withRoot_some hr, if_neg (by omega)]

/-- `root.add_bus` takes the lock once its own checks have passed (R161). -/
theorem exec_rootAddBus_of_le {s : State} {r : Root} {id : BitVec 8} (hh : fromHost s = true) (hr : s.root = some r)
    (hact : r.activated = false) (hid : id.toNat ≤ r.maxBus.toNat) :
    exec (.rootAddBus id) s =
      underLock s (.next ((s.setRoot { r with buses := mapPut id.toNat s.cur.operands.bus r.buses }).reply .done)) := by
  rw [exec, execRootAddBus, hostOnly_of_host hh, withRoot_some hr, if_neg (by simp [hact]), if_neg (by omega)]

theorem exec_poisoned {i : Instr} {s t : State} (h : exec i s = .next t) : t.poisoned = s.poisoned := by
  obtain ⟨⟨-, hpoisoned, -⟩, -⟩ := exec_kept h
  exact hpoisoned

/-- A step leaves the lock's condition alone, or is the panic of a ROOT that exists (R266, log 9). -/
theorem step_poisoned {s t : State} (h : step s = .next t) :
    t.poisoned = s.poisoned ∨ ∃ r rest, s.root = some r ∧ s.queue = .panic :: rest := by
  rcases step_cases h with ⟨iss, rest, i, hexec⟩ | ⟨fw, q, -, rfl⟩ | ⟨q, rfl⟩ | ⟨⟨r, hr⟩, q, hq, -⟩
  · have hloaded := exec_poisoned hexec
    exact .inl hloaded
  · exact .inl (by rw [State.complete_eq]; rfl)
  · exact .inl rfl
  · exact .inr ⟨r, q, hr, hq⟩

/-- Settles O24: each of the eight transactions by the lemma that says where it takes the lock; the events by `step_poisoned`. -/
theorem poisonedLockFaults : Obligations.PoisonedLockFaults := by
  refine ⟨fun s r hr hlock => ⟨fun hm off => ⟨fun len ha => ?_, fun d ha => ?_⟩,
      fun hx hp lane => ⟨fun len ha => ?_, fun d ha => ?_, fun len ha => ?_, fun d ha => ?_⟩,
      fun hh id hid => ⟨?_, fun hact => ?_⟩⟩,
    fun s rest hf hrf hq => ⟨fun r hr => ?_, fun hr => ?_⟩, fun _ _ _ => exec_poisoned, fun s t h hok hbad => ?_⟩
  · exact (ecamAccess_of_aligned (acc := .read len.toNat) hr hm ha).trans (underLock_poisoned hlock)
  · exact (ecamAccess_of_aligned (acc := .write d) hr hm ha).trans (underLock_poisoned hlock)
  · exact (exec_pioRdAddr_of_aligned hr hx hp ha).trans (underLock_poisoned hlock)
  · exact (exec_pioWrAddr_of_aligned hr hx hp ha).trans (underLock_poisoned hlock)
  · exact (dataAccess_of_aligned (acc := .read len.toNat) hr hx hp ha).trans (underLock_poisoned hlock)
  · exact (dataAccess_of_aligned (acc := .write d) hr hx hp ha).trans (underLock_poisoned hlock)
  · exact (exec_rootGetBus_of_le hh hr hid).trans (underLock_poisoned hlock)
  · exact (exec_rootAddBus_of_le hh hr hact hid).trans (underLock_poisoned hlock)
  · rw [step_of_event hf hrf hq, runEvent, State.panicEvent_of_root hr]
    rfl
  · rw [step_of_event hf hrf hq, runEvent, State.panicEvent_of_noRoot hr]
    rfl
  · refine (step_poisoned h).resolve_left fun hsame => ?_
    rw [hsame, hok] at hbad
    cases hbad

/-! ## Activation -/

/-- Ranges that are registered wait for the commit (R163). -/
theorem foldl_routeStep_registered (ranges : List Resource) (w : Routing) :
    (registered ranges).foldl routeStep w = { w with opened := w.opened ++ ranges } := by
  induction ranges generalizing w with
  | nil => simp [registered]
  | cons rg rest ih =>
    refine (ih (routeStep w ⟨.registerDeviceIo rg, .ok⟩)).trans ?_
    simp [routeStep]

theorem routeStep_routed : ∀ {entry : MgrEntry}, entry ≠ ⟨.commitTx, .ok⟩ → ∀ w, (routeStep w entry).routed = w.routed
  | ⟨.commitTx, .ok⟩, h, _ => absurd rfl h
  | ⟨.commitTx, .err _⟩, _, _ | ⟨.beginTx, _⟩, _, _ | ⟨.cancelTx, _⟩, _, _ => rfl
  | ⟨.registerDeviceIo _, .ok⟩, _, _ | ⟨.registerDeviceIo _, .err _⟩, _, _ => rfl

/-- Calls among which no commit succeeds route nothing (R163, R265). -/
theorem routed_of_no_commit {more : List MgrEntry} (h : ∀ entry ∈ more, entry ≠ ⟨.commitTx, .ok⟩) (w : Routing) :
    (more.foldl routeStep w).routed = w.routed := by
  induction more generalizing w with
  | nil => rfl
  | cons entry rest ih =>
    obtain ⟨hentry, hrest⟩ := List.forall_mem_cons.mp h
    rw [List.foldl_cons, ih hrest, routeStep_routed hentry]

theorem routedRanges_of_no_commit (arch : Arch) (log : List MgrEntry) {more : List MgrEntry}
    (h : ∀ entry ∈ more, entry ≠ ⟨.commitTx, .ok⟩) : routedRanges arch (log ++ more) = routedRanges arch log := by
  rw [routedRanges, List.foldl_append, routed_of_no_commit h]
  rfl

/-- A registration transaction that commits routes its ranges, those whose address space exists (R163, R127). -/
theorem routedRanges_of_commit (arch : Arch) (log : List MgrEntry) (ranges : List Resource) :
    routedRanges arch (log ++ [⟨.beginTx, .ok⟩] ++ registered ranges ++ [⟨.commitTx, .ok⟩]) =
      routedRanges arch log ++ ranges.filter (spaceExists arch) := by
  simp [routedRanges, List.foldl_append, foldl_routeStep_registered, routeStep]

theorem mem_registered_ne_commit {ranges : List Resource} {entry : MgrEntry} (h : entry ∈ registered ranges) :
    entry ≠ ⟨.commitTx, .ok⟩ := by
  obtain ⟨rg, -, rfl⟩ := List.mem_map.mp h
  simp

/-- A registration transaction that ends without a commit, or with one that fails, routes nothing (R265). -/
theorem routedRanges_of_uncommitted (arch : Arch) (log : List MgrEntry) (ranges : List Resource) {last : List MgrEntry}
    (h : ∀ entry ∈ last, entry ≠ ⟨.commitTx, .ok⟩) :
    routedRanges arch (log ++ [⟨.beginTx, .ok⟩] ++ registered ranges ++ last) = routedRanges arch log := by
  rw [List.append_assoc, List.append_assoc]
  refine routedRanges_of_no_commit arch log ?_
  simp only [List.forall_mem_append, List.forall_mem_singleton]
  exact ⟨by simp, fun _ => mem_registered_ne_commit, h⟩

/-- A registration loop that fails routes nothing. -/
theorem routedRanges_registerAll_failed {ranges : List Resource} {log : List MgrEntry} {o : Oracle} {e : Nat}
    (h : (registerAll ranges (log ++ [⟨.beginTx, .ok⟩]) o).failure = some e) (arch : Arch) :
    routedRanges arch (registerAll ranges (log ++ [⟨.beginTx, .ok⟩]) o).log = routedRanges arch log := by
  rcases registerAll_cases ranges (log ++ [⟨.beginTx, .ok⟩]) o with ⟨hnone, -⟩ | ⟨e', -, hlog⟩ | ⟨k, rg, e', -, -, hlog⟩
  · cases hnone.symm.trans h
  · rw [hlog]
    exact routedRanges_of_uncommitted arch log ranges (by simp)
  · rw [hlog]
    exact routedRanges_of_uncommitted arch log (ranges.take k) (by simp)

/-- A registration loop that does not fail has registered every range and committed. -/
theorem registerAll_log_of_ok {ranges : List Resource} {log : List MgrEntry} {o : Oracle}
    (h : (registerAll ranges log o).failure = none) :
    (registerAll ranges log o).log = log ++ registered ranges ++ [⟨.commitTx, .ok⟩] := by
  rcases registerAll_cases ranges log o with ⟨-, hlog⟩ | ⟨e, hsome, -⟩ | ⟨k, rg, e, -, hsome, -⟩
  · exact hlog
  · cases hsome.symm.trans h
  · cases hsome.symm.trans h

/-- A loop for whose ranges and commit the tape holds enough `Ok`s does not fail. -/
theorem registerAll_ok {ranges : List Resource} {log : List MgrEntry} {o : Oracle} {rest : List Answer}
    (h : o.mgr = List.replicate (ranges.length + 1) .ok ++ rest) : (registerAll ranges log o).failure = none := by
  induction ranges generalizing log o with
  | nil => simp [registerAll, Oracle.drawMgr, h]
  | cons rg t ih =>
    have hdraw : o.drawMgr = (.ok, { o with mgr := List.replicate (t.length + 1) .ok ++ rest }) := by
      simp [Oracle.drawMgr, h, List.replicate_succ]
    rw [registerAll, hdraw]
    exact ih rfl

/-- The ranges of ROOT whose address space exists: no port range off X86 (R61, R127). -/
theorem ranges_filter_spaceExists (r : Root) (arch : Arch) :
    r.ranges.filter (spaceExists arch) =
      (if arch = .x86 ∧ r.hasPio = true then [.pio r.ioportBase 8] else []) ++
        (if r.hasMmio then [.mmio r.mmioBase r.mmioSize] else []) := by
  rw [Root.ranges, List.filter_append]
  congr 1
  · cases r.hasPio <;> cases arch <;> rfl
  · cases r.hasMmio <;> rfl

section
variable {s : State} {r : Root} (hh : fromHost s = true) (hr : s.root = some r)
include hh hr

theorem exec_rootActivate_twice (ha : r.activated = true) : exec .rootActivate s = .refused .twice := by
  rw [exec, execRootActivate, hostOnly_of_host hh, withRoot_some hr, if_pos ha]

variable (ha : r.activated = false)
include ha

theorem exec_rootActivate_ok
    (h : (registerAll r.ranges (s.mgrLog ++ [⟨.beginTx, .ok⟩]) s.oracle).failure = none) :
    ∃ o, exec .rootActivate s = .next { s with
      mgrLog := s.mgrLog ++ [⟨.beginTx, .ok⟩] ++ registered r.ranges ++ [⟨.commitTx, .ok⟩], oracle := o,
      root := some { r with activated := true }, replies := s.replies ++ [⟨s.cur.agent, .done⟩] } := by
  refine ⟨(registerAll r.ranges (s.mgrLog ++ [⟨.beginTx, .ok⟩]) s.oracle).oracle, ?_⟩
  rw [exec, execRootActivate, hostOnly_of_host hh, withRoot_some hr, if_neg (by simp [ha])]
  dsimp only
  rw [h, ← registerAll_log_of_ok h]
  rfl

theorem exec_rootActivate_failed {e : Nat}
    (h : (registerAll r.ranges (s.mgrLog ++ [⟨.beginTx, .ok⟩]) s.oracle).failure = some e) :
    ∃ o, exec .rootActivate s = .next { s with
      mgrLog := (registerAll r.ranges (s.mgrLog ++ [⟨.beginTx, .ok⟩]) s.oracle).log, oracle := o,
      replies := s.replies ++ [⟨s.cur.agent, .error (.activateFailed e)⟩] } := by
  refine ⟨(registerAll r.ranges (s.mgrLog ++ [⟨.beginTx, .ok⟩]) s.oracle).oracle, ?_⟩
  rw [exec, execRootActivate, hostOnly_of_host hh, withRoot_some hr, if_neg (by simp [ha])]
  dsimp only
  rw [h]
  rfl

end

/-- Settles O27: the loop commits every range or none, and three `Ok`s are enough for two ranges and the commit. -/
theorem activationIsAllOrNothing : Obligations.ActivationIsAllOrNothing := by
  intro s r hh hr
  refine ⟨exec_rootActivate_twice hh hr, fun ha => ?_, fun ha rest htape => ?_⟩
  · cases hout : (registerAll r.ranges (s.mgrLog ++ [⟨.beginTx, .ok⟩]) s.oracle).failure with
    | none =>
      obtain ⟨o, hexec⟩ := exec_rootActivate_ok hh hr ha hout
      refine ⟨_, hexec, rfl, .inl ⟨rfl, rfl, ?_⟩⟩
      rw [routedRanges_of_commit, ranges_filter_spaceExists]
    | some e =>
      obtain ⟨o, hexec⟩ := exec_rootActivate_failed hh hr ha hout
      exact ⟨_, hexec, rfl, .inr ⟨e, hr, rfl, routedRanges_registerAll_failed hout _⟩⟩
  · obtain ⟨rest', hmgr⟩ : ∃ rest', s.oracle.mgr = List.replicate (r.ranges.length + 1) .ok ++ rest' := by
      rw [htape, Root.ranges]
      cases r.hasPio <;> cases r.hasMmio <;> exact ⟨_, rfl⟩
    obtain ⟨o, hexec⟩ := exec_rootActivate_ok hh hr ha (registerAll_ok hmgr)
    refine ⟨_, hexec, rfl, ?_⟩
    dsimp only
    rw [Root.ranges]
    cases r.hasPio <;> cases r.hasMmio <;> simp [registered]

/-! ## Functions -/

/-- Settles O49: a transaction changes the record of its own function at most (`exec_fnRec`). -/
theorem functionsAreIndependent : Obligations.FunctionsAreIndependent :=
  fun _ _ _ h g hg => (exec_fnRec h g).resolve_right fun ⟨hown, _⟩ => hg hown

/-- A host transaction on a function handle that overlaps another is refused (R77, log 21). -/
theorem hostOnly_serialized_overlap {s : State} {k : Exec} (hh : fromHost s = true) (ho : s.cur.overlaps = true) :
    hostOnly s (serialized s k) = .refused .concurrent :=
  (hostOnly_of_host hh).trans (serialized_overlap ho)

/-- Settles O45: every transaction on a function handle begins with `serialized`, the host's after `hostOnly`. -/
theorem overlappingMsixIsRefused : Obligations.OverlappingMsixIsRefused := by
  intro s ho
  have guest (k : Exec) : serialized s k = .refused .concurrent := serialized_overlap ho
  refine ⟨fun _ => guest _, fun _ _ => guest _, fun _ _ => guest _, fun _ _ => guest _, fun _ _ => guest _, fun hh => ?_⟩
  have host (k : Exec) : hostOnly s (serialized s k) = .refused .concurrent := hostOnly_serialized_overlap hh ho
  exact ⟨host _, fun _ => host _, host _, host _, host _, host _, host _, host _, host _, fun _ => host _, fun _ => host _,
    host _, host _⟩

end Sys2Proof.Machine
end

section
/-! SUPPORT. The descriptor as its four fields, and the printed opcode table read in fields: which descriptors a row matches, and which
row the decoder takes (30_encoding.md R90, R97, R103). -/

namespace Sys2Proof

/-! ## The fields of a descriptor -/

theorem tgtOf_toNat (td : U64) : (tgtOf td).toNat = td.toNat / 2 ^ 60 := by
  have := td.isLt
  rw [tgtOf, BitVec.extractLsb'_toNat, Nat.shiftRight_eq_div_pow]
  omega

theorem opOf_toNat (td : U64) : (opOf td).toNat = td.toNat / 2 ^ 56 % 16 := by
  rw [opOf, BitVec.extractLsb'_toNat, Nat.shiftRight_eq_div_pow]

theorem lenOf_toNat (td : U64) : (lenOf td).toNat = td.toNat / 2 ^ 48 % 256 := by
  rw [lenOf, BitVec.extractLsb'_toNat, Nat.shiftRight_eq_div_pow]

theorem offOf_toNat (td : U64) : (offOf td).toNat = td.toNat % 2 ^ 48 := by
  rw [offOf, BitVec.extractLsb'_toNat, Nat.shiftRight_zero]

theorem toNat_append_eq_add {v w : Nat} (x : BitVec v) (y : BitVec w) : (x ++ y).toNat = x.toNat * 2 ^ w + y.toNat := by
  rw [BitVec.toNat_append, ← Nat.shiftLeft_add_eq_or_of_lt y.isLt, Nat.shiftLeft_eq]

/-- A mask of the high bits of a word clears its low bits. -/
theorem and_highBits_toNat {w : Nat} (x : BitVec w) (k : Nat) :
    (x &&& (BitVec.allOnes w <<< k)).toNat = x.toNat / 2 ^ k * 2 ^ k := by
  have hlt : x.toNat / 2 ^ k * 2 ^ k < 2 ^ w := (Nat.div_mul_le_self _ _).trans_lt x.isLt
  rw [← BitVec.shiftLeft_ushiftRight, BitVec.toNat_shiftLeft, BitVec.toNat_ushiftRight, Nat.shiftRight_eq_div_pow,
    Nat.shiftLeft_eq, Nat.mod_eq_of_lt hlt]

theorem mkTd_toNat (tgt op : BitVec 4) (len : BitVec 8) (off : Off) :
    (mkTd tgt op len off).toNat = 2 ^ 60 * tgt.toNat + 2 ^ 56 * op.toNat + 2 ^ 48 * len.toNat + off.toNat := by
  simp only [mkTd, toNat_append_eq_add]
  omega

section
variable (tgt op : BitVec 4) (len : BitVec 8) (off : Off)

@[simp] theorem tgtOf_mkTd : tgtOf (mkTd tgt op len off) = tgt := by
  apply BitVec.eq_of_toNat_eq
  have hop := op.isLt
  have hlen := len.isLt
  have hoff := off.isLt
  rw [tgtOf_toNat, mkTd_toNat]
  omega

@[simp] theorem opOf_mkTd : opOf (mkTd tgt op len off) = op := by
  apply BitVec.eq_of_toNat_eq
  have hop := op.isLt
  have hlen := len.isLt
  have hoff := off.isLt
  rw [opOf_toNat, mkTd_toNat]
  omega

@[simp] theorem offOf_mkTd : offOf (mkTd tgt op len off) = off := by
  apply BitVec.eq_of_toNat_eq
  have hoff := off.isLt
  rw [offOf_toNat, mkTd_toNat]
  omega

end

/-- A descriptor is its four fields (R90). -/
theorem mkTd_fields (td : U64) : mkTd (tgtOf td) (opOf td) (lenOf td) (offOf td) = td := by
  apply BitVec.eq_of_toNat_eq
  rw [mkTd_toNat, tgtOf_toNat, opOf_toNat, lenOf_toNat, offOf_toNat]
  omega

theorem mkTd_inj {tgt op tgt' op' : BitVec 4} {len len' : BitVec 8} {off off' : Off} :
    mkTd tgt op len off = mkTd tgt' op' len' off' ↔ tgt = tgt' ∧ op = op' ∧ len = len' ∧ off = off' := by
  constructor
  · intro h
    exact ⟨by simpa using congrArg tgtOf h, by simpa using congrArg opOf h,
      by simpa [Laws.EncodesRow.lenOf_mkTd] using congrArg lenOf h, by simpa using congrArg offOf h⟩
  · rintro ⟨rfl, rfl, rfl, rfl⟩
    rfl

/-! ## The rows of the opcode table in fields -/

/-- What a row of the opcode table asks of the four fields: TGT and OP, LEN where the row fixes it, and the bits of OFF above the
`width` low bits that the row leaves free (R97, R103). -/
structure RowShape where
  tgt   : BitVec 4
  op    : BitVec 4
  len   : Option (BitVec 8)
  width : Nat
  high  : Nat

/-- The shape of each row, from the FIELDS of opcode_table.json. -/
def Opcode.shape : Opcode → RowShape
  | .ecamRd => ⟨0x0, 0, none, 48, 0⟩
  | .ecamWr => ⟨0x0, 1, none, 48, 0⟩
  | .pioRdAddr => ⟨0x1, 0, none, 2, 0⟩
  | .pioWrAddr => ⟨0x1, 1, none, 2, 0⟩
  | .pioRdData => ⟨0x1, 0, none, 2, 1⟩
  | .pioWrData => ⟨0x1, 1, none, 2, 1⟩
  | .pioRdOor => ⟨0x1, 0, none, 48, 0⟩
  | .pioWrOor => ⟨0x1, 1, none, 48, 0⟩
  | .capRd8 => ⟨0x2, 0, some 1, 48, 0⟩
  | .capWr8 => ⟨0x2, 1, some 1, 48, 0⟩
  | .tblRd => ⟨0x3, 0, none, 48, 0⟩
  | .tblWr => ⟨0x3, 1, none, 48, 0⟩
  | .pbaRd => ⟨0x4, 0, none, 48, 0⟩
  | .rootCreate => ⟨0x8, 0, some 0, 8, 0⟩
  | .rootAddBus => ⟨0x8, 1, some 0, 8, 0⟩
  | .rootGetBus => ⟨0x8, 2, some 0, 8, 0⟩
  | .rootActivate => ⟨0x8, 3, some 0, 0, 0⟩
  | .rootResources => ⟨0x8, 4, some 0, 0, 0⟩
  | .capNew => ⟨0x9, 0, some 0, 0, 0⟩
  | .capSetctl => ⟨0x9, 1, some 0, 16, 0⟩
  | .capQMasked => ⟨0x9, 2, some 0, 0, 0⟩
  | .capQEnabled => ⟨0x9, 3, some 0, 0, 0⟩
  | .capQTableOffset => ⟨0x9, 4, some 0, 0, 0⟩
  | .capQPbaOffset => ⟨0x9, 5, some 0, 0, 0⟩
  | .capQTableBir => ⟨0x9, 6, some 0, 0, 0⟩
  | .capQPbaBir => ⟨0x9, 7, some 0, 0, 0⟩
  | .capQTableSize => ⟨0x9, 8, some 0, 0, 0⟩
  | .msxNew => ⟨0xA, 0, some 0, 16, 0⟩
  | .msxSetctl => ⟨0xA, 1, some 0, 16, 0⟩
  | .msxQEnabled => ⟨0xA, 2, some 0, 0, 0⟩
  | .msxQMasked => ⟨0xA, 3, some 0, 0, 0⟩

/-- The `match` column of a row of this shape. -/
def RowShape.pattern (sh : RowShape) : U64 :=
  mkTd sh.tgt sh.op (sh.len.getD 0) (BitVec.ofNat 48 (sh.high * 2 ^ sh.width))

/-- The `mask` column of a row of this shape. -/
def RowShape.mask (sh : RowShape) : U64 :=
  mkTd 0xF 0xF (if sh.len.isSome then 0xFF else 0) (BitVec.allOnes 48 <<< sh.width)

/-- The row of the printed table with the name and the shape of `o`. -/
def Opcode.tableRow (o : Opcode) : TableRow := ⟨o, o.shape.pattern, o.shape.mask⟩

/-- The descriptor has a row's shape. -/
def RowShape.holds (sh : RowShape) (td : U64) : Prop :=
  tgtOf td = sh.tgt ∧ opOf td = sh.op ∧ (∀ l, sh.len = some l → lenOf td = l) ∧ (offOf td).toNat / 2 ^ sh.width = sh.high

theorem tableRow_mem_opcodeTable (o : Opcode) : o.tableRow ∈ opcodeTable := by
  cases o <;> decide

theorem eq_tableRow_of_mem_opcodeTable : ∀ r ∈ opcodeTable, r = r.row.tableRow := by
  decide

theorem Opcode.shape_high_lt (o : Opcode) : o.shape.high * 2 ^ o.shape.width < 2 ^ 48 := by
  cases o <;> decide

/-- A mask of the high bits of OFF compares OFF without its low bits. -/
theorem off_and_highBits_iff (off : Off) (width high : Nat) (h : high * 2 ^ width < 2 ^ 48) :
    off &&& (BitVec.allOnes 48 <<< width) = BitVec.ofNat 48 (high * 2 ^ width) ↔ off.toNat / 2 ^ width = high := by
  rw [← BitVec.toNat_inj, and_highBits_toNat, BitVec.toNat_ofNat, Nat.mod_eq_of_lt h]
  exact Nat.mul_left_inj (Nat.two_pow_pos width).ne'

/-- A mask of LEN is all of LEN or nothing of it. -/
theorem len_and_iff (len : BitVec 8) (fixed : Option (BitVec 8)) :
    len &&& (if fixed.isSome then 0xFF else 0) = fixed.getD 0 ↔ ∀ l, fixed = some l → len = l := by
  cases fixed with
  | none => simp
  | some l =>
    have hall : len &&& 0xFF#8 = len := BitVec.and_allOnes
    simp [hall]

/-- A row matches the descriptors of its shape and no other (R97). -/
theorem tableRow_accepts_iff (o : Opcode) (td : U64) : o.tableRow.accepts td = true ↔ o.shape.holds td := by
  have hnibble (x : BitVec 4) : x &&& 0xF = x := BitVec.and_allOnes
  conv_lhs => rw [← mkTd_fields td]
  rw [TableRow.accepts, Opcode.tableRow, beq_iff_eq, RowShape.mask, RowShape.pattern, Laws.EncodesRow.mkTd_and, mkTd_inj,
    hnibble, hnibble, len_and_iff, off_and_highBits_iff _ _ _ o.shape_high_lt, RowShape.holds]

/-! ## The row the decoder takes -/

/-- The two rows of the table that overlap others (R97). -/
def Opcode.isOor (o : Opcode) : Prop := o = .pioRdOor ∨ o = .pioWrOor

theorem pioRow_eq_iff {off : Off} {addr data oor o : Opcode} :
    pioRow off addr data oor = o ↔
      (addr = o ∧ off.toNat / 4 = 0) ∨ (data = o ∧ off.toNat / 4 = 1) ∨ (oor = o ∧ 8 ≤ off.toNat) := by
  unfold pioRow
  split
  next haddr => simp [haddr, show ¬ 8 ≤ off.toNat by omega]
  next haddr =>
    split
    next hdata => simp [hdata, show ¬ 8 ≤ off.toNat by omega]
    next hdata => simp only [haddr, hdata, show 8 ≤ off.toNat by omega, and_true, and_false, false_or]

theorem capRow_eq_some_iff {td : U64} {row o : Opcode} : capRow td row = some o ↔ row = o ∧ lenOf td = 1 := by
  rw [capRow, Option.ite_none_right_eq_some, Option.some_inj, and_comm]

theorem adminRow_eq_some_iff {td : U64} {width : Nat} {row o : Opcode} :
    adminRow td width row = some o ↔ row = o ∧ lenOf td = 0 ∧ (offOf td).toNat / 2 ^ width = 0 := by
  rw [adminRow, Option.ite_none_right_eq_some, Option.some_inj, and_comm,
    Nat.div_eq_zero_iff_lt (Nat.two_pow_pos width)]

/-- The opcode map takes a row only for a descriptor of the row's shape, and an `oor` row only outside the window (R97, R103). -/
theorem holds_of_opcodeOf {td : U64} {o : Opcode} (h : opcodeOf td = some o) :
    o.shape.holds td ∧ (o.isOor → 8 ≤ (offOf td).toNat) := by
  have hfree : (offOf td).toNat / 2 ^ 48 = 0 := Nat.div_eq_of_lt (offOf td).isLt
  unfold opcodeOf at h
  split at h <;> rename_i ht ho <;>
    simp only [capRow_eq_some_iff, adminRow_eq_some_iff, Option.some_inj, pioRow_eq_iff, reduceCtorEq] at h
  -- the three PIO rows of one OP
  case h_3 | h_4 =>
    rcases h with ⟨rfl, hw⟩ | ⟨rfl, hw⟩ | ⟨rfl, hw⟩
    · exact ⟨⟨BitVec.eq_of_toNat_eq ht, BitVec.eq_of_toNat_eq ho, nofun, hw⟩, nofun⟩
    · exact ⟨⟨BitVec.eq_of_toNat_eq ht, BitVec.eq_of_toNat_eq ho, nofun, hw⟩, nofun⟩
    · exact ⟨⟨BitVec.eq_of_toNat_eq ht, BitVec.eq_of_toNat_eq ho, nofun, hfree⟩, fun _ => hw⟩
  -- the capability rows
  case h_5 | h_6 =>
    obtain ⟨rfl, hl⟩ := h
    exact ⟨⟨BitVec.eq_of_toNat_eq ht, BitVec.eq_of_toNat_eq ho, fun _ hfix => hl.trans (Option.some.inj hfix), hfree⟩, nofun⟩
  -- the rows that leave LEN and OFF free
  case h_1 | h_2 | h_7 | h_8 | h_9 =>
    subst h
    exact ⟨⟨BitVec.eq_of_toNat_eq ht, BitVec.eq_of_toNat_eq ho, nofun, hfree⟩, nofun⟩
  -- the administration rows
  all_goals
    obtain ⟨rfl, hl, hw⟩ := h
    exact ⟨⟨BitVec.eq_of_toNat_eq ht, BitVec.eq_of_toNat_eq ho, fun _ hfix => hl.trans (Option.some.inj hfix), hw⟩, nofun⟩

/-- The opcode map takes the row whose shape a descriptor has, an `oor` row where it is outside the window (R97, R103). -/
theorem opcodeOf_of_holds {td : U64} {o : Opcode} (h : o.shape.holds td) (hoor : o.isOor → 8 ≤ (offOf td).toNat) :
    opcodeOf td = some o := by
  obtain ⟨ht, ho, hl, hw⟩ := h
  unfold opcodeOf
  rw [ht, ho]
  cases o
  case pioRdAddr | pioWrAddr => exact congrArg some (pioRow_eq_iff.mpr (.inl ⟨rfl, hw⟩))
  case pioRdData | pioWrData => exact congrArg some (pioRow_eq_iff.mpr (.inr (.inl ⟨rfl, hw⟩)))
  case pioRdOor => exact congrArg some (pioRow_eq_iff.mpr (.inr (.inr ⟨rfl, hoor (.inl rfl)⟩)))
  case pioWrOor => exact congrArg some (pioRow_eq_iff.mpr (.inr (.inr ⟨rfl, hoor (.inr rfl)⟩)))
  case capRd8 | capWr8 => exact capRow_eq_some_iff.mpr ⟨rfl, hl _ rfl⟩
  case ecamRd | ecamWr | tblRd | tblWr | pbaRd => rfl
  all_goals exact adminRow_eq_some_iff.mpr ⟨rfl, hl _ rfl, hw⟩

/-- What the decoder takes for a descriptor: the row whose shape it has, an `oor` row only where no PIO row of the window matches. -/
theorem opcodeOf_eq_some_iff {td : U64} {o : Opcode} :
    opcodeOf td = some o ↔ o.shape.holds td ∧ (o.isOor → 8 ≤ (offOf td).toNat) :=
  ⟨holds_of_opcodeOf, fun h => opcodeOf_of_holds h.1 h.2⟩

end Sys2Proof
end

section
/-! SUPPORT. CONFIG_ADDRESS as a number: what `ca.set` fills it with (30_encoding.md R108), and the device, function and register that
it decodes to (R99, R122). -/

namespace Sys2Proof.Machine

/-- The `or` of a multiple of `2 ^ k` and a number below it is their sum. -/
theorem or_eq_add_of_dvd {a b k : Nat} (ha : 2 ^ k ∣ a) (hb : b < 2 ^ k) : a ||| b = a + b := by
  obtain ⟨c, rfl⟩ := ha
  exact (Nat.two_pow_add_eq_or_of_lt hb c).symm

/-- A field moved up inside a wider word loses no bit. -/
theorem setWidth_shiftLeft_toNat {w v k : Nat} (x : BitVec w) (h : w + k ≤ v) :
    (x.setWidth v <<< k).toNat = 2 ^ k * x.toNat := by
  have hlt : 2 ^ k * x.toNat < 2 ^ v :=
    calc 2 ^ k * x.toNat < 2 ^ k * 2 ^ w := Nat.mul_lt_mul_of_pos_left x.isLt (Nat.two_pow_pos k)
      _ = 2 ^ (w + k) := by rw [← Nat.pow_add, Nat.add_comm]
      _ ≤ 2 ^ v := Nat.pow_le_pow_right (by decide) h
  rw [BitVec.toNat_shiftLeft, BitVec.toNat_setWidth_of_le (by omega), Nat.shiftLeft_eq, Nat.mul_comm, Nat.mod_eq_of_lt hlt]

/-- CONFIG_ADDRESS as `ca.set` fills it: the enable bit, the three numbers and the dword of the register (R108). -/
theorem configAddress_toNat (bus : BitVec 8) (dev : BitVec 5) (fn : BitVec 3) (reg : BitVec 8) :
    (configAddress bus dev fn reg).toNat =
      2 ^ 31 + 2 ^ 16 * bus.toNat + 2 ^ 11 * dev.toNat + 2 ^ 8 * fn.toNat + reg.toNat / 4 * 4 := by
  have hbus := bus.isLt
  have hdev := dev.isLt
  have hfn := fn.isLt
  have hreg := reg.isLt
  have hdword : ((reg &&& 0xFC#8).setWidth 32).toNat = reg.toNat / 4 * 4 :=
    (BitVec.toNat_setWidth_of_le (by decide)).trans (and_highBits_toNat reg 2)
  have h31 : 2 ^ 31 ||| 2 ^ 16 * bus.toNat = 2 ^ 31 + 2 ^ 16 * bus.toNat :=
    or_eq_add_of_dvd (k := 24) (by decide) (by omega)
  have h16 := or_eq_add_of_dvd (k := 16) (a := 2 ^ 31 + 2 ^ 16 * bus.toNat) (b := 2 ^ 11 * dev.toNat) (by omega) (by omega)
  have h11 := or_eq_add_of_dvd (k := 11) (a := 2 ^ 31 + 2 ^ 16 * bus.toNat + 2 ^ 11 * dev.toNat) (b := 2 ^ 8 * fn.toNat)
    (by omega) (by omega)
  simp only [configAddress, BitVec.toNat_or, hdword, setWidth_shiftLeft_toNat bus (show 8 + 16 ≤ 32 by decide),
    setWidth_shiftLeft_toNat dev (show 5 + 11 ≤ 32 by decide), setWidth_shiftLeft_toNat fn (show 3 + 8 ≤ 32 by decide),
    show (0x80000000#32).toNat = 2 ^ 31 from rfl, h31, h16, h11]
  exact or_eq_add_of_dvd (k := 8) (by omega) (by omega)

theorem parseIo_dev_toNat (lsb : ExtregLsb) (v : U32) : (parseIo lsb v).dev.toNat = v.toNat / 2 ^ 11 % 2 ^ 5 := by
  rw [parseIo, BitVec.extractLsb'_toNat, Nat.shiftRight_eq_div_pow]

theorem parseIo_fn_toNat (lsb : ExtregLsb) (v : U32) : (parseIo lsb v).fn.toNat = v.toNat / 2 ^ 8 % 2 ^ 3 := by
  rw [parseIo, BitVec.extractLsb'_toNat, Nat.shiftRight_eq_div_pow]

/-- The register of CONFIG_ADDRESS: its own dword, and above it the extended-register nibble (R99, R122). -/
theorem parseIo_reg_toNat (lsb : ExtregLsb) (v : U32) :
    (parseIo lsb v).reg.toNat = v.toNat % 2 ^ 8 / 4 * 4 + 2 ^ 8 * (extreg lsb v).toNat := by
  have hbyte : ((v.extractLsb' 0 8).setWidth 12).toNat = v.toNat % 2 ^ 8 := by
    rw [BitVec.toNat_setWidth_of_le (by decide), BitVec.extractLsb'_toNat, Nat.shiftRight_zero]
  have hor : v.toNat % 2 ^ 8 ||| 2 ^ 8 * (extreg lsb v).toNat = 2 ^ 8 * (extreg lsb v).toNat + v.toNat % 2 ^ 8 := by
    rw [Nat.or_comm]
    exact or_eq_add_of_dvd (Nat.dvd_mul_right _ _) (by omega)
  have hand (x : BitVec 12) : (x &&& 0xFFC#12).toNat = x.toNat / 2 ^ 2 * 2 ^ 2 := and_highBits_toNat x 2
  rw [parseIo, hand, BitVec.toNat_or, hbyte, setWidth_shiftLeft_toNat (extreg lsb v) (by decide), hor]
  omega

theorem extreg_lsb16_toNat (v : U32) : (extreg .lsb16 v).toNat = v.toNat / 2 ^ 16 % 16 := by
  rw [extreg, BitVec.extractLsb'_toNat, Nat.shiftRight_eq_div_pow]

theorem extreg_lsb24_toNat (v : U32) : (extreg .lsb24 v).toNat = v.toNat / 2 ^ 24 % 16 := by
  rw [extreg, BitVec.extractLsb'_toNat, Nat.shiftRight_eq_div_pow]

/-- The byte index is added to a dword-aligned register (R99, R121). -/
theorem atByte_reg_toNat {a : CfgAddr} (h : a.reg.toNat % 4 = 0) (lane : BitVec 2) :
    (a.atByte lane).reg.toNat = a.reg.toNat + lane.toNat := by
  rw [CfgAddr.atByte, BitVec.toNat_or, BitVec.toNat_setWidth_of_le (by decide)]
  exact or_eq_add_of_dvd (k := 2) (by omega) lane.isLt

end Sys2Proof.Machine
end

section
/-! PROOF. The statements of 30_encoding.md: decoding undoes encoding (O1), the decoder takes the most specific row of the printed table
(O2), the reserved descriptors and their refusal (O3), the descriptors of 95_test_vectors.md (O4), and where `pio.cfgrd` leads (O22). -/

namespace Sys2Proof

open Machine

/-! ## Decoding undoes encoding -/

/-- The eight bytes of a descriptor are read back as the descriptor (log 2). -/
theorem decode_descriptor (td : U64) (rest : List Byte) : decode (bytesLe 8 td.toNat ++ rest) = decodePayload td rest := by
  have hbytes : (bytesLe 8 td.toNat ++ rest).take 8 = bytesLe 8 td.toNat := List.take_left' (bytesLe_length _ _)
  have hrest : (bytesLe 8 td.toNat ++ rest).drop 8 = rest := List.drop_left' (bytesLe_length _ _)
  have htd : BitVec.ofNat 64 (leValue (bytesLe 8 td.toNat)) = td := by
    rw [leValue_bytesLe, Nat.mod_eq_of_lt (b := 256 ^ 8) td.isLt, BitVec.ofNat_toNat, BitVec.setWidth_eq]
  rw [decode, hbytes, hrest, htd, if_neg (by simp)]

theorem decodePayload_of_reserved {td : U64} (h : opcodeOf td = none) (rest : List Byte) :
    decodePayload td rest = .error .reserved := by
  rw [decodePayload, h]

/-- A payload of the length that the descriptor says is taken whole, and what follows it is handed back (R90). -/
theorem decodePayload_append {td : U64} {row : Opcode} {payload : List Byte} (h : opcodeOf td = some row)
    (hlen : payload.length = payloadLength row td) (rest : List Byte) :
    decodePayload td (payload ++ rest) = .ok (assemble row td payload, rest) := by
  rw [decodePayload, h]
  dsimp only
  rw [← hlen, if_neg (by simp), List.take_left, List.drop_left]

open Laws.EncodesRow in
/-- Every transaction's encoding matches its row of the opcode table. -/
theorem encodesRow (i : Instr) : Statement i := by
  cases i with
  | ecamRd len off => exact ecamRd len off
  | ecamWr off payload => exact ecamWr off payload
  | pioRdAddr len lane => exact pioRdAddr len lane
  | pioWrAddr lane payload => exact pioWrAddr lane payload
  | pioRdData len lane => exact pioRdData len lane
  | pioWrData lane payload => exact pioWrData lane payload
  | pioRdOor len off => exact pioRdOor len off
  | pioWrOor off payload => exact pioWrOor off payload
  | capRd8 off => exact capRd8 off
  | capWr8 off value => exact capWr8 off value
  | tblRd len off => exact tblRd len off
  | tblWr off payload => exact tblWr off payload
  | pbaRd len off => exact pbaRd len off
  | rootCreate maxBus => exact rootCreate maxBus
  | rootAddBus id => exact rootAddBus id
  | rootGetBus id => exact rootGetBus id
  | rootActivate => exact rootActivate
  | rootResources => exact rootResources
  | capNew => exact capNew
  | capSetctl value => exact capSetctl value
  | capQMasked => exact capQMasked
  | capQEnabled => exact capQEnabled
  | capQTableOffset => exact capQTableOffset
  | capQPbaOffset => exact capQPbaOffset
  | capQTableBir => exact capQTableBir
  | capQPbaBir => exact capQPbaBir
  | capQTableSize => exact capQTableSize
  | msxNew n => exact msxNew n
  | msxSetctl reg => exact msxSetctl reg
  | msxQEnabled => exact msxQEnabled
  | msxQMasked => exact msxQMasked

open Laws.EncodesRow (rowOf lenOf_mkTd)

/-- A well-formed `oor` access encodes an offset outside the window (R97). -/
theorem outside_of_wellFormed_oor {i : Instr} (hwf : WellFormed i = true) (hoor : (rowOf i).isOor) :
    8 ≤ (offOf (descriptor i)).toNat := by
  rcases hoor with h | h <;> cases i <;> cases h
  case inl.pioRdOor len off =>
    rw [descriptor, offOf_mkTd]
    simpa [WellFormed, outsideWindow] using hwf
  case inr.pioWrOor off payload =>
    rw [descriptor, offOf_mkTd]
    have hwindow : outsideWindow off = true := (Bool.and_eq_true_iff.mp hwf).1
    simpa [outsideWindow] using hwindow

/-- The decoder takes a well-formed transaction's descriptor for the transaction's own row. -/
theorem opcodeOf_descriptor {i : Instr} (hwf : WellFormed i = true) : opcodeOf (descriptor i) = some (rowOf i) := by
  obtain ⟨r, hmem, hrow, haccepts, -⟩ := encodesRow i hwf
  rw [eq_tableRow_of_mem_opcodeTable r hmem, hrow, tableRow_accepts_iff] at haccepts
  exact opcodeOf_of_holds haccepts (outside_of_wellFormed_oor hwf)

/-- A well-formed transaction's payload is as long as its descriptor says (R93). -/
theorem payloadOf_length {i : Instr} (hwf : WellFormed i = true) :
    (payloadOf i).length = payloadLength (rowOf i) (descriptor i) := by
  obtain ⟨r, -, hrow, -, hlen⟩ := encodesRow i hwf
  rw [encode, List.length_append, bytesLe_length, hrow] at hlen
  exact Nat.add_left_cancel hlen

/-- The low bits of a descriptor are those of its OFF. -/
theorem extractLsb'_mkTd (tgt op : BitVec 4) (len : BitVec 8) (off : Off) {width : Nat} (h : width ≤ 48) :
    (mkTd tgt op len off).extractLsb' 0 width = off.extractLsb' 0 width :=
  BitVec.extractLsb'_append_eq_of_add_le (by omega)

section
variable (tgt op : BitVec 4) (len : BitVec 8)

theorem laneOf_mkTd (high : BitVec 46) (lane : BitVec 2) : laneOf (mkTd tgt op len (high ++ lane)) = lane :=
  (extractLsb'_mkTd tgt op len _ (by decide)).trans BitVec.extractLsb'_append_eq_right

theorem busIdOf_mkTd (high : BitVec 40) (id : BitVec 8) : busIdOf (mkTd tgt op len (high ++ id)) = id :=
  (extractLsb'_mkTd tgt op len _ (by decide)).trans BitVec.extractLsb'_append_eq_right

theorem controlOf_mkTd (high : BitVec 32) (value : U16) : controlOf (mkTd tgt op len (high ++ value)) = value :=
  (extractLsb'_mkTd tgt op len _ (by decide)).trans BitVec.extractLsb'_append_eq_right

end

/-- The operands of a transaction stand in its descriptor and its payload (R93, R94). -/
theorem assemble_descriptor (i : Instr) : assemble (rowOf i) (descriptor i) (payloadOf i) = i := by
  cases i <;>
    simp only [assemble, rowOf, descriptor, payloadOf, lenOf_mkTd, offOf_mkTd, laneOf_mkTd, busIdOf_mkTd, controlOf_mkTd,
      List.headD_cons]

/-- Settles O1: the descriptor is taken for its own row (`opcodeOf_descriptor`), the payload has the length it says, and the operands
are read back (`assemble_descriptor`). -/
theorem decodeInvertsEncode : Obligations.DecodeInvertsEncode := by
  intro i rest hwf
  rw [encode, List.append_assoc, decode_descriptor, decodePayload_append (opcodeOf_descriptor hwf) (payloadOf_length hwf),
    assemble_descriptor]

/-! ## The most specific row -/

/-- A row with fewer fixed bits than `r`, or `r` itself. -/
def TableRow.yieldsTo (r x : TableRow) : Prop := x = r ∨ onesIn x.mask < onesIn r.mask

/-- The choice among rows that yield to `r` yields to `r`, and is `r` where `r` is among them. -/
theorem moreSpecific_yieldsTo {r x : TableRow} {best : Option TableRow} (hbest : ∀ b, best = some b → r.yieldsTo b)
    (hx : r.yieldsTo x) :
    (best = some r ∨ x = r → moreSpecific best x = some r) ∧ ∀ b, moreSpecific best x = some b → r.yieldsTo b := by
  cases best with
  | none => simp [moreSpecific, hx]
  | some b =>
    have hb : r.yieldsTo b := hbest b rfl
    unfold moreSpecific
    dsimp only
    split <;> rename_i hones
    · refine ⟨?_, by simpa using hx⟩
      rintro (hr | rfl)
      · cases hr
        exact congrArg some (hx.resolve_right hones.asymm)
      · rfl
    · refine ⟨?_, by simpa using hb⟩
      rintro (hr | rfl)
      · exact hr
      · exact congrArg some (hb.resolve_right hones)

/-- A row to which all others of a list yield is the one that is selected from the list. -/
theorem foldl_moreSpecific {r : TableRow} {l : List TableRow} {best : Option TableRow} (hmem : best = some r ∨ r ∈ l)
    (hbest : ∀ b, best = some b → r.yieldsTo b) (hl : ∀ x ∈ l, r.yieldsTo x) : l.foldl moreSpecific best = some r := by
  induction l generalizing best with
  | nil => simpa using hmem
  | cons x rest ih =>
    obtain ⟨hx, hrest⟩ := List.forall_mem_cons.mp hl
    obtain ⟨hselected, hkept⟩ := moreSpecific_yieldsTo hbest hx
    rw [List.mem_cons, ← or_assoc] at hmem
    refine ih (hmem.imp_left fun h => hselected (h.imp_right Eq.symm)) hkept hrest

/-- A row that matches, and to which every other matching row yields, is the one R97 selects. -/
theorem tableOpcode_of_yieldsTo {td : U64} {o : Opcode} (haccepts : o.tableRow.accepts td = true)
    (hothers : ∀ o' : Opcode, o'.tableRow.accepts td = true → o.tableRow.yieldsTo o'.tableRow) :
    tableOpcode td = some o := by
  have hselected : (opcodeTable.filter fun r => r.accepts td).foldl moreSpecific none = some o.tableRow := by
    refine foldl_moreSpecific (.inr (List.mem_filter.mpr ⟨tableRow_mem_opcodeTable o, haccepts⟩)) nofun fun x hx => ?_
    obtain ⟨hmem, hx⟩ := List.mem_filter.mp hx
    rw [eq_tableRow_of_mem_opcodeTable x hmem] at hx ⊢
    exact hothers _ hx
  rw [tableOpcode, hselected]
  rfl

theorem tableOpcode_of_no_row {td : U64} (h : ∀ r ∈ opcodeTable, r.accepts td = false) : tableOpcode td = none := by
  rw [tableOpcode, List.filter_eq_nil_iff.mpr (by simpa using h)]
  rfl

/-- The four rows that fix `OFF[47:2]` (R97, R103). -/
def Opcode.isWindow (o : Opcode) : Prop := o = .pioRdAddr ∨ o = .pioRdData ∨ o = .pioWrAddr ∨ o = .pioWrData

theorem onesIn_oor_lt_window {o o' : Opcode} (ho : o.isOor) (ho' : o'.isWindow) :
    onesIn o.tableRow.mask < onesIn o'.tableRow.mask := by
  rcases ho with rfl | rfl <;> rcases ho' with rfl | rfl | rfl | rfl <;> decide

/-- A descriptor of an `oor` row inside the window is one of a more specific row. -/
theorem opcodeOf_of_oor_inside {td : U64} {o : Opcode} (hoor : o.isOor) (h : o.shape.holds td) (hin : (offOf td).toNat < 8) :
    ∃ o', o'.isWindow ∧ opcodeOf td = some o' := by
  have hrow : (offOf td).toNat / 2 ^ 2 = 0 ∨ (offOf td).toNat / 2 ^ 2 = 1 := by omega
  obtain ⟨ht, ho, -, -⟩ := h
  rcases hoor with rfl | rfl <;> rcases hrow with hw | hw
  · exact ⟨.pioRdAddr, .inl rfl, opcodeOf_of_holds ⟨ht, ho, nofun, hw⟩ nofun⟩
  · exact ⟨.pioRdData, .inr (.inl rfl), opcodeOf_of_holds ⟨ht, ho, nofun, hw⟩ nofun⟩
  · exact ⟨.pioWrAddr, .inr (.inr (.inl rfl)), opcodeOf_of_holds ⟨ht, ho, nofun, hw⟩ nofun⟩
  · exact ⟨.pioWrData, .inr (.inr (.inr rfl)), opcodeOf_of_holds ⟨ht, ho, nofun, hw⟩ nofun⟩

/-- A row that matches is the one the decoder takes, or an `oor` row beside a more specific one. -/
theorem opcodeOf_of_accepts {td : U64} {o : Opcode} (h : o.tableRow.accepts td = true) :
    opcodeOf td = some o ∨ o.isOor ∧ ∃ o', o'.isWindow ∧ opcodeOf td = some o' := by
  rw [tableRow_accepts_iff] at h
  by_cases hin : o.isOor ∧ (offOf td).toNat < 8
  · exact .inr ⟨hin.1, opcodeOf_of_oor_inside hin.1 h hin.2⟩
  · exact .inl (opcodeOf_of_holds h fun hoor => Nat.le_of_not_lt fun hlt => hin ⟨hoor, hlt⟩)

theorem accepts_of_opcodeOf {td : U64} {o : Opcode} (h : opcodeOf td = some o) : o.tableRow.accepts td = true :=
  (tableRow_accepts_iff o td).mpr (opcodeOf_eq_some_iff.mp h).1

/-- A descriptor that no row matches is the reserved one (R97, R104). -/
theorem opcodeOf_of_no_row {td : U64} (h : ∀ r ∈ opcodeTable, r.accepts td = false) : opcodeOf td = none := by
  refine Option.eq_none_iff_forall_ne_some.mpr fun o ho => ?_
  exact Bool.false_ne_true ((h _ (tableRow_mem_opcodeTable o)).symm.trans (accepts_of_opcodeOf ho))

/-- The opcode map takes the row that R97 selects from the printed table. -/
theorem opcodeOf_eq_tableOpcode (td : U64) : opcodeOf td = tableOpcode td := by
  cases h : opcodeOf td with
  | none =>
    refine (tableOpcode_of_no_row fun r hr => Bool.eq_false_iff.mpr fun haccepts => ?_).symm
    rw [eq_tableRow_of_mem_opcodeTable r hr] at haccepts
    rcases opcodeOf_of_accepts haccepts with ho | ⟨-, o', -, ho⟩ <;> cases h.symm.trans ho
  | some o =>
    refine (tableOpcode_of_yieldsTo (accepts_of_opcodeOf h) fun o' haccepts => ?_).symm
    rcases opcodeOf_of_accepts haccepts with ho | ⟨hoor, w, hw, ho⟩ <;> cases h.symm.trans ho
    · exact .inl rfl
    · exact .inr (onesIn_oor_lt_window hoor hw)

/-- The two `oor` rows match no common descriptor: their OP differs. -/
theorem oor_accepts_inj {td : U64} {o o' : Opcode} (ho : o.isOor) (ho' : o'.isOor) (h : o.tableRow.accepts td = true)
    (h' : o'.tableRow.accepts td = true) : o = o' := by
  obtain ⟨-, hop, -⟩ := (tableRow_accepts_iff o td).mp h
  obtain ⟨-, hop', -⟩ := (tableRow_accepts_iff o' td).mp h'
  rw [hop] at hop'
  rcases ho with rfl | rfl <;> rcases ho' with rfl | rfl
  · rfl
  · cases hop'
  · cases hop'
  · rfl

/-- Two rows that match one descriptor are an `oor` row and a more specific one (R97). -/
theorem overlap_of_accepts {td : U64} {o o' : Opcode} (hne : o ≠ o') (h : o.tableRow.accepts td = true)
    (h' : o'.tableRow.accepts td = true) : (o.isOor ∧ o'.isWindow) ∨ (o'.isOor ∧ o.isWindow) := by
  rcases opcodeOf_of_accepts h with ho | ⟨hoor, w, hw, ho⟩ <;>
    rcases opcodeOf_of_accepts h' with ho' | ⟨hoor', w', hw', ho'⟩ <;> cases ho.symm.trans ho'
  · exact absurd rfl hne
  · exact .inr ⟨hoor', hw'⟩
  · exact .inl ⟨hoor, hw⟩
  · exact absurd (oor_accepts_inj hoor hoor' h h') hne

/-- Settles O2: the opcode map takes the row of a descriptor's shape (`opcodeOf_eq_some_iff`), and the shapes overlap only where
`overlap_of_accepts` says. -/
theorem decoderSelectsTableRow : Obligations.DecoderSelectsTableRow := by
  refine ⟨opcodeOf_eq_tableOpcode, fun td rest h => decodePayload_of_reserved (opcodeOf_of_no_row h) rest, ?_⟩
  intro td a b ha hb hne haccepts hbaccepts hle
  rw [eq_tableRow_of_mem_opcodeTable a ha] at haccepts hle hne ⊢
  rw [eq_tableRow_of_mem_opcodeTable b hb] at hbaccepts hle hne ⊢
  rcases overlap_of_accepts (fun h => hne (congrArg _ h)) haccepts hbaccepts with ⟨hoor, hwindow⟩ | ⟨hoor, hwindow⟩
  · exact ⟨hoor, onesIn_oor_lt_window hoor hwindow, hwindow⟩
  · exact absurd (onesIn_oor_lt_window hoor hwindow) hle.not_gt

/-! ## The reserved descriptors -/

theorem capRow_eq_none_iff {td : U64} {row : Opcode} : capRow td row = none ↔ (lenOf td).toNat ≠ 1 := by
  rw [capRow, ite_eq_right_iff, imp_iff_not (Option.some_ne_none row), ← BitVec.toNat_inj]
  rfl

theorem adminRow_eq_none_iff {td : U64} {width : Nat} {row : Opcode} :
    adminRow td width row = none ↔ (lenOf td).toNat ≠ 0 ∨ 2 ^ width ≤ (offOf td).toNat := by
  rw [adminRow, ite_eq_right_iff, imp_iff_not (Option.some_ne_none row), not_and_or, not_lt, ← BitVec.toNat_inj]
  rfl

/-- The descriptors without a row are clauses (a) to (f) of R104: where TGT and OP name a row, it is (e) or (f) that reserves; where
they name none, (a) to (d) do. -/
theorem opcodeOf_eq_none_iff (td : U64) : opcodeOf td = none ↔ reservedTd td := by
  unfold reservedTd opcodeOf
  dsimp only
  rw [← tgtOf_toNat, ← opOf_toNat, ← lenOf_toNat, ← offOf_toNat]
  split <;> rename_i ht ho <;> simp only [capRow_eq_none_iff, adminRow_eq_none_iff, reduceCtorEq]
  -- no row has this TGT and OP
  case h_28 =>
    exact iff_of_true trivial (by grind)
  -- one row, or the three PIO rows
  all_goals
    rw [ht, ho]
    simp [freeOffBits]

/-- An issued descriptor that is reserved is refused, whatever bytes follow it (R104). -/
theorem step_of_reserved {s : State} {iss : Issue} {rest : List Slot} {td : U64} {tail : List Byte} (hf : s.faulted = false)
    (hr : s.refused = false) (hq : s.queue = .issue iss :: rest) (hfree : accessOf iss.agent s.inflight = none)
    (hbytes : iss.bytes = bytesLe 8 td.toNat ++ tail) (hreserved : opcodeOf td = none) : step s = .refused .reserved := by
  have hdecode : decode (s.load iss rest).cur.bytes = .error .reserved := by
    rw [State.load, State.setQueue_cur, State.setCur_cur, hbytes, decode_descriptor, decodePayload_of_reserved hreserved]
  rw [step_of_event hf hr hq, runEvent, issueEvent, hfree]
  dsimp only
  rw [runCurrent, hdecode]
  rfl

/-- An ECAM or PIO access is never reserved (R104). -/
theorem not_reservedTd_of_access {tgt op : BitVec 4} (htgt : tgt.toNat ≤ 1) (hop : op.toNat ≤ 1) (len : BitVec 8) (off : Off) :
    ¬ reservedTd (mkTd tgt op len off) := by
  unfold reservedTd
  dsimp only
  rw [← tgtOf_toNat, ← opOf_toNat, tgtOf_mkTd, opOf_mkTd]
  omega

/-- Settles O3: the descriptors without a row are the clauses (`opcodeOf_eq_none_iff`), and one without a row is refused
(`step_of_reserved`). -/
theorem reservedDescriptorsAreRefused : Obligations.ReservedDescriptorsAreRefused :=
  ⟨opcodeOf_eq_none_iff,
    fun _ _ _ td _ hf hr hq hfree hbytes hreserved =>
      step_of_reserved hf hr hq hfree hbytes ((opcodeOf_eq_none_iff td).mpr hreserved),
    fun _ _ len off htgt hop => not_reservedTd_of_access htgt hop len off⟩

/-! ## Printed descriptors -/

/-- Settles O4: each printed word is decoded. -/
theorem printedDescriptorsDecode : Obligations.PrintedDescriptorsDecode := by
  unfold Obligations.PrintedDescriptorsDecode
  decide

/-! ## Where `pio.cfgrd` leads -/

section
variable (lsb : ExtregLsb) (bus : BitVec 8) (dev : BitVec 5) (fn : BitVec 3) (reg : BitVec 8)

theorem parseIo_configAddress_bus : (parseIo lsb (configAddress bus dev fn reg)).bus = bus := by
  apply BitVec.eq_of_toNat_eq
  rw [parseIo_bus_toNat, configAddress_toNat]
  omega

theorem parseIo_configAddress_dev : (parseIo lsb (configAddress bus dev fn reg)).dev = dev := by
  apply BitVec.eq_of_toNat_eq
  rw [parseIo_dev_toNat, configAddress_toNat]
  omega

theorem parseIo_configAddress_fn : (parseIo lsb (configAddress bus dev fn reg)).fn = fn := by
  apply BitVec.eq_of_toNat_eq
  rw [parseIo_fn_toNat, configAddress_toNat]
  omega

/-- The extended-register nibble is the low nibble of the bus at bit 16, and absent at bit 24 (R108). -/
theorem extreg_configAddress_lsb16 : (extreg .lsb16 (configAddress bus dev fn reg)).toNat = bus.toNat % 16 := by
  rw [extreg_lsb16_toNat, configAddress_toNat]
  omega

theorem extreg_configAddress_lsb24 : (extreg .lsb24 (configAddress bus dev fn reg)).toNat = 0 := by
  rw [extreg_lsb24_toNat, configAddress_toNat]
  omega

/-- The register that `pio.cfgrd` reads is its operand, with the extended-register nibble above it (R108). -/
theorem parseIo_configAddress_reg :
    ((parseIo lsb (configAddress bus dev fn reg)).atByte (reg.extractLsb' 0 2)).reg.toNat =
      reg.toNat + 2 ^ 8 * (extreg lsb (configAddress bus dev fn reg)).toNat := by
  have hlane : (reg.extractLsb' 0 2).toNat = reg.toNat % 4 := by rw [BitVec.extractLsb'_toNat, Nat.shiftRight_zero]
  rw [atByte_reg_toNat (parseIo_reg_mod _ _), parseIo_reg_toNat, hlane, configAddress_toNat]
  omega

theorem dataOffset_toNat : (dataOffset reg).toNat = 4 + reg.toNat % 4 := by
  have hlow : ((reg &&& 3).setWidth 48).toNat = reg.toNat % 4 :=
    (BitVec.toNat_setWidth_of_le (by decide)).trans (Nat.and_two_pow_sub_one_eq_mod reg.toNat 2)
  rw [dataOffset, BitVec.toNat_add, hlow]
  change (4 + reg.toNat % 4) % 2 ^ 48 = _
  omega

/-- The two transactions of `pio.cfgrd` are a write of the whole of CONFIG_ADDRESS and a read at CONFIG_DATA (R107, R108). -/
theorem pioCfgrd_eq (len : BitVec 8) :
    pioCfgrd bus dev fn reg len =
      [.pioWrAddr 0 (bytesLe 4 (configAddress bus dev fn reg).toNat), .pioRdData len (reg.extractLsb' 0 2)] := by
  have hoff := dataOffset_toNat reg
  have hlane : (dataOffset reg).extractLsb' 0 2 = reg.extractLsb' 0 2 := by
    apply BitVec.eq_of_toNat_eq
    rw [BitVec.extractLsb'_toNat, BitVec.extractLsb'_toNat, hoff, Nat.shiftRight_zero, Nat.shiftRight_zero]
    omega
  have hread : asmPioRd (dataOffset reg) len = .pioRdData len (reg.extractLsb' 0 2) := by
    rw [asmPioRd, if_neg (by omega), if_pos (by omega), hlane]
  rw [pioCfgrd, hread]
  rfl

end

/-- Settles O22: the write leaves CONFIG_ADDRESS with the operands in it (`exec_pioWrAddr_word`), enabled, and the read is forwarded
to the address that it decodes to (`dataAccess_of_enabled`). -/
theorem pioConfigReadReachesTarget : Obligations.PioConfigReadReachesTarget := by
  intro s r bus dev fn reg len h hr hx hp hlock halign hbus
  have hlane : (4 + (reg.extractLsb' 0 2).toNat) % 4 = reg.toNat % 4 % 4 := by
    rw [BitVec.extractLsb'_toNat, Nat.shiftRight_zero]
    omega
  have hdata : aligned len.toNat (4 + (reg.extractLsb' 0 2).toNat) := by
    rwa [← checkAlign_iff, checkAlign_congr hlane, checkAlign_iff]
  have henabled : 2 ^ 31 ≤ (configAddress bus dev fn reg).toNat := by
    rw [configAddress_toNat]
    omega
  have hlookup : mapGet ((configAddress bus dev fn reg).toNat / 2 ^ 16 % 2 ^ 8) r.buses = some h := by
    rw [← parseIo_bus_toNat s.params.extregLsb, parseIo_configAddress_bus, hbus]
  have hwrite := exec_pioWrAddr_word hr hx hp hlock (configAddress bus dev fn reg)
  have hread := dataAccess_of_enabled (s := s.storeAddress r (configAddress bus dev fn reg)) (acc := .read len.toNat)
    (State.storeAddress_root s r _) hx hp hlock hdata henabled hlookup
  refine ⟨_, _, _, _, _, pioCfgrd_eq bus dev fn reg len, hwrite, hread, rfl,
    parseIo_configAddress_bus s.params.extregLsb bus dev fn reg, parseIo_configAddress_dev s.params.extregLsb bus dev fn reg,
    parseIo_configAddress_fn s.params.extregLsb bus dev fn reg,
    (parseIo_configAddress_reg s.params.extregLsb bus dev fn reg).trans ?_⟩
  cases s.params.extregLsb with
  | lsb16 => rw [extreg_configAddress_lsb16]
  | lsb24 => rw [extreg_configAddress_lsb24, Nat.mul_zero]

end Sys2Proof
end

section
/-! SUPPORT. The ECAM offset and the bytes of CONFIG_ADDRESS in numbers: what `parse_mmio` decodes and what re-encodes it (R121), the
target of an access, and the byte lanes that a read returns and a write leaves (R68, R128, R129). -/

namespace Sys2Proof.Machine

/-! ## ECAM offsets -/

theorem parseMmio_bus_toNat (o : Off) : (parseMmio o).bus.toNat = o.toNat / 2 ^ 20 % 2 ^ 8 := by
  rw [parseMmio, BitVec.extractLsb'_toNat, Nat.shiftRight_eq_div_pow]

theorem parseMmio_dev_toNat (o : Off) : (parseMmio o).dev.toNat = o.toNat / 2 ^ 15 % 2 ^ 5 := by
  rw [parseMmio, BitVec.extractLsb'_toNat, Nat.shiftRight_eq_div_pow]

theorem parseMmio_fn_toNat (o : Off) : (parseMmio o).fn.toNat = o.toNat / 2 ^ 12 % 2 ^ 3 := by
  rw [parseMmio, BitVec.extractLsb'_toNat, Nat.shiftRight_eq_div_pow]

theorem parseMmio_reg_toNat (o : Off) : (parseMmio o).reg.toNat = o.toNat / 4 % 2 ^ 10 * 4 := by
  rw [parseMmio, toNat_append_eq_add, BitVec.extractLsb'_toNat, Nat.shiftRight_eq_div_pow]
  rfl

/-- The forwarded register of an ECAM access is `o[11:0]` (R121). -/
theorem parseMmio_atByte_reg_toNat (o : Off) :
    ((parseMmio o).atByte (o.extractLsb' 0 2)).reg.toNat = o.toNat % 2 ^ 12 := by
  rw [atByte_reg_toNat (parseMmio_reg_mod o), parseMmio_reg_toNat, BitVec.extractLsb'_toNat, Nat.shiftRight_zero]
  omega

/-- The fields of a re-encoded address do not overlap. -/
theorem encodeMmio_toNat (a : CfgAddr) :
    (encodeMmio a).toNat = 2 ^ 20 * a.bus.toNat + 2 ^ 15 * a.dev.toNat + 2 ^ 12 * a.fn.toNat + a.reg.toNat := by
  have hdev := a.dev.isLt
  have hfn := a.fn.isLt
  have h20 : 2 ^ 20 * a.bus.toNat ||| 2 ^ 15 * a.dev.toNat = 2 ^ 20 * a.bus.toNat + 2 ^ 15 * a.dev.toNat :=
    or_eq_add_of_dvd (k := 20) (by omega) (by omega)
  have h15 := or_eq_add_of_dvd (k := 15) (a := 2 ^ 20 * a.bus.toNat + 2 ^ 15 * a.dev.toNat) (b := 2 ^ 12 * a.fn.toNat)
    (by omega) (by omega)
  simp only [encodeMmio, BitVec.toNat_or, setWidth_shiftLeft_toNat a.bus (show 8 + 20 ≤ 48 by decide),
    setWidth_shiftLeft_toNat a.dev (show 5 + 15 ≤ 48 by decide), setWidth_shiftLeft_toNat a.fn (show 3 + 12 ≤ 48 by decide),
    BitVec.toNat_setWidth_of_le (show 12 ≤ 48 by decide), h20, h15]
  exact or_eq_add_of_dvd (k := 12) (by omega) a.reg.isLt

/-! ## The bus of an access -/

/-- The bus that an ECAM access is looked up at (R121, R123). -/
theorem busLookup_ecam (r : Root) (off : Off) :
    busLookup r ((parseMmio off).atByte (off.extractLsb' 0 2)).bus = mapGet (off.toNat / 2 ^ 20 % 2 ^ 8) r.buses := by
  rw [busLookup, CfgAddr.atByte, parseMmio_bus_toNat]

/-- The bus that a CONFIG_DATA access is looked up at (R122, R123). -/
theorem busLookup_data (r : Root) (lsb : ExtregLsb) (v : U32) (lane : BitVec 2) :
    busLookup r ((parseIo lsb v).atByte lane).bus = mapGet (v.toNat / 2 ^ 16 % 2 ^ 8) r.buses := by
  rw [busLookup, CfgAddr.atByte, parseIo_bus_toNat]

/-! ## The bytes of a word -/

theorem getElem?_eq_leValue {d : List Byte} {j : Nat} (h : j < d.length) :
    d[j]? = some (BitVec.ofNat 8 (leValue d / 2 ^ (8 * j))) := by
  rw [Nat.pow_mul]
  conv_lhs => rw [← bytesLe_leValue d]
  exact bytesLe_getElem? _ _ _ h

/-- A read of CONFIG_ADDRESS returns the bytes of its value from the first lane on (R68, R128). -/
theorem laneBytes_eq_map (v : U32) (lane n : Nat) :
    laneBytes v (lane * 8) n = (List.range n).map fun k => BitVec.ofNat 8 (v.toNat / 2 ^ (8 * (lane + k))) := by
  induction n generalizing lane with
  | zero => rfl
  | succ n ih =>
    have hbyte : v.extractLsb' (lane * 8) 8 = BitVec.ofNat 8 (v.toNat / 2 ^ (8 * (lane + 0))) := by
      rw [BitVec.extractLsb', Nat.shiftRight_eq_div_pow, Nat.mul_comm, Nat.add_zero]
    have hnext (k : Nat) : lane + 1 + k = lane + (k + 1) := by omega
    rw [laneBytes, hbyte, ← Nat.succ_mul, ih, List.range_succ_eq_map, List.map_cons, List.map_map]
    simp only [Function.comp_def, hnext, Nat.succ_eq_add_one]

/-- A byte is its eight bits. -/
theorem byte_eq_of_testBit_eq {x y : Nat} (h : ∀ i, i < 8 → x.testBit i = y.testBit i) :
    BitVec.ofNat 8 x = BitVec.ofNat 8 y :=
  BitVec.eq_of_getLsbD_eq fun i hi => by rw [BitVec.getLsbD_ofNat, BitVec.getLsbD_ofNat, h i hi]

/-- Byte `k` after a write: the payload's byte inside the lanes it covers, the old byte elsewhere (R68, R129). -/
theorem byte_laneMerge (v : U32) (lane : Nat) (d : List Byte) {k : Nat} (hk : k < 4) :
    some (BitVec.ofNat 8 ((laneMerge v (lane * 8) d).toNat / 2 ^ (8 * k))) =
      if lane ≤ k ∧ k < lane + d.length then d[k - lane]? else some (BitVec.ofNat 8 (v.toNat / 2 ^ (8 * k))) := by
  by_cases hin : lane ≤ k ∧ k < lane + d.length
  · rw [if_pos hin, getElem?_eq_leValue (by omega)]
    refine congrArg some (byte_eq_of_testBit_eq fun i hi => ?_)
    have hbit : i + 8 * k - lane * 8 = i + 8 * (k - lane) := by omega
    rw [Nat.testBit_div_two_pow, Nat.testBit_div_two_pow, BitVec.testBit_toNat, getLsbD_laneMerge _ _ _ (by omega),
      if_pos (by omega), hbit]
  · rw [if_neg hin]
    refine congrArg some (byte_eq_of_testBit_eq fun i hi => ?_)
    rw [Nat.testBit_div_two_pow, Nat.testBit_div_two_pow, BitVec.testBit_toNat, BitVec.testBit_toNat,
      getLsbD_laneMerge _ _ _ (by omega), if_neg (by omega)]

end Sys2Proof.Machine
end

section
/-! PROOF. The statements of 40_root_access.md: the alignment predicate (O12), the two decodes (O13, O14), and what an access to the
ECAM window (O15), to CONFIG_ADDRESS (O17, O18), to CONFIG_DATA (O20), outside the I/O window (O21) or without one (O16) does. -/

namespace Sys2Proof.Machine

/-! ## The decodes -/

/-- Settles O12: it is the law of `checkAlign`. -/
theorem alignmentPredicate : Obligations.AlignmentPredicate := checkAlign_iff

/-- Settles O13: each decoded field is a quotient of the offset, and re-encoding puts them side by side (`encodeMmio_toNat`). -/
theorem ecamDecodeReencodes : Obligations.EcamDecodeReencodes := by
  intro o
  refine ⟨parseMmio_bus_toNat o, parseMmio_dev_toNat o, parseMmio_fn_toNat o, parseMmio_reg_toNat o,
    parseMmio_atByte_reg_toNat o, ?_⟩
  rw [encodeMmio_toNat, parseMmio_bus_toNat, parseMmio_dev_toNat, parseMmio_fn_toNat, parseMmio_reg_toNat]
  omega

/-- Settles O14: the register is its own dword and the nibble (`parseIo_reg_toNat`), which each position of the nibble reads off
the value. -/
theorem configAddressDecode : Obligations.ConfigAddressDecode := by
  intro lsb v
  refine ⟨parseIo_bus_toNat lsb v, parseIo_dev_toNat lsb v, parseIo_fn_toNat lsb v, ?_⟩
  rw [parseIo_reg_toNat]
  cases lsb with
  | lsb16 =>
    rw [extreg_lsb16_toNat]
    dsimp only
    omega
  | lsb24 =>
    rw [extreg_lsb24_toNat]
    dsimp only
    omega

/-! ## The ECAM window -/

section
variable {s : State} {r : Root}

/-- An access whose bus is not registered falls back (R123). -/
theorem forwardOrMiss_of_no_lookup {a : CfgAddr} {acc : Access} (hbus : busLookup r a.bus = none) :
    forwardOrMiss s r a acc = s.fallback .noBus acc := by
  rw [forwardOrMiss, hbus]

/-- A misaligned ECAM access falls back before it takes the lock (R124, R125, R269). -/
theorem ecamAccess_of_misaligned (hr : s.root = some r) (hm : r.hasMmio = true) {off : Off} {acc : Access}
    (ha : ¬ aligned acc.length off.toNat) : ecamAccess off acc s = .next (s.fallback .align acc) := by
  rw [ecamAccess, withEcam_some hr hm, if_neg (mt (checkAlign_iff _ _).mp ha)]

end

/-- Settles O15: one access for the read and the write, by its checks in their order (R269); the target's fields are those of
O13. -/
theorem ecamAccessForwardsOrFallsBack : Obligations.EcamAccessForwardsOrFallsBack := by
  intro s r off i acc hi hr
  have hexec : exec i s = ecamAccess off acc s := by
    rcases hi with ⟨len, rfl, rfl⟩ | ⟨d, rfl, rfl⟩ <;> rfl
  rw [hexec]
  refine ⟨fun hm => withEcam_absent hr hm, fun hm ha => ?_, fun hm ha hlock hbus => ?_, fun h hm ha hlock hbus => ?_⟩
  · rw [ecamAccess_of_misaligned hr hm ha, fallback_eq]
  · rw [ecamAccess_of_aligned hr hm ha, underLock_ok hlock, forwardOrMiss_of_no_lookup ((busLookup_ecam r off).trans hbus),
      fallback_eq]
  · refine ⟨(parseMmio off).atByte (off.extractLsb' 0 2), parseMmio_bus_toNat off, parseMmio_dev_toNat off,
      parseMmio_fn_toNat off, parseMmio_atByte_reg_toNat off, ?_⟩
    rw [ecamAccess_of_aligned hr hm ha, underLock_ok hlock, forwardOrMiss_of_lookup ((busLookup_ecam r off).trans hbus)]
    rfl

/-! ## The I/O window -/

/-- Every guest access to the I/O window begins with the check of R127. -/
theorem exec_of_isPioInstr {i : Instr} (hi : isPioInstr i) (s : State) : ∃ k, exec i s = withPio s k := by
  rcases hi with ⟨_, _, rfl⟩ | ⟨_, _, rfl⟩ | ⟨_, _, rfl⟩ | ⟨_, _, rfl⟩ | ⟨_, _, rfl⟩ | ⟨_, _, rfl⟩ <;> exact ⟨_, rfl⟩

/-- Settles O16: the check that every such access begins with (`exec_of_isPioInstr`) refuses. -/
theorem pioNeedsRangeAndX86 : Obligations.PioNeedsRangeAndX86 := by
  intro s r i hr hi habsent
  obtain ⟨k, hexec⟩ := exec_of_isPioInstr hi s
  rw [hexec, withPio_absent hr habsent]

section
variable {s : State} {r : Root} (hr : s.root = some r) (hx : s.params.arch = .x86) (hp : r.hasPio = true)
include hr hx hp

/-- A misaligned read of CONFIG_ADDRESS falls back (R128). -/
theorem exec_pioRdAddr_of_misaligned {len : BitVec 8} {lane : BitVec 2} (ha : ¬ aligned len.toNat lane.toNat) :
    exec (.pioRdAddr len lane) s = .next (s.fallback .align (.read len.toNat)) := by
  rw [exec, execPioRdAddr, withPio_some hr hx hp, if_neg (mt (checkAlign_iff _ _).mp ha)]

/-- A misaligned write of CONFIG_ADDRESS is dropped whole (R129). -/
theorem exec_pioWrAddr_of_misaligned {lane : BitVec 2} {d : List Byte} (ha : ¬ aligned d.length lane.toNat) :
    exec (.pioWrAddr lane d) s = .next (s.fallback .align (.write d)) := by
  rw [exec, execPioWrAddr, withPio_some hr hx hp, if_neg (mt (checkAlign_iff _ _).mp ha)]

/-- A misaligned CONFIG_DATA access falls back before it takes the lock (R130, R131, R269). -/
theorem dataAccess_of_misaligned {lane : BitVec 2} {acc : Access} (ha : ¬ aligned acc.length (4 + lane.toNat)) :
    dataAccess lane acc s = .next (s.fallback .align acc) := by
  rw [dataAccess, withPio_some hr hx hp, if_neg (mt (checkAlign_iff _ _).mp ha)]

/-- An access outside the two registers of the window falls back, its alignment unlooked at (R132, R133). -/
theorem oorAccess_eq (acc : Access) : oorAccess acc s = .next (s.fallback .offset acc) := withPio_some hr hx hp

end

/-- Settles O17: by alignment; the lanes that an aligned read returns are bytes of the value (`laneBytes_eq_map`). -/
theorem configAddressRead : Obligations.ConfigAddressRead := by
  intro s r len lane hr hx hp
  refine ⟨fun ha => ?_, fun ha hlock => ?_⟩
  · rw [exec_pioRdAddr_of_misaligned hr hx hp ha, fallback_eq, missed]
  · rw [exec_pioRdAddr_of_aligned hr hx hp ha, underLock_ok hlock, laneShift, laneBytes_eq_map]
    rfl

/-- Settles O18: by alignment; an aligned write leaves the lanes that `byte_laneMerge` says. -/
theorem configAddressWrite : Obligations.ConfigAddressWrite := by
  intro s r lane d hr hx hp
  refine ⟨fun ha => ?_, fun ha hlock => ⟨laneMerge r.ioAddr (laneShift lane) d, ?_, fun k hk => ?_⟩⟩
  · rw [exec_pioWrAddr_of_misaligned hr hx hp ha, fallback_eq, missed]
  · rw [exec_pioWrAddr_of_aligned hr hx hp ha, underLock_ok hlock]
    rfl
  · exact byte_laneMerge r.ioAddr lane.toNat d hk

/-- Settles O20: one access for the read and the write, by its checks in their order (R269); the target's fields are those of O14,
with the byte index added to the register. -/
theorem configDataForwardsOrFallsBack : Obligations.ConfigDataForwardsOrFallsBack := by
  intro s r lane i acc hi hr hx hp
  have hexec : exec i s = dataAccess lane acc s := by
    rcases hi with ⟨len, rfl, rfl⟩ | ⟨d, rfl, rfl⟩ <;> rfl
  rw [hexec]
  refine ⟨fun ha => ?_, fun ha hlock hoff => ?_, fun ha hlock hon hbus => ?_, fun h ha hlock hon hbus => ?_⟩
  · rw [dataAccess_of_misaligned hr hx hp ha, fallback_eq]
  · have hdisabled : ¬ caEnabled r.ioAddr = true := mt (caEnabled_iff _).mp (by omega)
    rw [dataAccess_of_aligned hr hx hp ha, underLock_ok hlock, if_neg hdisabled, fallback_eq]
  · rw [dataAccess_of_aligned hr hx hp ha, underLock_ok hlock, if_pos ((caEnabled_iff _).mpr hon),
      forwardOrMiss_of_no_lookup ((busLookup_data _ _ _ _).trans hbus), fallback_eq]
  · obtain ⟨htarget, hdev, hfn, hreg⟩ := configAddressDecode s.params.extregLsb r.ioAddr
    refine ⟨(parseIo s.params.extregLsb r.ioAddr).atByte lane, htarget, hdev, hfn, ?_,
      dataAccess_of_enabled hr hx hp hlock ha hon hbus⟩
    rw [atByte_reg_toNat (parseIo_reg_mod _ _), hreg]
    exact Nat.add_right_comm _ _ _

/-- Settles O21: both are the access of `oorAccess_eq`. -/
theorem outOfWindowFallsBack : Obligations.OutOfWindowFallsBack := by
  intro s r off hr hx hp _
  refine ⟨fun len => ?_, fun d => ?_⟩
  · exact (oorAccess_eq hr hx hp (.read len.toNat)).trans (congrArg _ (fallback_eq _ _ _))
  · exact (oorAccess_eq hr hx hp (.write d)).trans (congrArg _ (fallback_eq _ _ _))

end Sys2Proof.Machine
end

section
/-! PROOF. The statements of 41_root_admin.md: what `root.create` builds and raises (O11), how a bus is registered (O25) and looked up
(O26), and what `root.resources` reports (O28). -/

namespace Sys2Proof.Machine

/-! ## `root.create` -/

theorem pioRanges_eq_filterMap (resources : List Resource) : pioRanges resources = resources.filterMap asPio := by
  induction resources with
  | nil => rfl
  | cons res rest ih =>
    cases res with
    | pio base size => exact congrArg (List.cons (base, size)) ih
    | mmio _ _ | other _ _ => exact ih

theorem mmioRanges_eq_filterMap (resources : List Resource) : mmioRanges resources = resources.filterMap asMmio := by
  induction resources with
  | nil => rfl
  | cons res rest ih =>
    cases res with
    | mmio base size => exact congrArg (List.cons (base, size)) ih
    | pio _ _ | other _ _ => exact ih

/-- The check of `root.create` is the condition of R160 and R262. -/
theorem resourcesFit_iff_acceptable (maxBus : BitVec 8) (resources : List Resource) :
    resourcesFit maxBus (pioRanges resources) (mmioRanges resources) = true ↔ acceptable maxBus resources := by
  rw [resourcesFit_iff, pioRanges_eq_filterMap, mmioRanges_eq_filterMap, acceptable, not_and_or, windowMinimum]

/-- Of at most one range, there is exactly one where there is any. -/
theorem length_beq_one_of_le_one {α : Type} : ∀ {l : List α}, l.length ≤ 1 → (l.length == 1) = !l.isEmpty
  | [], _ => rfl
  | [_], _ => rfl

/-- The fields of the ROOT that `root.create` builds, read off the ranges of an acceptable list (R23, R49, R160). -/
theorem newRoot_of_acceptable {maxBus : BitVec 8} {resources : List Resource} (h : acceptable maxBus resources) :
    newRoot maxBus resources = {
      maxBus := maxBus,
      hasPio := !(resources.filterMap asPio).isEmpty,
      ioportBase := ((resources.filterMap asPio).head?.map Prod.fst).getD 0,
      hasMmio := !(resources.filterMap asMmio).isEmpty,
      mmioBase := ((resources.filterMap asMmio).head?.map Prod.fst).getD 0,
      mmioSize := ((resources.filterMap asMmio).head?.map Prod.snd).getD 0,
      resources := resources, ioAddr := 0, buses := [], activated := false } := by
  obtain ⟨hpio, hmmio, -⟩ := h
  simp only [newRoot, pioRanges_eq_filterMap, mmioRanges_eq_filterMap, length_beq_one_of_le_one hpio,
    length_beq_one_of_le_one hmmio, List.headD_eq_head?_getD, List.head?_map]

section
variable {s : State} {maxBus : BitVec 8} (hh : fromHost s = true)
include hh

/-- One block has one root device (R160, R292). -/
theorem exec_rootCreate_twice {r : Root} (hr : s.root = some r) : exec (.rootCreate maxBus) s = .refused .twice := by
  rw [exec, execRootCreate, hostOnly_of_host hh, if_pos (by rw [hr]; rfl)]

variable (hr : s.root = none)
include hr

theorem exec_rootCreate_first :
    exec (.rootCreate maxBus) s =
      if resourcesFit maxBus (pioRanges s.cur.operands.resources) (mmioRanges s.cur.operands.resources) then
        .next ((s.setRoot (newRoot maxBus s.cur.operands.resources)).reply .done)
      else .next (s.raise .noResources) := by
  rw [exec, execRootCreate, hostOnly_of_host hh, if_neg (by simp [hr])]

theorem exec_rootCreate_of_acceptable (hacc : acceptable maxBus s.cur.operands.resources) :
    exec (.rootCreate maxBus) s = .next ((s.setRoot (newRoot maxBus s.cur.operands.resources)).reply .done) := by
  rw [exec_rootCreate_first hh hr, if_pos ((resourcesFit_iff_acceptable _ _).mpr hacc)]

theorem exec_rootCreate_of_not_acceptable (hacc : ¬ acceptable maxBus s.cur.operands.resources) :
    exec (.rootCreate maxBus) s = .next (s.raise .noResources) := by
  rw [exec_rootCreate_first hh hr, if_neg (mt (resourcesFit_iff_acceptable _ _).mp hacc)]

end

/-- Settles O11: the check is `acceptable` (`resourcesFit_iff_acceptable`), and what is built from an acceptable list has the
fields of `newRoot_of_acceptable`. -/
theorem rootCreateBuildsOrRaises : Obligations.RootCreateBuildsOrRaises := by
  intro s maxBus hh
  refine ⟨fun r hr => exec_rootCreate_twice hh hr, fun hr hacc => ?_, fun hr hacc => ?_⟩
  · exact exec_rootCreate_of_not_acceptable hh hr hacc
  · rw [exec_rootCreate_of_acceptable hh hr hacc, newRoot_of_acceptable hacc]
    rfl

/-! ## BUSES and the resource list -/

/-- A lookup in a map after one key is set, that key and the others in one equation (D6). -/
theorem mapGet_mapPut {α : Type} (k g : Nat) (v : α) (l : List (Nat × α)) :
    mapGet g (mapPut k v l) = if g = k then some v else mapGet g l := by
  split
  next heq => rw [heq, mapGet_mapPut_same]
  next hne => exact mapGet_mapPut_other hne v l

section
variable {s : State} {r : Root} {id : BitVec 8} (hh : fromHost s = true) (hr : s.root = some r)
include hh hr

/-- A bus cannot be registered any more after activation (R161, R263). -/
theorem exec_rootAddBus_of_activated (hact : r.activated = true) : exec (.rootAddBus id) s = .refused .afterActivate := by
  rw [exec, execRootAddBus, hostOnly_of_host hh, withRoot_some hr, if_pos hact]

/-- An id above MAX_BUS is raised before the lock is taken (R161). -/
theorem exec_rootAddBus_of_lt (hact : r.activated = false) (hid : r.maxBus.toNat < id.toNat) :
    exec (.rootAddBus id) s = .next (s.raise .invalidBusId) := by
  rw [exec, execRootAddBus, hostOnly_of_host hh, withRoot_some hr, if_neg (by simp [hact]), if_pos hid]

/-- For an id above MAX_BUS the map is not consulted (R162). -/
theorem exec_rootGetBus_of_lt (hid : r.maxBus.toNat < id.toNat) :
    exec (.rootGetBus id) s = .next (s.reply (.bus none)) := by
  rw [exec, execRootGetBus, hostOnly_of_host hh, withRoot_some hr, if_pos hid]

theorem exec_rootResources : exec .rootResources s = .next (s.reply (.resources r.resources)) := by
  rw [exec, execRootResources, hostOnly_of_host hh, withRoot_some hr]

end

/-- Settles O25: the checks in their order, then one key of the map is set (`mapGet_mapPut`). -/
theorem addBusRegisters : Obligations.AddBusRegisters := by
  intro s r id hh hr
  refine ⟨fun hact => exec_rootAddBus_of_activated hh hr hact, fun hact hid => exec_rootAddBus_of_lt hh hr hact hid,
    fun hact hid hlock => ⟨mapPut id.toNat s.cur.operands.bus r.buses, ?_, fun b => mapGet_mapPut _ _ _ _⟩⟩
  exact (exec_rootAddBus_of_le hh hr hact hid).trans (underLock_ok hlock)

/-- Settles O26: an id up to MAX_BUS is looked up under the lock, one above it is answered at once. -/
theorem getBusLooksUp : Obligations.GetBusLooksUp := by
  intro s r id hh hr hlock
  split
  next hid => exact (exec_rootGetBus_of_le hh hr hid).trans (underLock_ok hlock)
  next hid => exact exec_rootGetBus_of_lt hh hr (Nat.lt_of_not_le hid)

/-- Settles O28: the answer is the field that holds the list (`exec_rootResources`). -/
theorem resourcesAreReported : Obligations.ResourcesAreReported := fun _ _ hh hr => exec_rootResources hh hr

end Sys2Proof.Machine
end

section
/-! SUPPORT. The capability in numbers: its image, the fields that its accessors read, and MSG_CTL after a control write; and what a
transition depends on. -/

namespace Sys2Proof.Machine

/-! ## The image -/

theorem Cap.image_length (c : Cap) : c.image.length = 12 := by simp [Cap.image]

/-- `le` of the image is the number that R30 lays out. -/
theorem Cap.leValue_image (c : Cap) : leValue c.image = capNumber c := by
  have hctl := c.msgCtl.isLt
  have htable := c.table.isLt
  have hpba := c.pba.isLt
  simp only [Cap.image, leValue_append, leValue_bytesLe, leValue, bytesLe_length, List.length_append, List.length_cons,
    List.length_nil, capNumber]
  omega

/-- A byte of the image, and 0xFF past it (R181). -/
theorem Cap.image_getD (c : Cap) (k : Nat) :
    c.image.getD k 0xFF = if k < 12 then BitVec.ofNat 8 (capNumber c / 256 ^ k) else 0xFF := by
  have hlen := c.image_length
  split
  next hk =>
    rw [List.getD_eq_getElem?_getD, getElem?_eq_leValue (by omega), Option.getD_some, c.leValue_image, Nat.pow_mul]
  next hk => rw [List.getD_eq_default _ _ (by omega)]

/-! ## The fields -/

/-- Clearing the low three bits rounds down to a multiple of 8 (R186, R187). -/
theorem offsetOf_toNat (reg : U32) : (offsetOf reg).toNat = reg.toNat / 8 * 8 := by
  have hreg := reg.isLt
  rw [offsetOf, and_clear_low_bits, BitVec.toNat_shiftLeft, BitVec.toNat_ushiftRight, Nat.shiftRight_eq_div_pow,
    Nat.shiftLeft_eq]
  omega

theorem birOf_toNat (reg : U32) : (birOf reg).toNat = reg.toNat % 8 := by
  rw [birOf, BitVec.toNat_setWidth, BitVec.extractLsb'_toNat, Nat.shiftRight_zero]
  omega

theorem getLsbD_iff (reg : U16) (k : Nat) : reg.getLsbD k = true ↔ reg.toNat / 2 ^ k % 2 = 1 := by
  rw [getLsbD_eq_decide, decide_eq_true_iff]

/-! ## Control writes -/

theorem setControl_high_bits (c : Cap) (data : U16) :
    (c.setControl data).msgCtl.toNat / 2 ^ 14 = data.toNat / 2 ^ 14 := by
  rw [← Nat.shiftRight_eq_div_pow, ← Nat.shiftRight_eq_div_pow, ← BitVec.toNat_ushiftRight, ← BitVec.toNat_ushiftRight]
  congr 1
  apply BitVec.eq_of_getLsbD_eq
  intro k hk
  rw [BitVec.getLsbD_ushiftRight, BitVec.getLsbD_ushiftRight]
  by_cases hbit : 14 + k < 16
  · rw [getLsbD_setControl c data _ hbit, if_neg (by omega)]
  · rw [BitVec.getLsbD_of_ge _ _ (by omega), BitVec.getLsbD_of_ge _ _ (by omega)]

/-- MSG_CTL after a control write: bits 13:0 as they were, bits 15:14 from the control value (R36, R183). -/
theorem setControl_msgCtl_toNat (c : Cap) (data : U16) :
    (c.setControl data).msgCtl.toNat = c.msgCtl.toNat % 2 ^ 14 + data.toNat / 2 ^ 14 * 2 ^ 14 := by
  have hlow := setControl_low_bits c data
  have hhigh := setControl_high_bits c data
  omega

theorem controlByte_toNat (v : Byte) : (controlByte v).toNat = v.toNat * 2 ^ 8 := by
  have hv := v.isLt
  rw [controlByte, BitVec.toNat_shiftLeft, BitVec.toNat_setWidth, Nat.shiftLeft_eq]
  omega

/-- MSG_CTL after a guest byte at offset 3: its bits 7:6 become bits 15:14 (R182). -/
theorem setControl_controlByte_msgCtl_toNat (c : Cap) (v : Byte) :
    (c.setControl (controlByte v)).msgCtl.toNat = c.msgCtl.toNat % 2 ^ 14 + v.toNat / 64 * 2 ^ 14 := by
  rw [setControl_msgCtl_toNat, controlByte_toNat]
  omega

/-! ## What a transition depends on -/

/-- A record stored over one just stored is all that remains of the two. -/
theorem mapGet_mapPut_mapPut {α : Type} (k g : Nat) (v w : α) (l : List (Nat × α)) :
    mapGet g (mapPut k v (mapPut k w l)) = mapGet g (mapPut k v l) := by
  simp only [mapGet_mapPut]
  split <;> rfl

/-- What a transaction that issues calls stores, draws and answers follows from the calls and the oracles: neither the issuer nor what
the function map held before has a part in it (R264). -/
theorem finishCalls_depends_on (o : Oracle) (f : FnHandle) (calls : List Call) (log : List LogEntry) (onOk onErr : FnRec) :
    ∃ (fr' : FnRec) (o' : Oracle) (res : Result), ∀ s : State, s.oracle = o →
      finishCalls s f calls log onOk onErr =
        { s with fns := mapPut f fr' s.fns, oracle := o', replies := s.replies ++ [⟨s.cur.agent, res⟩] } := by
  cases hrun : (runCalls calls log o).failure with
  | none =>
    refine ⟨{ onOk with log := (runCalls calls log o).log }, (runCalls calls log o).oracle, .done, ?_⟩
    rintro s rfl
    exact finishCalls_ok hrun
  | some bad =>
    refine ⟨{ onErr with log := (runCalls calls log o).log }, (runCalls calls log o).oracle,
      .error (.ioError bad.e bad.call bad.position), ?_⟩
    rintro s rfl
    exact finishCalls_err hrun

/-- So it is for a transition, which reads ARCH besides (R211). -/
theorem transition_depends_on (p : Params) (o : Oracle) (f : FnHandle) (fr : FnRec) (m : Msx) (reg : U16) :
    ∃ (fr' : FnRec) (o' : Oracle) (res : Result), ∀ s : State, s.params = p → s.oracle = o →
      transition s f fr m reg =
        { s with fns := mapPut f fr' s.fns, oracle := o', replies := s.replies ++ [⟨s.cur.agent, res⟩] } := by
  by_cases hflags : m.enabled = newEnabled reg ∧ m.masked = newMasked reg
  · refine ⟨fr, o, .done, ?_⟩
    rintro s - rfl
    exact if_pos hflags
  · obtain ⟨fr', o', res, h⟩ := finishCalls_depends_on o f (transitionCalls p.arch m (newEnabled reg) (newMasked reg)) fr.log
      { fr with msx := some { m with enabled := newEnabled reg, masked := newMasked reg } } fr
    refine ⟨fr', o', res, ?_⟩
    rintro s rfl ho
    exact (if_neg hflags).trans (h s ho)

end Sys2Proof.Machine
end

section
/-! PROOF. The statements of 42_msix_cap.md: a read (O31) and a write (O32) of a capability byte, the host's control write (O33) and
the seven accessors (O34). -/

namespace Sys2Proof.Machine

/-! ## What a transaction does on a function that has its capability -/

/-- The record that a guest byte written to offset 3 leaves before the transition runs (R182). -/
def FnRec.controlWritten (fr : FnRec) (c : Cap) (v : Byte) : FnRec :=
  { fr with cap := some (c.setControl (controlByte v)) }

section
variable {s : State} {c : Cap} {m : Msx} (ho : s.cur.overlaps = false) (hc : (ownFn s).cap = some c)
  (hm : (ownFn s).msx = some m)
include ho hc hm

theorem exec_capRd8 (off : Off) : exec (.capRd8 off) s = .next (s.reply (.bytes [c.image.getD off.toNat 0xFF])) := by
  rw [exec, execCapRd8, serialized_ok ho, withFunction_some hc hm]

theorem exec_capWr8_of_ne (v : Byte) {off : Off} (hoff : off ≠ 3) : exec (.capWr8 off v) s = .next (s.reply .done) := by
  rw [exec, execCapWr8, serialized_ok ho, withFunction_some hc hm, if_pos hoff]

theorem exec_capWr8_three (v : Byte) :
    exec (.capWr8 3 v) s = .next (transition s s.cur.operands.fn ((ownFn s).controlWritten c v) m
      (c.setControl (controlByte v)).msgCtl) := by
  rw [exec, execCapWr8, serialized_ok ho, withFunction_some hc hm, if_neg (not_not_intro rfl)]
  rfl

variable (hh : fromHost s = true)
include hh

theorem exec_msxSetctl (reg : U16) :
    exec (.msxSetctl reg) s = .next (transition s s.cur.operands.fn (ownFn s) m reg) := by
  rw [exec, execMsxSetctl, hostOnly_of_host hh, serialized_ok ho, withFunction_some hc hm]
  rfl

theorem exec_capSetctl (value : U16) :
    exec (.capSetctl value) s = .next ((s.setFn s.cur.operands.fn
      { ownFn s with cap := some (c.setControl value) }).reply .done) := by
  rw [exec, execCapSetctl, hostOnly_of_host hh, serialized_ok ho, withFunction_some hc hm]
  rfl

end

/-- Until MSX exists a guest write of any byte is refused (R293, log 11). -/
theorem exec_capWr8_of_msx_none {s : State} (ho : s.cur.overlaps = false) (hm : (ownFn s).msx = none) (off : Off) (v : Byte) :
    exec (.capWr8 off v) s = .refused .noFn := by
  rw [exec, execCapWr8, serialized_ok ho, withFunction_none (.inr hm)]

/-- Settles O31: the byte returned is the image's (`Cap.image_getD`). -/
theorem capByteRead : Obligations.CapByteRead := by
  intro s c off ho hc hmsx
  obtain ⟨m, hm⟩ := Option.ne_none_iff_exists'.mp hmsx
  rw [exec_capRd8 ho hc hm, c.image_getD]
  rfl

/-! ## A write of byte 3 beside `msx.setctl` -/

/-- The state in which `msx.setctl` does what a guest write of capability byte 3 does: the host issues it, and the function already
holds the record `fr` with the new control bits (R182). -/
def State.setctlStart (s : State) (fr : FnRec) : State :=
  { s with cur := { s.cur with agent := .host 0 }, fns := mapPut s.cur.operands.fn fr s.fns }

theorem ownFn_setctlStart (s : State) (fr : FnRec) : ownFn (s.setctlStart fr) = fr :=
  State.fnRec_setFn_same s s.cur.operands.fn fr

theorem exec_msxSetctl_setctlStart {s : State} {fr : FnRec} {c : Cap} {m : Msx} (ho : s.cur.overlaps = false)
    (hc : fr.cap = some c) (hm : fr.msx = some m) (reg : U16) :
    exec (.msxSetctl reg) (s.setctlStart fr) = .next (transition (s.setctlStart fr) s.cur.operands.fn fr m reg) := by
  have hown := ownFn_setctlStart s fr
  have hexec := exec_msxSetctl (s := s.setctlStart fr) ho (hown ▸ hc) (hown ▸ hm) rfl reg
  rwa [hown] at hexec

/-- From `s` and from `setctlStart` the transition stores the same record, leaves the same oracles and answers the same, each to its
issuer. -/
theorem transition_setctlStart (s : State) (fr : FnRec) (m : Msx) (reg : U16) :
    ∃ (fr' : FnRec) (o' : Oracle) (res : Result),
      transition s s.cur.operands.fn fr m reg =
        { s with
          fns := mapPut s.cur.operands.fn fr' s.fns, oracle := o', replies := s.replies ++ [⟨s.cur.agent, res⟩] } ∧
      transition (s.setctlStart fr) s.cur.operands.fn fr m reg =
        { s.setctlStart fr with
          fns := mapPut s.cur.operands.fn fr' (s.setctlStart fr).fns, oracle := o',
          replies := s.replies ++ [⟨.host 0, res⟩] } := by
  obtain ⟨fr', o', res, h⟩ := transition_depends_on s.params s.oracle s.cur.operands.fn fr m reg
  exact ⟨fr', o', res, h s rfl rfl, h (s.setctlStart fr) rfl rfl⟩

/-- Settles O32: at offset 3 the same transition runs on the same record as for `msx.setctl`, and it does not depend on the issuer or
on what the function held before (`transition_setctlStart`). -/
theorem capByteWrite : Obligations.CapByteWrite := by
  intro s c v ho hc
  refine ⟨fun hm off => exec_capWr8_of_msx_none ho hm off v, fun hmsx off hoff => ?_, fun m hm => ?_⟩
  · obtain ⟨m, hm⟩ := Option.ne_none_iff_exists'.mp hmsx
    exact exec_capWr8_of_ne ho hc hm v fun heq => hoff (congrArg BitVec.toNat heq)
  · obtain ⟨fr', o', res, hwrite, hsetctl⟩ :=
      transition_setctlStart s ((ownFn s).controlWritten c v) m (c.setControl (controlByte v)).msgCtl
    have hexecWr8 := exec_capWr8_three ho hc hm v
    have hexecSetctl := exec_msxSetctl_setctlStart (s := s) (fr := (ownFn s).controlWritten c v) ho rfl hm
      (c.setControl (controlByte v)).msgCtl
    rw [hwrite] at hexecWr8
    rw [hsetctl] at hexecSetctl
    have hfns (k : FnHandle) := mapGet_mapPut_mapPut s.cur.operands.fn k fr' ((ownFn s).controlWritten c v) s.fns
    exact ⟨_, _, _, res, setControl_controlByte_msgCtl_toNat c v, hexecWr8, hexecSetctl, rfl,
      fun k => congrArg (Option.getD · FnRec.empty) (hfns k).symm, rfl⟩

/-! ## The host's transactions on the capability -/

/-- Settles O33: one store of the function's record with the new MSG_CTL (`setControl_msgCtl_toNat`). -/
theorem capSetctlWritesControlBits : Obligations.CapSetctlWritesControlBits := by
  intro s c value hh ho hc hmsx
  obtain ⟨m, hm⟩ := Option.ne_none_iff_exists'.mp hmsx
  exact ⟨_, (c.setControl value).msgCtl, exec_capSetctl ho hc hm hh value, setControl_msgCtl_toNat c value,
    State.fnRec_setFn_same s _ _, fun g hg => State.fnRec_setFn_other s hg _, rfl⟩

/-- Settles O34: each accessor answers what it reads off CAP (`capQuery_eq`), and each field it reads is a number of its own. -/
theorem capQueriesReturnFields : Obligations.CapQueriesReturnFields := by
  intro s c hh ho hc hmsx
  obtain ⟨m, hm⟩ := Option.ne_none_iff_exists'.mp hmsx
  have query (f : Cap → Result) : capQuery f s = .next (s.reply (f c)) := capQuery_eq hh ho hc hm
  exact ⟨⟨_, query _, getLsbD_iff c.msgCtl 14⟩, ⟨_, query _, getLsbD_iff c.msgCtl 15⟩,
    ⟨_, query _, offsetOf_toNat c.table⟩, ⟨_, query _, offsetOf_toNat c.pba⟩,
    ⟨_, query _, birOf_toNat c.table⟩, ⟨_, query _, birOf_toNat c.pba⟩, ⟨_, query _, c.tableSize_toNat⟩⟩

end Sys2Proof.Machine
end

section
/-! SUPPORT. The derived back-end view (10_state.md R47) after the calls of a transition and of a table write, each with what it makes of a
view that agrees with its entry (43_msix_state.md R212, R213, R215, R219). -/

namespace Sys2Proof.Machine

/-! ## Where a view is defined -/

/-- The view after calls that all answered `Ok`. -/
theorem beView_append_allOk (i : Nat) (log : List LogEntry) (calls : List Call) :
    beView i (log ++ allOk calls) = calls.foldl (viewOk i) (beView i log) := by
  rw [beView_append, foldl_viewStep_allOk]

/-- Calls that all answer `Ok` keep the view defined. -/
theorem beView_append_allOk_valid {i : Nat} {log : List LogEntry} (h : (beView i log).valid = true) (calls : List Call) :
    (beView i (log ++ allOk calls)).valid = true := by
  rw [beView_append_allOk]
  exact List.foldlRecOn calls (viewOk i) h fun w hw c _ => viewOk_valid i w c hw

/-- Only `reset()` makes an undefined view defined. -/
theorem viewOk_valid_of_ne_reset (i : Nat) (w : BeView) {c : Call} (h : c ≠ .reset) : (viewOk i w c).valid = w.valid := by
  cases c with
  | reset => exact absurd rfl h
  | setMsiHighAddress | setMsiLowAddress | setMsiData | mask | unmask => rw [viewOk]; split <;> rfl
  | setWorkingMode | setMsiDeviceId | enable | update | getGroup | getPendingState | notifier => rfl

theorem foldl_viewOk_valid {calls : List Call} (h : Call.reset ∉ calls) (i : Nat) (w : BeView) :
    (calls.foldl (viewOk i) w).valid = w.valid := by
  induction calls generalizing w with
  | nil => rfl
  | cons c rest ih =>
    rw [List.mem_cons, not_or] at h
    obtain ⟨hc, hrest⟩ := h
    rw [List.foldl_cons, ih hrest, viewOk_valid_of_ne_reset i w (Ne.symm hc)]

/-! ## The calls of a transition -/

theorem reset_notMem_vectorLoop {op : Nat → Call} (hop : ∀ i, op i ≠ .reset) (which : Entry → Bool) (i : Nat) (tbl : List Entry) :
    Call.reset ∉ vectorLoop op which i tbl := by
  rw [vectorLoop_eq, List.mem_map]
  rintro ⟨p, -, hp⟩
  exact hop p.2 hp

theorem reset_notMem_toggleCalls (oldM newM : Bool) (tbl : List Entry) : Call.reset ∉ toggleCalls oldM newM tbl := by
  cases oldM <;> cases newM
  · exact List.not_mem_nil
  · exact reset_notMem_vectorLoop (fun _ => Call.noConfusion) _ 0 tbl
  · exact reset_notMem_vectorLoop (fun _ => Call.noConfusion) _ 0 tbl
  · exact List.not_mem_nil

/-- The calls that enable a function are the enable sequence (R211, R212). -/
theorem transitionCalls_of_disabled {m : Msx} (h : m.enabled = false) (arch : Arch) (newM : Bool) :
    transitionCalls arch m true newM = enableCalls arch m.tbl newM := by
  simp only [transitionCalls, h]

/-- While a function stays enabled the calls are the toggle's (R211, R213). -/
theorem transitionCalls_of_enabled {m : Msx} (h : m.enabled = true) (arch : Arch) (newM : Bool) :
    transitionCalls arch m true newM = toggleCalls m.masked newM m.tbl := by
  simp only [transitionCalls, h]

/-- The enable sequence wires every vector, whatever the view was before (R212). -/
theorem viewMatches_enableCalls (arch : Arch) {tbl : List Entry} {i : Nat} {e : Entry} (he : tbl[i]? = some e) (newM : Bool)
    (w : BeView) : viewMatches ((enableCalls arch tbl newM).foldl (viewOk i) w) e newM := by
  simp only [enableCalls, List.foldl_append, List.foldl_cons, List.foldl_nil, viewOk, foldl_programLoop, Nat.zero_le, if_true,
    Nat.sub_zero, he]
  rw [foldl_vectorLoop_mask i 0 _ rfl]
  cases hm : maskBit e || newM <;> simp [viewMatches, he, hm]

/-- The toggle touches the vectors whose own mask bit is clear, so that a vector masked as its entry and the old function mask say is
masked as its entry and the new one say (R213). -/
theorem foldl_toggleCalls {tbl : List Entry} {i : Nat} {e : Entry} (he : tbl[i]? = some e) {w : BeView} (hon : w.on = true)
    {oldM : Bool} (hmask : w.mask = some (maskBit e || oldM)) (newM : Bool) :
    (toggleCalls oldM newM tbl).foldl (viewOk i) w = { w with mask := some (maskBit e || newM) } := by
  cases oldM <;> cases newM
  · rw [← hmask]
    rfl
  · rw [toggleCalls, foldl_vectorLoop_mask i 0 w hon]
    cases hm : maskBit e with
    | false => simp [he, hm]
    | true => rw [hm, Bool.true_or] at hmask; simp [he, hm, ← hmask]
  · rw [toggleCalls, foldl_vectorLoop_unmask i 0 w hon]
    cases hm : maskBit e with
    | false => simp [he, hm]
    | true => rw [hm, Bool.true_or] at hmask; simp [he, hm, ← hmask]
  · rw [← hmask]
    rfl

theorem viewMatches_toggleCalls {tbl : List Entry} {i : Nat} {e : Entry} (he : tbl[i]? = some e) {w : BeView} {oldM : Bool}
    (hw : viewMatches w e oldM) (newM : Bool) : viewMatches ((toggleCalls oldM newM tbl).foldl (viewOk i) w) e newM := by
  obtain ⟨hon, hmask, haddr⟩ := hw
  rw [foldl_toggleCalls he hon hmask]
  exact ⟨hon, rfl, haddr⟩

/-! ## The calls of a table write -/

theorem foldl_reprogramCalls (i k j : Nat) (e : Entry) (w : BeView) :
    (reprogramCalls k j e).foldl (viewOk i) w =
      if k = i ∧ j < 12 then { w with hi := some e.addrHi, lo := some e.addrLo, data := some e.data } else w := by
  by_cases hk : k = i <;> by_cases hj : j < 12 <;> simp [reprogramCalls, programCalls, viewOk, hk, hj]

theorem foldl_propagateCalls (i k j len : Nat) (masked : Bool) (e : Entry) {w : BeView} (hon : w.on = true) :
    (propagateCalls k j len masked e).foldl (viewOk i) w =
      if k = i ∧ j ≤ 12 ∧ 12 < j + len ∧ masked = false then { w with mask := some (maskBit e) } else w := by
  by_cases hc : j ≤ 12 ∧ 12 < j + len ∧ masked = false
  · rw [propagateCalls, if_pos hc]
    cases hm : maskBit e <;> simp [viewOk, hon, hc]
  · rw [propagateCalls, if_neg hc, if_neg fun h => hc h.2, List.foldl_nil]

theorem reset_notMem_tableWriteCalls (m : Msx) (i j len : Nat) (e : Entry) : Call.reset ∉ tableWriteCalls m i j len e := by
  have hreprogram : Call.reset ∉ reprogramCalls i j e := by
    unfold reprogramCalls programCalls
    split <;> simp
  have hpropagate : Call.reset ∉ propagateCalls i j len m.masked e := by
    unfold propagateCalls
    cases maskBit e <;> split <;> simp
  unfold tableWriteCalls
  split
  · rw [List.mem_append, not_or]
    exact ⟨hreprogram, hpropagate⟩
  · exact List.not_mem_nil

/-- A table write leaves the view of every vector but its own alone. -/
theorem foldl_tableWriteCalls_other (m : Msx) {i k : Nat} (h : k ≠ i) (j len : Nat) (e : Entry) {w : BeView} (hon : w.on = true) :
    (tableWriteCalls m k j len e).foldl (viewOk i) w = w := by
  unfold tableWriteCalls
  split
  · rw [List.foldl_append, foldl_reprogramCalls, if_neg fun hk => h hk.1, foldl_propagateCalls _ _ _ _ _ _ hon,
      if_neg fun hk => h hk.1]
  · rfl

/-- The view of the vector a write of at least one byte addresses: programmed anew if the write reaches below byte 0xC, and masked by
the new bit if it includes that byte and the function is not masked (R215). -/
theorem foldl_tableWriteCalls_own {m : Msx} (hen : m.enabled = true) (i j : Nat) {len : Nat} (hlen : 0 < len) (e : Entry)
    {w : BeView} (hon : w.on = true) :
    (tableWriteCalls m i j len e).foldl (viewOk i) w =
      { w with
        mask := if j ≤ 12 ∧ 12 < j + len ∧ m.masked = false then some (maskBit e) else w.mask
        hi := if j < 12 then some e.addrHi else w.hi
        lo := if j < 12 then some e.addrLo else w.lo
        data := if j < 12 then some e.data else w.data } := by
  rw [tableWriteCalls, if_pos ⟨hen, hlen⟩, List.foldl_append, foldl_reprogramCalls,
    foldl_propagateCalls _ _ _ _ _ _ (by split <;> exact hon)]
  by_cases hj : j < 12 <;> by_cases hc : j ≤ 12 ∧ 12 < j + len ∧ m.masked = false <;>
    simp only [hj, hc, and_self, and_false, if_true, if_false]

/-- After a table write the view of its vector agrees with the entry as stored (R215, R219). -/
theorem viewMatches_tableWriteCalls {m : Msx} (hen : m.enabled = true) (i : Nat) {j : Nat} {d : List Byte}
    (hfit : j + d.length ≤ 16) {old : Entry} {w : BeView} (hw : viewMatches w old m.masked) :
    viewMatches ((tableWriteCalls m i j d.length (patchEntry old j d)).foldl (viewOk i) w) (patchEntry old j d) m.masked := by
  cases d with
  | nil => simpa [patchEntry_nil, tableWriteCalls] using hw
  | cons b d =>
    obtain ⟨hon, hmask, hhi, hlo, hdata⟩ := hw
    rw [foldl_tableWriteCalls_own hen i j (by simp) _ hon]
    have haddr := address_patchEntry old j (b :: d) hfit
    have hbit := maskBit_patchEntry old j (b :: d) hfit
    refine ⟨hon, ?_, ?_, ?_, ?_⟩
    · dsimp only
      split
      next hc => rw [hc.2.2, Bool.or_false]
      next hc =>
        rw [hmask]
        cases hm : m.masked
        · rw [hbit fun h => hc ⟨h.1, h.2, hm⟩]
        · rw [Bool.or_true, Bool.or_true]
    all_goals
      dsimp only
      split
      next => rfl
      next hj => simp only [haddr (by omega), hhi, hlo, hdata]

end Sys2Proof.Machine
end

section
/-! PROOF. The back-end stays in step with the table and the masks (O57). -/

namespace Sys2Proof.Machine

/-- Nothing is claimed of a function whose last call failed (R47, R264). -/
theorem backendTracks_of_failed {fr : FnRec} {log : List LogEntry} {c : Call} {e : Nat}
    (h : fr.log = log ++ [⟨c, .result (.err e)⟩]) : backendTracks fr := by
  intro m _ _ i _ _ hvalid
  rw [h, beView_failed] at hvalid
  cases hvalid

/-- The same MSX and a log that reads the same. -/
theorem backendTracks_congr {fr fr' : FnRec} (hm : fr'.msx = fr.msx) (hlog : ∀ i, beView i fr'.log = beView i fr.log)
    (h : backendTracks fr) : backendTracks fr' := by
  intro m hm' hen i e he
  rw [hlog]
  exact h m (hm.symm.trans hm') hen i e he

/-- A transition whose calls all succeeded: from disabled by the enable sequence, from enabled by the toggle (R211 to R213). -/
theorem backendTracks_transitionOk (arch : Arch) {fr fr' : FnRec} {m : Msx} {newEn newM : Bool} (hm : fr.msx = some m)
    (hm' : fr'.msx = some { m with enabled := newEn, masked := newM })
    (hlog : fr'.log = fr.log ++ allOk (transitionCalls arch m newEn newM)) (h : backendTracks fr) : backendTracks fr' := by
  intro n hn hen i e he
  cases hm'.symm.trans hn
  dsimp only at hen he ⊢
  subst hen
  rw [hlog, beView_append_allOk]
  cases hold : m.enabled with
  | false =>
    rw [transitionCalls_of_disabled hold]
    exact fun _ => viewMatches_enableCalls arch he newM _
  | true =>
    intro hvalid
    rw [transitionCalls_of_enabled hold] at hvalid ⊢
    rw [foldl_viewOk_valid (reset_notMem_toggleCalls _ _ _)] at hvalid
    exact viewMatches_toggleCalls he (h m hm hold i e he hvalid) newM

/-- A table write whose calls all succeeded (R215). -/
theorem backendTracks_tblWrOk {fr fr' : FnRec} {m : Msx} {off : Off} {d : List Byte} {old : Entry} (hm : fr.msx = some m)
    (ha : addressedEntry m off d.length = some old)
    (hm' : fr'.msx = some { m with tbl := m.tbl.set (tableIndex off) (patchEntry old (tableIntra off) d) })
    (hlog : fr'.log = fr.log ++
      allOk (tableWriteCalls m (tableIndex off) (tableIntra off) d.length (patchEntry old (tableIntra off) d)))
    (h : backendTracks fr) : backendTracks fr' := by
  intro n hn hen i e he hvalid
  cases hm'.symm.trans hn
  dsimp only at hen he ⊢
  obtain ⟨hfit, hold⟩ := addressedEntry_some ha
  rw [hlog, beView_append_allOk] at hvalid ⊢
  rw [foldl_viewOk_valid (reset_notMem_tableWriteCalls _ _ _ _ _)] at hvalid
  have hview := fun e he => h m hm hen i e he hvalid
  by_cases hi : tableIndex off = i
  · subst hi
    rw [List.getElem?_set_self (List.getElem?_eq_some_iff.mp hold).1] at he
    cases he
    exact viewMatches_tableWriteCalls hen _ hfit (hview old hold)
  · rw [List.getElem?_set_ne hi] at he
    rw [foldl_tableWriteCalls_other m hi _ _ _ (hview e he).1]
    exact hview e he

/-- No transaction takes the back-end of its function out of step. -/
theorem FnChange.keeps_backendTracks {p : Params} {o : Operands} {fr fr' : FnRec} {i : Instr} (h : FnChange p o fr i fr')
    (hfr : backendTracks fr) : backendTracks fr' := by
  cases h with
  | capNew | capSetctl => exact backendTracks_congr rfl (fun _ => rfl) hfr
  | msxNew n =>
    intro m hm hen
    cases hm
    cases hen
  | unchanged _ m fr0 reg hs => exact backendTracks_congr hs.kept.2 (fun _ => by rw [hs.log]) hfr
  | transitionOk _ m fr0 reg hs hm => exact backendTracks_transitionOk p.arch hm rfl rfl hfr
  | tblWrOk m off d old hm ha => exact backendTracks_tblWrOk hm ha rfl rfl hfr
  | transitionErr | tblWrErr => exact backendTracks_of_failed rfl
  | pbaRd m len off hm he orc =>
    refine backendTracks_congr (fr := fr) rfl (fun i => ?_) hfr
    obtain ⟨more, hmore, hpending⟩ := pbaBytes_log m len.toNat off.toNat fr.log orc
    rw [hmore, beView_queries i fr.log more hpending]

/-- Settles O57: no change of a record takes its back-end out of step. -/
theorem stepKeepsBackendInStep : Obligations.StepKeepsBackendInStep := fun _ _ hs h f =>
  step_fnRec (R := fun fr fr' => backendTracks fr → backendTracks fr') (fun _ => id) FnChange.keeps_backendTracks h f (hs f)

end Sys2Proof.Machine
end

section
/-! SUPPORT. The calls a transition owes as 43_msix_state.md lists them (R211 to R213), what a transaction that issues calls leaves when the
tape holds its answers, and the record after a transition that succeeded. -/

namespace Sys2Proof.Machine

/-! ## The calls of a transition -/

theorem deviceIdCalls_eq_ite (arch : Arch) (i : Nat) :
    deviceIdCalls arch i = if arch = .aarch64 then [.setMsiDeviceId i] else [] := by
  cases arch <;> rfl

theorem enableCalls_eq_enableSequence (arch : Arch) (tbl : List Entry) (newM : Bool) :
    enableCalls arch tbl newM = enableSequence arch tbl newM := by
  simp only [enableCalls, programLoop_eq, vectorLoop_eq, programCalls, deviceIdCalls_eq_ite]
  rfl

theorem vectorLoop_eq_map_unmaskedVectors (op : Nat → Call) (tbl : List Entry) :
    vectorLoop op (fun e => !maskBit e) 0 tbl = (unmaskedVectors tbl).map op := by
  rw [vectorLoop_eq, unmaskedVectors, List.map_map]
  rfl

/-- A control value that changes no flag owes no call. -/
theorem transitionCalls_of_same (arch : Arch) (m : Msx) : transitionCalls arch m m.enabled m.masked = [] := by
  cases hen : m.enabled with
  | false => simp only [transitionCalls, hen]
  | true => rw [transitionCalls_of_enabled hen, toggleCalls.eq_def]; cases m.masked <;> rfl

/-- The calls issued are those of the transition table's row (R211). -/
theorem transitionCalls_eq_owed (arch : Arch) {m : Msx} {reg : U16}
    (h : ¬(m.enabled = enableBit reg ∧ m.masked = functionMaskBit reg)) :
    transitionCalls arch m (newEnabled reg) (newMasked reg) = owedByTransition arch m reg := by
  rw [newEnabled_eq_enableBit, newMasked_eq_functionMaskBit]
  cases hold : m.enabled <;> cases hnew : enableBit reg
  · simp [transitionCalls, owedByTransition, hold, hnew]
  · rw [transitionCalls_of_disabled hold, enableCalls_eq_enableSequence]
    simp [owedByTransition, hold, hnew]
  · simp [transitionCalls, owedByTransition, hold, hnew]
  · have hmask : functionMaskBit reg = !m.masked := by
      rw [hold, hnew] at h
      cases hm : m.masked <;> simp_all
    rw [transitionCalls_of_enabled hold, hmask, owedByTransition, if_pos hold, if_pos hnew]
    cases m.masked
    · exact vectorLoop_eq_map_unmaskedVectors .mask m.tbl
    · exact vectorLoop_eq_map_unmaskedVectors .unmask m.tbl

/-! ## Calls whose answers the tape holds -/

/-- What issuing calls leaves alone. -/
theorem finishCalls_frame (s : State) (f : FnHandle) (calls : List Call) (log : List LogEntry) (onOk onErr : FnRec) :
    finishCalls s f calls log onOk onErr = { s with
      fns := (finishCalls s f calls log onOk onErr).fns
      oracle := (finishCalls s f calls log onOk onErr).oracle
      replies := (finishCalls s f calls log onOk onErr).replies } := by
  obtain ⟨o', -, h | ⟨k, c, e, -, h⟩⟩ := finishCalls_cases s f calls log onOk onErr <;> rw [h]

theorem finishCalls_of_tape_ok {s : State} {calls : List Call} {rest : List Answer}
    (h : s.oracle.be = List.replicate calls.length .ok ++ rest) (f : FnHandle) (log : List LogEntry) (onOk onErr : FnRec) :
    finishCalls s f calls log onOk onErr = { s with
      fns := mapPut f { onOk with log := log ++ allOk calls } s.fns, oracle := { s.oracle with be := rest },
      replies := s.replies ++ [⟨s.cur.agent, .done⟩] } := by
  have hrun := runCalls_ok calls log s.oracle rest h
  rw [finishCalls_ok (congrArg CallOutcome.failure hrun), hrun]

theorem finishCalls_of_tape_err {s : State} {calls : List Call} {k : Nat} {c : Call} {e : Nat} {rest : List Answer}
    (hc : calls[k]? = some c) (h : s.oracle.be = List.replicate k .ok ++ .err e :: rest) (f : FnHandle) (log : List LogEntry)
    (onOk onErr : FnRec) :
    finishCalls s f calls log onOk onErr = { s with
      fns := mapPut f { onErr with log := log ++ allOk (calls.take k) ++ [⟨c, .result (.err e)⟩] } s.fns,
      oracle := { s.oracle with be := rest },
      replies := s.replies ++ [⟨s.cur.agent, .error (.ioError e c (log.length + k))⟩] } := by
  have hrun := runCalls_err calls log s.oracle rest k c e hc h
  rw [finishCalls_err (congrArg CallOutcome.failure hrun), hrun]

/-! ## The transition -/

theorem transition_of_same {m : Msx} {reg : U16} (h : m.enabled = newEnabled reg ∧ m.masked = newMasked reg) (s : State)
    (f : FnHandle) (fr : FnRec) : transition s f fr m reg = (s.setFn f fr).reply .done := if_pos h

theorem transition_of_change {m : Msx} {reg : U16} (h : ¬(m.enabled = newEnabled reg ∧ m.masked = newMasked reg)) (s : State)
    (f : FnHandle) (fr : FnRec) :
    transition s f fr m reg =
      finishCalls s f (transitionCalls s.params.arch m (newEnabled reg) (newMasked reg)) fr.log
        { fr with msx := some { m with enabled := newEnabled reg, masked := newMasked reg } } fr := if_neg h

/-- What a transition leaves alone. -/
theorem transition_frame (s : State) (f : FnHandle) (fr : FnRec) (m : Msx) (reg : U16) :
    transition s f fr m reg = { s with
      fns := (transition s f fr m reg).fns
      oracle := (transition s f fr m reg).oracle
      replies := (transition s f fr m reg).replies } := by
  by_cases h : m.enabled = newEnabled reg ∧ m.masked = newMasked reg
  · rw [transition_of_same h]
    rfl
  · rw [transition_of_change h]
    exact finishCalls_frame _ _ _ _ _ _

/-- The state machine with the flags of a control value (R211). -/
def Msx.switched (m : Msx) (reg : U16) : Msx := { m with enabled := newEnabled reg, masked := newMasked reg }

/-- A transition that answers `done` has issued all its calls with success and holds the new flags, changed or not (R211). -/
theorem transition_fnRec_of_done {s : State} {f : FnHandle} {fr : FnRec} {m : Msx} {reg : U16} (hm : fr.msx = some m)
    (hdone : (transition s f fr m reg).replies = s.replies ++ [⟨s.cur.agent, .done⟩]) :
    (transition s f fr m reg).fnRec f = { fr with
      msx := some (m.switched reg)
      log := fr.log ++ allOk (transitionCalls s.params.arch m (newEnabled reg) (newMasked reg)) } := by
  rcases transition_cases s f fr m reg with ⟨⟨hen, hma⟩, heq⟩ | ⟨-, o', -, heq | ⟨k, c, e, -, heq⟩⟩
  · have hlog : fr.log ++ allOk [] = fr.log := List.append_nil _
    rw [heq, State.fnRec, mapGet_mapPut_same, Msx.switched, ← hen, ← hma, transitionCalls_of_same, hlog, ← hm]
    rfl
  · rw [heq, State.fnRec, mapGet_mapPut_same]
    rfl
  · rw [heq] at hdone
    simp at hdone

/-- The record of the function after an `msx.setctl` that succeeded. -/
theorem exec_msxSetctl_done {s t : State} {reg : U16} {m : Msx} (hm : (ownFn s).msx = some m)
    (h : exec (.msxSetctl reg) s = .next t) (hdone : t.replies = s.replies ++ [⟨s.cur.agent, .done⟩]) :
    t.fnRec s.cur.operands.fn = { ownFn s with
      msx := some (m.switched reg)
      log := (ownFn s).log ++ allOk (transitionCalls s.params.arch m (newEnabled reg) (newMasked reg)) } := by
  obtain ⟨hh, h⟩ := hostOnly_next h
  obtain ⟨ho, h⟩ := serialized_next h
  obtain ⟨c, m', hc, hm', h⟩ := withFunction_next h
  cases hm.symm.trans hm'
  cases h
  exact transition_fnRec_of_done hm hdone

end Sys2Proof.Machine
end

section
/-! PROOF. The statements of 43_msix_state.md about the state machine: its construction (O36), the flag queries (O37), the transition (O38)
and the mask round trip (O59). -/

namespace Sys2Proof.Machine

/-! ## Records of the own function -/

/-- A store of the own function's record is read back, whatever was drawn and answered besides. -/
theorem ownFn_mapPut (s : State) (fr : FnRec) (o : Oracle) (replies : List Reply) :
    ownFn { s with fns := mapPut s.cur.operands.fn fr s.fns, oracle := o, replies := replies } = fr := by
  rw [ownFn, State.fnRec, mapGet_mapPut_same]
  rfl

/-- The current transaction stays the current one while it runs. -/
theorem exec_cur {i : Instr} {s t : State} (h : exec i s = .next t) : t.cur = s.cur := by
  obtain ⟨⟨-, -, -, -, -, hcur, -⟩, -⟩ := exec_kept h
  exact hcur

/-! ## Construction and queries -/

/-- The CAP declares another size exactly when MSG_CTL[10:0] is not the size less one (R43, R190). -/
theorem declaredSizeDiffers_eq_false_iff_msgCtl (fr : FnRec) (n : U16) :
    declaredSizeDiffers fr n = false ↔ ∀ c, fr.cap = some c → n.toNat = c.msgCtl.toNat % 2 ^ 11 + 1 := by
  rw [declaredSizeDiffers_eq_false_iff]
  refine forall₂_congr fun c _ => ?_
  rw [← BitVec.toNat_inj, Cap.tableSize_toNat]
  exact eq_comm

section
variable {s : State} (hh : fromHost s = true) (ho : s.cur.overlaps = false)
include hh ho

/-- The checks of `msx.new` in their order (R210). -/
theorem exec_msxNew (n : U16) :
    exec (.msxNew n) s =
      if (ownFn s).msx.isSome then .refused .twice
      else if n.toNat = 0 ∨ 2048 ≤ n.toNat then .refused .tableSize
      else if declaredSizeDiffers (ownFn s) n then .refused .tableSize
      else .next ((s.setFn s.cur.operands.fn
        { ownFn s with msx := some (newMsx s.params n.toNat), log := [] }).reply .done) := by
  have hzero : n = 0 ↔ n.toNat = 0 := (BitVec.toNat_inj (x := n) (y := 0)).symm
  rw [exec, execMsxNew, hostOnly_of_host hh, serialized_ok ho]
  simp only [hzero]
  rfl

variable {c : Cap} {m : Msx} (hc : (ownFn s).cap = some c) (hm : (ownFn s).msx = some m)
include hc hm

theorem exec_msxQEnabled : exec .msxQEnabled s = .next (s.reply (.bool m.enabled)) := by
  rw [exec, execMsxQEnabled, hostOnly_of_host hh, serialized_ok ho, withFunction_some hc hm]

theorem exec_msxQMasked : exec .msxQMasked s = .next (s.reply (.bool m.masked)) := by
  rw [exec, execMsxQMasked, hostOnly_of_host hh, serialized_ok ho, withFunction_some hc hm]

end

/-- Settles O36: each clause is the first check of `msx.new` (`exec_msxNew`) that answers. -/
theorem msxNewConstructs : Obligations.MsxNewConstructs := by
  intro s n hh ho
  rw [exec_msxNew hh ho]
  refine ⟨fun m hm => ?_, fun hm hn => ?_, fun c hm hc hne => ?_, fun hm h1 h2 hdeclared => ?_⟩
  · rw [hm, Option.isSome_some, if_pos rfl]
  · rw [hm, Option.isSome_none, if_neg Bool.false_ne_true, if_pos hn]
  · have hdiffers : declaredSizeDiffers (ownFn s) n = true := by
      rw [← Bool.not_eq_false, declaredSizeDiffers_eq_false_iff_msgCtl]
      exact fun h => hne (h c hc)
    rw [hm, Option.isSome_none, if_neg Bool.false_ne_true, if_pos hdiffers, ite_self]
  · rw [← declaredSizeDiffers_eq_false_iff_msgCtl] at hdeclared
    rw [hm, Option.isSome_none, if_neg Bool.false_ne_true, if_neg (by omega), if_neg (by simp [hdeclared])]
    exact ⟨_, rfl, State.fnRec_setFn_same s _ _, fun g hg => State.fnRec_setFn_other s hg _, rfl⟩

/-- Settles O37: each query answers a field of MSX. -/
theorem flagQueriesReturnFlags : Obligations.FlagQueriesReturnFlags := by
  intro s m hh ho hm hcap
  obtain ⟨c, hc⟩ := Option.ne_none_iff_exists'.mp hcap
  exact ⟨exec_msxQEnabled hh ho hc hm, exec_msxQMasked hh ho hc hm⟩

/-! ## The transition -/

/-- Settles O38: the calls of the transition are those owed (`transitionCalls_eq_owed`), and the tape says how they end. -/
theorem transitionIssuesOwedCalls : Obligations.TransitionIssuesOwedCalls := by
  intro s m reg hh ho hm hcap
  obtain ⟨c, hc⟩ := Option.ne_none_iff_exists'.mp hcap
  have hexec := exec_msxSetctl ho hc hm hh reg
  refine ⟨⟨_, hexec, functionsAreIndependent _ s _ hexec, transition_frame _ _ _ _ _⟩, fun hen hma => ?_,
    fun hflags => ⟨fun rest htape => ?_, fun k call e rest hk htape => ?_⟩⟩
  · rw [← newEnabled_eq_enableBit] at hen
    rw [← newMasked_eq_functionMaskBit] at hma
    rw [transition_of_same ⟨hen, hma⟩] at hexec
    exact ⟨_, hexec, ownFn_mapPut s _ _ _, rfl⟩
  all_goals
    have hcalls := transitionCalls_eq_owed s.params.arch hflags
    rw [← newEnabled_eq_enableBit, ← newMasked_eq_functionMaskBit] at hflags
    rw [transition_of_change hflags, hcalls] at hexec
  · rw [finishCalls_of_tape_ok htape, newEnabled_eq_enableBit, newMasked_eq_functionMaskBit] at hexec
    exact ⟨_, hexec, ownFn_mapPut s _ _ _, rfl⟩
  · rw [finishCalls_of_tape_err hk htape] at hexec
    exact ⟨_, hexec, ownFn_mapPut s _ _ _, rfl⟩

/-! ## Masking and unmasking -/

/-- An `msx.setctl` that succeeded on an enabled function and leaves it enabled has issued the toggle's calls (R213). -/
theorem exec_msxSetctl_toggled {s t : State} {reg : U16} {m : Msx} (hm : (ownFn s).msx = some m) (hen : m.enabled = true)
    (hreg : newEnabled reg = true) (h : exec (.msxSetctl reg) s = .next t)
    (hdone : t.replies = s.replies ++ [⟨s.cur.agent, .done⟩]) :
    (ownFn t).msx = some { m with masked := newMasked reg } ∧
      (ownFn t).log = (ownFn s).log ++ allOk (toggleCalls m.masked (newMasked reg) m.tbl) := by
  have hrec := exec_msxSetctl_done hm h hdone
  rw [ownFn, exec_cur h, hrec, hreg, transitionCalls_of_enabled hen, Msx.switched, hreg, ← hen]
  exact ⟨rfl, rfl⟩

/-- The view of a vector after the function mask went from `oldM` to `newM`. -/
theorem beView_toggled {tbl : List Entry} {i : Nat} {e : Entry} (he : tbl[i]? = some e) {log : List LogEntry}
    (hon : (beView i log).on = true) {oldM : Bool} (hmask : (beView i log).mask = some (maskBit e || oldM)) (newM : Bool) :
    beView i (log ++ allOk (toggleCalls oldM newM tbl)) = { beView i log with mask := some (maskBit e || newM) } := by
  rw [beView_append_allOk, foldl_toggleCalls he hon hmask]

/-- Settles O59: after each transition every vector is masked as its entry and the new function mask say (`beView_toggled`). -/
theorem maskRoundTripRestores : Obligations.MaskRoundTripRestores := by
  intro s t u m i hm hen hma hi hview hmaskExec hmaskDone hunmaskExec hunmaskDone
  have he := List.getElem?_eq_getElem hi
  obtain ⟨-, hon, hmask⟩ := hview i _ he
  rw [← exec_cur hmaskExec] at hunmaskDone
  obtain ⟨hmt, hlogt⟩ := exec_msxSetctl_toggled hm hen rfl hmaskExec hmaskDone
  obtain ⟨hmu, hlogu⟩ := exec_msxSetctl_toggled hmt hen rfl hunmaskExec hunmaskDone
  have hviewt : beView i (ownFn t).log = { beView i (ownFn s).log with mask := some (maskBit m.tbl[i] || true) } := by
    rw [hlogt, hma]
    exact beView_toggled he hon (by rw [hmask, Bool.or_false, maskBit]) true
  have hviewu : beView i (ownFn u).log = { beView i (ownFn t).log with mask := some (maskBit m.tbl[i] || false) } := by
    rw [hlogu]
    exact beView_toggled he (by rw [hviewt]; exact hon) (by rw [hviewt]; rfl) false
  refine ⟨by rw [hviewt, Bool.or_true], by rw [hviewu, hmask, Bool.or_false, maskBit], ?_⟩
  have hback : newMasked 0x8000 = m.masked := hma.symm
  rw [hmu, hm, hback]

end Sys2Proof.Machine
end

section
/-! SUPPORT. The table in numbers: the bytes of an entry, the entry an access addresses, and the table after a write (20_memory.md R65, R71,
43_msix_state.md R214, R215). -/

namespace Sys2Proof.Machine

/-! ## Bytes -/

/-- `le` of an entry's image is the number that R41 lays out. -/
theorem leValue_entryImage (e : Entry) : leValue (entryImage e) = entryNumber e := by
  have hlo := e.addrLo.isLt
  have hhi := e.addrHi.isLt
  have hdata := e.data.isLt
  have hvctl := e.vctl.isLt
  simp only [entryImage, leValue_append, leValue_bytesLe, bytesLe_length, List.length_append, entryNumber]
  omega

/-- The byte of a table at an offset is a byte of an image (R65). -/
theorem storedByte_eq_tableByte (tbl : List Entry) (a : Nat) : storedByte tbl a = tableByte tbl a := by
  rw [storedByte, tableByte, Option.map_eq_bind]
  refine congrArg _ (funext fun e => ?_)
  have hlen := entryImage_length e
  rw [getElem?_eq_leValue (by omega), leValue_entryImage, Nat.pow_mul]
  rfl

/-! ## The addressed entry -/

theorem addressedEntry_of_inside {m : Msx} {off : Off} {len : Nat} (h : insideEntry m off len) :
    ∃ e, addressedEntry m off len = some e := by
  obtain ⟨hindex, hfit⟩ := h
  exact ⟨_, (if_neg (Nat.not_lt.mpr hfit)).trans (List.getElem?_eq_getElem hindex)⟩

theorem addressedEntry_of_not_inside {m : Msx} {off : Off} {len : Nat} (h : ¬ insideEntry m off len) :
    addressedEntry m off len = none := by
  unfold addressedEntry
  split
  · rfl
  next hfit => exact List.getElem?_eq_none (Nat.not_lt.mp fun hindex => h ⟨hindex, Nat.not_lt.mp hfit⟩)

theorem tableBytes_of_not_inside {m : Msx} {off : Off} {len : Nat} (h : ¬ insideEntry m off len) :
    tableBytes m off len = List.replicate len 0xFF := by
  rw [tableBytes, addressedEntry_of_not_inside h]
  rfl

theorem tableBytes_of_addressed {m : Msx} {off : Off} {len : Nat} {e : Entry} (h : addressedEntry m off len = some e) :
    tableBytes m off len = ((entryImage e).drop (tableIntra off)).take len := by
  rw [tableBytes, h]

theorem tableBytes_length (m : Msx) (off : Off) (len : Nat) : (tableBytes m off len).length = len := by
  by_cases h : insideEntry m off len
  · obtain ⟨e, he⟩ := addressedEntry_of_inside h
    have hfit := (addressedEntry_some he).1
    rw [tableBytes_of_addressed he, List.length_take, List.length_drop, entryImage_length]
    omega
  · rw [tableBytes_of_not_inside h, List.length_replicate]

/-- A read inside an entry returns the bytes of the table from its offset on (R214). -/
theorem tableBytes_getElem? {m : Msx} {off : Off} {len : Nat} (h : insideEntry m off len) {k : Nat} (hk : k < len) :
    (tableBytes m off len)[k]? = storedByte m.tbl (off.toNat + k) := by
  obtain ⟨e, he⟩ := addressedEntry_of_inside h
  obtain ⟨hfit, hentry⟩ := addressedEntry_some he
  unfold tableIntra tableIndex at *
  rw [tableBytes_of_addressed he, List.getElem?_take_of_lt hk, List.getElem?_drop, storedByte_eq_tableByte, tableByte,
    show (off.toNat + k) / 16 = off.toNat / 16 by omega, hentry, Option.bind_some]
  congr 1
  unfold tableIntra
  omega

/-! ## The table after a write -/

/-- The state machine after `d` was written at `off`; as it was where the write is dropped (R215). -/
def Msx.written (m : Msx) (off : Off) (d : List Byte) : Msx :=
  match addressedEntry m off d.length with
  | none => m
  | some e => { m with tbl := m.tbl.set (tableIndex off) (patchEntry e (tableIntra off) d) }

section
variable {m : Msx} {off : Off} {d : List Byte}

theorem Msx.written_of_none (h : addressedEntry m off d.length = none) : m.written off d = m := by
  rw [Msx.written, h]

theorem Msx.written_of_some {e : Entry} (h : addressedEntry m off d.length = some e) :
    m.written off d = { m with tbl := m.tbl.set (tableIndex off) (patchEntry e (tableIntra off) d) } := by
  rw [Msx.written, h]

theorem Msx.written_enabled : (m.written off d).enabled = m.enabled := by
  unfold Msx.written
  split <;> rfl

theorem Msx.written_masked : (m.written off d).masked = m.masked := by
  unfold Msx.written
  split <;> rfl

theorem Msx.written_length : (m.written off d).tbl.length = m.tbl.length := by
  unfold Msx.written
  split
  · rfl
  · exact List.length_set

/-- A write addresses an entry by the table alone, and a transition leaves the table alone. -/
theorem Msx.written_switched (reg : U16) : (m.switched reg).written off d = (m.written off d).switched reg := by
  have hsame : addressedEntry (m.switched reg) off d.length = addressedEntry m off d.length := rfl
  unfold Msx.written
  rw [hsame]
  cases addressedEntry m off d.length <;> rfl

theorem addressedEntry_written {e : Entry} (h : addressedEntry m off d.length = some e) :
    addressedEntry (m.written off d) off d.length = some (patchEntry e (tableIntra off) d) := by
  obtain ⟨hfit, hentry⟩ := addressedEntry_some h
  rw [addressedEntry, if_neg (Nat.not_lt.mpr hfit), Msx.written_of_some h]
  exact List.getElem?_set_self (List.getElem?_eq_some_iff.mp hentry).1

/-- A write inside an entry stores exactly its bytes (R215, D26). -/
theorem storedByte_written {e : Entry} (h : addressedEntry m off d.length = some e) (a : Nat) :
    storedByte (m.written off d).tbl a =
      if off.toNat ≤ a ∧ a < off.toNat + d.length then d[a - off.toNat]? else storedByte m.tbl a := by
  obtain ⟨hfit, hentry⟩ := addressedEntry_some h
  rw [Msx.written_of_some h, storedByte_eq_tableByte, storedByte_eq_tableByte, tableByte, tableByte]
  by_cases hi : tableIndex off = a / 16
  · rw [← hi, hentry, List.getElem?_set_self (List.getElem?_eq_some_iff.mp hentry).1, Option.bind_some, Option.bind_some,
      entryImage_patchEntry _ _ _ hfit, overwrite_getElem? _ _ _ _ (by rw [entryImage_length]; exact hfit)]
    unfold tableIntra tableIndex at *
    by_cases hin : off.toNat ≤ a ∧ a < off.toNat + d.length
    · rw [if_pos hin, if_pos (by omega), show a % 16 - off.toNat % 16 = a - off.toNat by omega]
    · rw [if_neg hin, if_neg (by omega)]
  · rw [List.getElem?_set_ne hi]
    unfold tableIntra tableIndex at *
    rw [if_neg (by omega)]

/-- What was written inside an entry is read back. -/
theorem tableBytes_written (h : insideEntry m off d.length) : tableBytes (m.written off d) off d.length = d := by
  obtain ⟨e, he⟩ := addressedEntry_of_inside h
  obtain ⟨hfit, -⟩ := addressedEntry_some he
  have htake : ((entryImage e).take (tableIntra off)).length = tableIntra off := by
    rw [List.length_take, entryImage_length]
    omega
  rw [tableBytes_of_addressed (addressedEntry_written he), entryImage_patchEntry _ _ _ hfit, overwrite, List.append_assoc,
    List.drop_left' htake, List.take_left]

end

/-! ## The write -/

/-- The calls issued are those R215 lists. -/
theorem tableWriteCalls_eq_owed (m : Msx) (i j len : Nat) (e : Entry) :
    tableWriteCalls m i j len e = owedByTableWrite m i j len e := by
  by_cases h : m.enabled = true ∧ 0 < len
  · rw [tableWriteCalls, if_pos h, owedByTableWrite, if_neg (by simp [h]; omega)]
    rfl
  · rw [tableWriteCalls, if_neg h, owedByTableWrite, if_pos]
    cases hen : m.enabled
    · exact .inl rfl
    · exact .inr (Nat.eq_zero_of_not_pos fun hlen => h ⟨hen, hlen⟩)

/-- The record with the table as a write at `off` leaves it. -/
def FnRec.tableWritten (fr : FnRec) (m : Msx) (off : Off) (d : List Byte) : FnRec := { fr with msx := some (m.written off d) }

section
variable {s : State} {c : Cap} {m : Msx} (ho : s.cur.overlaps = false) (hc : (ownFn s).cap = some c)
  (hm : (ownFn s).msx = some m)
include ho hc hm

theorem exec_tblRd (len : BitVec 8) (off : Off) :
    exec (.tblRd len off) s = .next (s.reply (.bytes (tableBytes m off len.toNat))) := by
  rw [exec, execTblRd, serialized_ok ho, withFunction_some hc hm]

theorem exec_tblWr_of_none {off : Off} {d : List Byte} (ha : addressedEntry m off d.length = none) :
    exec (.tblWr off d) s = .next (s.reply .done) := by
  rw [exec, execTblWr, serialized_ok ho, withFunction_some hc hm]
  simp only [ha]

/-- The calls of a write inside an entry; the record is as written whether they succeed or not (R215, D26). -/
theorem exec_tblWr_of_some {off : Off} {d : List Byte} {e : Entry} (ha : addressedEntry m off d.length = some e) :
    exec (.tblWr off d) s = .next (finishCalls s s.cur.operands.fn
      (owedByTableWrite m (off.toNat / 16) (off.toNat % 16) d.length (patchEntry e (tableIntra off) d)) (ownFn s).log
      ((ownFn s).tableWritten m off d) ((ownFn s).tableWritten m off d)) := by
  rw [exec, execTblWr, serialized_ok ho, withFunction_some hc hm, ← tableWriteCalls_eq_owed, FnRec.tableWritten,
    Msx.written_of_some ha]
  simp only [ha]
  rfl

/-- A table write always ends in a next state with the table as written; what its calls answered is seen in the log alone (R215). -/
theorem exec_tblWr_next (off : Off) (d : List Byte) :
    ∃ t log', exec (.tblWr off d) s = .next t ∧ ownFn t = { (ownFn s).tableWritten m off d with log := log' } ∧
      (t.replies = s.replies ++ [⟨s.cur.agent, .done⟩] → ∃ calls, log' = (ownFn s).log ++ allOk calls) := by
  cases ha : addressedEntry m off d.length with
  | none =>
    refine ⟨_, (ownFn s).log, exec_tblWr_of_none ho hc hm ha, ?_, fun _ => ⟨[], (List.append_nil _).symm⟩⟩
    rw [FnRec.tableWritten, Msx.written_of_none ha, ← hm]
    rfl
  | some e =>
    obtain ⟨o', -, h | ⟨k, call, x, -, h⟩⟩ := finishCalls_cases s s.cur.operands.fn
      (owedByTableWrite m (off.toNat / 16) (off.toNat % 16) d.length (patchEntry e (tableIntra off) d)) (ownFn s).log
      ((ownFn s).tableWritten m off d) ((ownFn s).tableWritten m off d)
    · refine ⟨_, _, exec_tblWr_of_some ho hc hm ha, by rw [h]; exact ownFn_mapPut s _ _ _, fun _ => ⟨_, rfl⟩⟩
    · refine ⟨_, _, exec_tblWr_of_some ho hc hm ha, by rw [h]; exact ownFn_mapPut s _ _ _, fun hdone => ?_⟩
      rw [h] at hdone
      simp at hdone

end

end Sys2Proof.Machine
end

section
/-! PROOF. The statements of 43_msix_state.md about the table: a read (O41), a write (O42), a write read back (O43), and a write beside a
transition (O60). -/

namespace Sys2Proof.Machine

/-- Settles O41: the response is a piece of the table (`tableBytes_getElem?`) or all-ones. -/
theorem tableReadReturnsBytes : Obligations.TableReadReturnsBytes := by
  intro s m len off ho hm hcap
  obtain ⟨c, hc⟩ := Option.ne_none_iff_exists'.mp hcap
  exact ⟨tableBytes m off len.toNat, exec_tblRd ho hc hm len off, tableBytes_length m off len.toNat,
    fun hin _ hk => tableBytes_getElem? hin hk, tableBytes_of_not_inside⟩

/-- Settles O42: outside an entry nothing happens; inside, the table is as written whatever the calls answer (`storedByte_written`), and
the tape says how the calls end. -/
theorem tableWriteStoresAndCalls : Obligations.TableWriteStoresAndCalls := by
  intro s m off d ho hm hcap
  obtain ⟨c, hc⟩ := Option.ne_none_iff_exists'.mp hcap
  refine ⟨fun hout => exec_tblWr_of_none ho hc hm (addressedEntry_of_not_inside hout), fun hin => ?_⟩
  obtain ⟨old, ha⟩ := addressedEntry_of_inside hin
  obtain ⟨t, log', hexec, hown, -⟩ := exec_tblWr_next ho hc hm off d
  have hcalls := exec_tblWr_of_some ho hc hm ha
  obtain rfl := Host.Outcome.next.inj (hexec.symm.trans hcalls)
  refine ⟨_, m.written off d, patchEntry old (tableIntra off) d, hexec, finishCalls_frame _ _ _ _ _ _,
    functionsAreIndependent _ s _ hexec, by rw [hown]; rfl, by rw [hown]; rfl, Msx.written_enabled, Msx.written_masked,
    Msx.written_length, storedByte_written ha, (addressedEntry_some (addressedEntry_written ha)).2,
    fun rest htape => ?_, fun k call x rest hk htape => ?_⟩
  · rw [finishCalls_of_tape_ok htape, ownFn_mapPut]
    exact ⟨rfl, rfl, rfl⟩
  · rw [finishCalls_of_tape_err hk htape, ownFn_mapPut]
    exact ⟨rfl, rfl, rfl⟩

/-- Settles O43: the read finds the bytes of the write in the table (`tableBytes_written`), whatever its calls answered. -/
theorem tableWriteThenReadRoundTrips : Obligations.TableWriteThenReadRoundTrips := by
  intro s m len off d ho hm hcap hlen hin
  obtain ⟨c, hc⟩ := Option.ne_none_iff_exists'.mp hcap
  obtain ⟨t, log', hexec, hown, -⟩ := exec_tblWr_next ho hc hm off d
  have hcur := exec_cur hexec
  have hread := exec_tblRd (s := t) (c := c) (m := m.written off d) (by rw [hcur, ho]) (by rw [hown]; exact hc) (by rw [hown]; rfl)
    len off
  rw [← hlen, tableBytes_written hin, State.reply, hcur] at hread
  exact ⟨t, hexec, hread⟩

/-! ## A write beside a transition -/

/-- A transaction takes no back-end out of step. -/
theorem viewsOk_of_exec {i : Instr} {s t : State} (h : exec i s = .next t) (hs : viewsOk s) : viewsOk t := by
  intro f
  rcases exec_fnRec h f with hsame | ⟨-, hfr⟩
  · rw [hsame]
    exact hs f
  · exact hfr.keeps_backendTracks (hs f)

/-- The masks of a back-end in step follow from the table and the flags (R219). -/
theorem backendTracks_mask {fr : FnRec} (h : backendTracks fr) {m : Msx} (hm : fr.msx = some m) (hen : m.enabled = true) {i : Nat}
    (hi : i < m.tbl.length) (hvalid : (beView i fr.log).valid = true) :
    (beView i fr.log).mask = some (maskBit m.tbl[i] || m.masked) := by
  obtain ⟨-, hmask, -⟩ := h m hm hen i _ (List.getElem?_eq_getElem hi) hvalid
  exact hmask

/-- `fr'` is what transactions that succeeded made of `fr`: its MSX is `m`, and the view is defined wherever it was. -/
def succeededWith (fr fr' : FnRec) (m : Msx) : Prop :=
  fr'.msx = some m ∧ ∀ i, (beView i fr.log).valid = true → (beView i fr'.log).valid = true

section
variable {s t : State} {iss : Issue} {f : FnHandle} {m : Msx} (hf : iss.operands.fn = f) (hm : (s.fnRec f).msx = some m)
  (hdone : t.replies = s.replies ++ [⟨iss.agent, .done⟩])
include hf hm hdone

theorem succeededWith_tblWr {off : Off} {d : List Byte} (h : exec (.tblWr off d) { s with cur := iss } = .next t) :
    succeededWith (s.fnRec f) (t.fnRec f) (m.written off d) := by
  subst hf
  obtain ⟨ho, hfunction⟩ := serialized_next h
  obtain ⟨c, -, hc, -, -⟩ := withFunction_next hfunction
  obtain ⟨t', log', hexec, hown, hcalls⟩ := exec_tblWr_next ho hc hm off d
  obtain rfl := Host.Outcome.next.inj (hexec.symm.trans h)
  obtain ⟨calls, hlog⟩ := hcalls hdone
  rw [ownFn, exec_cur h] at hown
  rw [hown, hlog]
  exact ⟨rfl, fun i hvalid => beView_append_allOk_valid hvalid calls⟩

theorem succeededWith_msxSetctl {reg : U16} (h : exec (.msxSetctl reg) { s with cur := iss } = .next t) :
    succeededWith (s.fnRec f) (t.fnRec f) (m.switched reg) := by
  subst hf
  rw [exec_msxSetctl_done (s := { s with cur := iss }) hm h hdone]
  exact ⟨rfl, fun i hvalid => beView_append_allOk_valid hvalid _⟩

end

/-- Settles O60: both orders end in the table as written under the flags as switched (`Msx.written_switched`), and a back-end in step
has its masks from these (`backendTracks_mask`). -/
theorem maskChangesCommute : Obligations.MaskChangesCommute := by
  intro s t u t' u' g h f off d reg m hg hh hm hviews hvalid hwr hwrDone hctl hctlDone hctl' hctlDone' hwr' hwrDone'
  obtain ⟨hmt, hvalidt⟩ := succeededWith_tblWr hg hm hwrDone hwr
  obtain ⟨hmu, hvalidu⟩ := succeededWith_msxSetctl hh hmt hctlDone hctl
  obtain ⟨hmt', hvalidt'⟩ := succeededWith_msxSetctl hh hm hctlDone' hctl'
  obtain ⟨hmu', hvalidu'⟩ := succeededWith_tblWr hg hmt' hwrDone' hwr'
  rw [Msx.written_switched] at hmu'
  have hviewst : viewsOk t := viewsOk_of_exec hwr hviews
  have hviewsu : viewsOk u := viewsOk_of_exec hctl hviewst
  have hviewst' : viewsOk t' := viewsOk_of_exec hctl' hviews
  have hviewsu' : viewsOk u' := viewsOk_of_exec hwr' hviewst'
  refine ⟨hmu.trans hmu'.symm, fun hreg i hi => ?_⟩
  have hen : ((m.written off d).switched reg).enabled = true := (newEnabled_eq_enableBit reg).trans hreg
  have hi : i < ((m.written off d).switched reg).tbl.length := Msx.written_length.symm ▸ hi
  rw [backendTracks_mask (hviewsu f) hmu hen hi (hvalidu i (hvalidt i (hvalid i))),
    backendTracks_mask (hviewsu' f) hmu' hen hi (hvalidu' i (hvalidt' i (hvalid i)))]

end Sys2Proof.Machine
end

section
/-! SUPPORT. The queries of a PBA read (43_msix_state.md R216): drawing one answer for each queried vector, and what that makes of the bits of
a byte and of the log. -/

namespace Sys2Proof.Machine

/-! ## Queries -/

/-- One answer for each vector of a list, in its order, and the oracles after the draws (R48). -/
def queryAll : List Nat → Oracle → List (Nat × Bool) × Oracle
  | [], o => ([], o)
  | v :: rest, o => ((v, o.drawPending.1) :: (queryAll rest o.drawPending.2).1, (queryAll rest o.drawPending.2).2)

/-- A query as it is logged (R47, D28). -/
def queryEntry (q : Nat × Bool) : LogEntry := ⟨.getPendingState q.1, .pending q.2⟩

theorem queryAll_append (vs ws : List Nat) (o : Oracle) :
    queryAll (vs ++ ws) o =
      ((queryAll vs o).1 ++ (queryAll ws (queryAll vs o).2).1, (queryAll ws (queryAll vs o).2).2) := by
  induction vs generalizing o with
  | nil => rfl
  | cons v rest ih => simp [queryAll, ih]

theorem queryAll_vectors (vs : List Nat) (o : Oracle) : (queryAll vs o).1.map Prod.fst = vs := by
  induction vs generalizing o with
  | nil => rfl
  | cons v rest ih => simp [queryAll, ih]

theorem mem_of_mem_queryAll {vs : List Nat} {o : Oracle} {v : Nat} {b : Bool} (h : (v, b) ∈ (queryAll vs o).1) : v ∈ vs := by
  rw [← queryAll_vectors vs o]
  exact List.mem_map_of_mem h

/-- The vectors beside their answers are the queries. -/
theorem zip_queryAll (vs : List Nat) (o : Oracle) : vs.zip ((queryAll vs o).1.map Prod.snd) = (queryAll vs o).1 :=
  (List.zip_of_prod (queryAll_vectors vs o) rfl).symm

/-- The log entries of the queries, from the vectors and their answers. -/
theorem zipWith_queryAll (vs : List Nat) (o : Oracle) :
    List.zipWith (fun v b => ⟨.getPendingState v, .pending b⟩) vs ((queryAll vs o).1.map Prod.snd) =
      (queryAll vs o).1.map queryEntry := by
  conv_rhs => rw [← zip_queryAll vs o, List.map_zip_eq_zipWith]
  rfl

theorem queryAll_be (vs : List Nat) (o : Oracle) : (queryAll vs o).2.be = o.be := by
  induction vs generalizing o with
  | nil => rfl
  | cons v rest ih =>
    rw [queryAll, ih, Oracle.drawPending]
    split <;> rfl

/-- The answers are those of the tape while it holds enough (R48, log 5). -/
theorem queryAll_answers {vs : List Nat} {o : Oracle} (h : vs.length ≤ o.pend.length) :
    (queryAll vs o).1.map Prod.snd = o.pend.take vs.length := by
  induction vs generalizing o with
  | nil => rfl
  | cons v rest ih =>
    cases hp : o.pend with
    | nil => simp [hp] at h
    | cons b tape =>
      have hdraw : o.drawPending = (b, { o with pend := tape }) := by simp [Oracle.drawPending, hp]
      have hrest : rest.length ≤ tape.length := by simpa [hp] using h
      simp only [queryAll, hdraw, List.map_cons, List.length_cons, List.take_succ_cons]
      rw [ih (o := { o with pend := tape }) hrest]

/-! ## Bits and bytes -/

/-- The vectors from `first` on, `count` of them, that are individually masked (R216). -/
def maskedVectors (m : Msx) (first count : Nat) : List Nat := (List.range' first count).filter (vectorMasked m)

theorem queriedVectors_eq (m : Msx) (off : Off) (len : Nat) :
    queriedVectors m off len = maskedVectors m (8 * off.toNat) (8 * len) := by
  refine List.filter_congr fun v _ => ?_
  unfold vectorMasked
  cases m.tbl[v]? <;> rfl

theorem maskedVectors_add (m : Msx) (first a b : Nat) :
    maskedVectors m first (a + b) = maskedVectors m first a ++ maskedVectors m (first + a) b := by
  rw [maskedVectors, ← List.range'_append_1, List.filter_append]
  rfl

theorem mem_range_of_mem_maskedVectors {m : Msx} {first count v : Nat} (h : v ∈ maskedVectors m first count) :
    first ≤ v ∧ v < first + count :=
  List.mem_range'_1.mp (List.mem_of_mem_filter h)

theorem maskedVectors_succ (m : Msx) (first count : Nat) :
    maskedVectors m first (count + 1) =
      if vectorMasked m first then first :: maskedVectors m (first + 1) count else maskedVectors m (first + 1) count := by
  rw [maskedVectors, List.range'_succ, List.filter_cons]
  rfl

/-- A vector that is not masked is passed over. -/
theorem pbaBits_of_unmasked {m : Msx} {k b : Nat} (hv : vectorMasked m (8 * k + b) = false) (count : Nat) (log : List LogEntry)
    (o : Oracle) : pbaBits m k (count + 1) b log o = pbaBits m k count (b + 1) log o := by
  rw [pbaBits, hv, if_neg Bool.false_ne_true]

/-- A masked vector is queried first, and its answer is or-ed into the byte of the bits above it. -/
theorem pbaBits_of_masked {m : Msx} {k b : Nat} (hv : vectorMasked m (8 * k + b) = true) (count : Nat) (log : List LogEntry)
    (o : Oracle) :
    ∃ rest, rest = pbaBits m k count (b + 1) (log ++ [queryEntry (8 * k + b, o.drawPending.1)]) o.drawPending.2 ∧
      pbaBits m k (count + 1) b log o =
        { rest with byte := rest.byte ||| (if o.drawPending.1 then 1#8 <<< b else 0#8) } := by
  rw [pbaBits, if_pos hv]
  exact ⟨_, rfl, rfl⟩

/-- The queries of the bits `b` to `b + count - 1` of one byte are those of its masked vectors. -/
theorem pbaBits_queries (m : Msx) (k count b : Nat) (log : List LogEntry) (o : Oracle) :
    (pbaBits m k count b log o).log = log ++ (queryAll (maskedVectors m (8 * k + b) count) o).1.map queryEntry ∧
      (pbaBits m k count b log o).oracle = (queryAll (maskedVectors m (8 * k + b) count) o).2 := by
  induction count generalizing b log o with
  | zero => simp [pbaBits, maskedVectors, queryAll]
  | succ count ih =>
    rw [maskedVectors_succ, Nat.add_assoc]
    cases hv : vectorMasked m (8 * k + b) with
    | false =>
      rw [pbaBits_of_unmasked hv]
      exact ih (b + 1) log o
    | true =>
      obtain ⟨rest, rfl, hmasked⟩ := pbaBits_of_masked hv count log o
      obtain ⟨hlog, horacle⟩ := ih (b + 1) (log ++ [queryEntry (8 * k + b, o.drawPending.1)]) o.drawPending.2
      rw [hmasked]
      refine ⟨hlog.trans ?_, horacle⟩
      rw [List.append_assoc]
      rfl

theorem getLsbD_answerBit (answer : Bool) (b : Nat) {x : Nat} (hx : x < 8) :
    (if answer then 1#8 <<< b else 0#8).getLsbD x = true ↔ x = b ∧ answer = true := by
  cases answer
  · simp
  · simp [BitVec.getLsbD_shiftLeft, BitVec.getLsbD_one]
    omega

/-- Bit `x` of a PBA byte is the answer for its vector, 0 where that is not among the vectors queried (R216). -/
theorem pbaBits_getLsbD (m : Msx) (k count b : Nat) (log : List LogEntry) (o : Oracle) {x : Nat} (hx : x < 8) :
    (pbaBits m k count b log o).byte.getLsbD x = true ↔
      (8 * k + x, true) ∈ (queryAll (maskedVectors m (8 * k + b) count) o).1 := by
  induction count generalizing b log o with
  | zero => simp [pbaBits, maskedVectors, queryAll]
  | succ count ih =>
    rw [maskedVectors_succ, Nat.add_assoc]
    cases hv : vectorMasked m (8 * k + b) with
    | false =>
      rw [pbaBits_of_unmasked hv]
      exact ih (b + 1) log o
    | true =>
      obtain ⟨rest, rfl, hmasked⟩ := pbaBits_of_masked hv count log o
      have hown : (8 * k + x, true) = (8 * k + b, o.drawPending.1) ↔ x = b ∧ o.drawPending.1 = true := by
        rw [Prod.mk.injEq, Nat.add_left_cancel_iff, eq_comm (a := true)]
      rw [hmasked, BitVec.getLsbD_or, Bool.or_eq_true, ih (b + 1), getLsbD_answerBit _ b hx, if_pos rfl, queryAll, List.mem_cons,
        hown, or_comm]

/-- The queries of a PBA read are those of the masked vectors of its bytes (R216). -/
theorem pbaBytes_queries (m : Msx) (n k : Nat) (log : List LogEntry) (o : Oracle) :
    (pbaBytes m n k log o).log = log ++ (queryAll (maskedVectors m (8 * k) (8 * n)) o).1.map queryEntry ∧
      (pbaBytes m n k log o).oracle = (queryAll (maskedVectors m (8 * k) (8 * n)) o).2 := by
  induction n generalizing k log o with
  | zero => simp [pbaBytes, maskedVectors, queryAll]
  | succ n ih =>
    obtain ⟨hlog, horacle⟩ := pbaBits_queries m k 8 0 log o
    obtain ⟨hlogs, horacles⟩ := ih (k + 1) (pbaBits m k 8 0 log o).log (pbaBits m k 8 0 log o).oracle
    rw [Nat.mul_succ, Nat.add_comm (8 * n), maskedVectors_add, queryAll_append, List.map_append, ← List.append_assoc]
    rw [Nat.add_zero] at hlog horacle
    exact ⟨by rw [← hlog, ← horacle]; exact hlogs, by rw [← horacle]; exact horacles⟩

theorem pbaBytes_length (m : Msx) (n k : Nat) (log : List LogEntry) (o : Oracle) : (pbaBytes m n k log o).bytes.length = n := by
  induction n generalizing k log o with
  | zero => rfl
  | succ n ih => simp [pbaBytes, ih]

/-- Bit `x` of byte `j` of a PBA read is the answer for vector `8 * (k + j) + x` (R216). -/
theorem pbaBytes_getLsbD (m : Msx) (n k : Nat) (log : List LogEntry) (o : Oracle) {j x : Nat} (hx : x < 8) {y : Byte}
    (hy : (pbaBytes m n k log o).bytes[j]? = some y) :
    y.getLsbD x = true ↔ (8 * (k + j) + x, true) ∈ (queryAll (maskedVectors m (8 * k) (8 * n)) o).1 := by
  induction n generalizing k log o j with
  | zero => simp [pbaBytes] at hy
  | succ n ih =>
    have horacle := (pbaBits_queries m k 8 0 log o).2
    rw [Nat.add_zero] at horacle
    rw [Nat.mul_succ, Nat.add_comm (8 * n), maskedVectors_add, queryAll_append, List.mem_append, ← horacle]
    cases j with
    | zero =>
      have hlater : (8 * k + x, true) ∉ (queryAll (maskedVectors m (8 * k + 8) (8 * n)) (pbaBits m k 8 0 log o).oracle).1 := by
        intro hmem
        have := mem_range_of_mem_maskedVectors (mem_of_mem_queryAll hmem)
        omega
      obtain rfl : (pbaBits m k 8 0 log o).byte = y := by simpa [pbaBytes] using hy
      rw [pbaBits_getLsbD m k 8 0 log o hx, Nat.add_zero, Nat.add_zero, or_iff_left hlater]
    | succ j =>
      have hearlier : (8 * (k + (j + 1)) + x, true) ∉ (queryAll (maskedVectors m (8 * k) 8) o).1 := by
        intro hmem
        have := mem_range_of_mem_maskedVectors (mem_of_mem_queryAll hmem)
        omega
      rw [or_iff_right hearlier, show k + (j + 1) = k + 1 + j by omega]
      exact ih (k + 1) _ _ hy

end Sys2Proof.Machine
end

section
/-! PROOF. The statement of 43_msix_state.md about the PBA (O44). -/

namespace Sys2Proof.Machine

section
variable {s : State} {c : Cap} {m : Msx} (ho : s.cur.overlaps = false) (hc : (ownFn s).cap = some c)
  (hm : (ownFn s).msx = some m)
include ho hc hm

theorem exec_pbaRd_of_disabled (hen : m.enabled = false) (len : BitVec 8) (off : Off) :
    exec (.pbaRd len off) s = .next (s.reply (.bytes (zeros len.toNat))) := by
  rw [exec, execPbaRd, serialized_ok ho, withFunction_some hc hm, if_neg (by rw [hen]; exact Bool.false_ne_true)]

theorem exec_pbaRd_of_enabled (hen : m.enabled = true) (len : BitVec 8) (off : Off) :
    exec (.pbaRd len off) s = .next { s with
      fns := mapPut s.cur.operands.fn
        { ownFn s with log := (pbaBytes m len.toNat off.toNat (ownFn s).log s.oracle).log } s.fns
      oracle := (pbaBytes m len.toNat off.toNat (ownFn s).log s.oracle).oracle
      replies := s.replies ++
        [⟨s.cur.agent, .bytes (pbaBytes m len.toNat off.toNat (ownFn s).log s.oracle).bytes⟩] } := by
  rw [exec, execPbaRd, serialized_ok ho, withFunction_some hc hm, if_pos hen]
  rfl

end

/-- Settles O44: the read queries the masked vectors of its bytes (`pbaBytes_queries`), and each bit is the answer for its own vector
(`pbaBytes_getLsbD`). -/
theorem pbaReadReportsPending : Obligations.PbaReadReportsPending := by
  intro s m len off ho hm hcap
  obtain ⟨c, hc⟩ := Option.ne_none_iff_exists'.mp hcap
  refine ⟨fun hen => exec_pbaRd_of_disabled ho hc hm hen len off, fun hen => ?_⟩
  have hexec := exec_pbaRd_of_enabled ho hc hm hen len off
  obtain ⟨hlog, horacle⟩ := pbaBytes_queries m len.toNat off.toNat (ownFn s).log s.oracle
  rw [queriedVectors_eq]
  refine ⟨_, _, (queryAll (maskedVectors m (8 * off.toNat) (8 * len.toNat)) s.oracle).1.map Prod.snd, hexec, ?_,
    queryAll_answers, ?_, functionsAreIndependent _ s _ hexec, ?_, rfl, pbaBytes_length _ _ _ _ _, fun k b x _ hb hx => ?_⟩
  · rw [List.length_map, ← List.length_map (f := Prod.fst), queryAll_vectors]
  · rw [ownFn_mapPut, zipWith_queryAll, hlog]
  · exact (congrArg Oracle.be horacle).trans (queryAll_be _ _)
  · rw [zip_queryAll]
    exact pbaBytes_getLsbD m _ _ _ _ hb hx

end Sys2Proof.Machine
end

section
/-! SUPPORT. How many calls a transition owes at most (70_reset_and_hazards.md R305), that a tape of as many `Ok` answers lets it succeed, and
the record after a transition that failed (60_exceptions.md R264). -/

namespace Sys2Proof.Machine

/-! ## The number of calls -/

theorem vectorLoop_length_le (op : Nat → Call) (which : Entry → Bool) (i : Nat) (tbl : List Entry) :
    (vectorLoop op which i tbl).length ≤ tbl.length := by
  rw [vectorLoop_eq, List.length_map]
  exact (List.length_filter_le _ _).trans_eq List.length_zipIdx

theorem deviceIdCalls_length (arch : Arch) (i : Nat) :
    (deviceIdCalls arch i).length = if arch = .aarch64 then 1 else 0 := by
  cases arch <;> rfl

theorem programLoop_length (arch : Arch) (i : Nat) (tbl : List Entry) :
    (programLoop arch i tbl).length = (3 + if arch = .aarch64 then 1 else 0) * tbl.length := by
  induction tbl generalizing i with
  | nil => rfl
  | cons e rest ih =>
    rw [programLoop, List.length_append, List.length_append, ih, deviceIdCalls_length, List.length_cons, Nat.mul_succ]
    exact Nat.add_comm _ _

/-- Each vector is programmed and at most once masked; `reset`, the working mode and `enable` come besides (R212). -/
theorem enableCalls_length_le (arch : Arch) (tbl : List Entry) (newM : Bool) :
    (enableCalls arch tbl newM).length ≤ (if arch = .aarch64 then 5 else 4) * tbl.length + 3 := by
  have hmask := vectorLoop_length_le .mask (fun e => maskBit e || newM) 0 tbl
  simp only [enableCalls, List.length_append, programLoop_length, List.length_cons, List.length_nil]
  split <;> omega

theorem toggleCalls_length_le (oldM newM : Bool) (tbl : List Entry) : (toggleCalls oldM newM tbl).length ≤ tbl.length := by
  cases oldM <;> cases newM
  · exact Nat.zero_le _
  · exact vectorLoop_length_le _ _ _ _
  · exact vectorLoop_length_le _ _ _ _
  · exact Nat.zero_le _

/-- The enable sequence is the longest row of the transition table (R305). -/
theorem transitionCalls_length_le (arch : Arch) (m : Msx) (newEn newM : Bool) :
    (transitionCalls arch m newEn newM).length ≤ (if arch = .aarch64 then 5 else 4) * m.tbl.length + 3 := by
  have hsplit : m.tbl.length ≤ (if arch = .aarch64 then 5 else 4) * m.tbl.length := by split <;> omega
  cases hen : m.enabled <;> cases newEn
  · simp [transitionCalls, hen]
  · rw [transitionCalls_of_disabled hen]
    exact enableCalls_length_le arch m.tbl newM
  · simp [transitionCalls, hen]
  · rw [transitionCalls_of_enabled hen]
    have htoggle := toggleCalls_length_le m.masked newM m.tbl
    omega

/-! ## How a transition ends -/

/-- A transition succeeds when the tape begins with at least as many `Ok` answers as it issues calls. -/
theorem transition_replies_of_tape_ok {s : State} {m : Msx} {reg : U16} {n : Nat} {rest : List Answer}
    (htape : s.oracle.be = List.replicate n .ok ++ rest)
    (hn : (transitionCalls s.params.arch m (newEnabled reg) (newMasked reg)).length ≤ n) (f : FnHandle) (fr : FnRec) :
    (transition s f fr m reg).replies = s.replies ++ [⟨s.cur.agent, .done⟩] := by
  by_cases hflags : m.enabled = newEnabled reg ∧ m.masked = newMasked reg
  · rw [transition_of_same hflags]
    rfl
  · obtain ⟨k, rfl⟩ := Nat.exists_eq_add_of_le hn
    rw [List.replicate_add, List.append_assoc] at htape
    rw [transition_of_change hflags, finishCalls_of_tape_ok htape]

/-- A transition that ends in an error had a flag to change, stores the capability it was given, and leaves MSX as it was (R264). -/
theorem transition_failed {s : State} {f : FnHandle} {fr : FnRec} {m : Msx} {reg : U16} {e : ErrorCode}
    (h : (transition s f fr m reg).replies = s.replies ++ [⟨s.cur.agent, .error e⟩]) :
    ¬(m.enabled = newEnabled reg ∧ m.masked = newMasked reg) ∧
      ((transition s f fr m reg).fnRec f).cap = fr.cap ∧ ((transition s f fr m reg).fnRec f).msx = fr.msx := by
  rcases transition_cases s f fr m reg with ⟨-, heq⟩ | ⟨hflags, o', -, heq | ⟨k, c, e', -, heq⟩⟩
  · rw [heq] at h
    simp at h
  · rw [heq] at h
    simp at h
  · rw [heq, State.fnRec, mapGet_mapPut_same]
    exact ⟨hflags, rfl, rfl⟩

end Sys2Proof.Machine
end

section
/-! PROOF. The statements of 60_exceptions.md: the retry of a failed control write (O40), what a guest sees of errors (O48), and the
refusals before ROOT (O10) and before both objects of a function (O46) exist. -/

namespace Sys2Proof.Machine

/-! ## Retry -/

/-- The capability after a guest byte written to offset 3 (R182). -/
def Cap.controlWritten (c : Cap) (v : Byte) : Cap := c.setControl (controlByte v)

section
variable {s : State} {m : Msx} {v : Byte} (hm : (ownFn s).msx = some m)
include hm

/-- A guest write of byte 3 that ended in an error holds the new bits in the capability and the old flags in MSX, which differ (R299). -/
theorem exec_controlWrite_failed {t : State} {e : ErrorCode} (h : exec (.capWr8 3 v) s = .next t)
    (herr : t.replies = s.replies ++ [⟨s.cur.agent, .error e⟩]) :
    ∃ c : Cap, (ownFn t).cap = some (c.controlWritten v) ∧ (ownFn t).msx = some m ∧
      ¬(m.enabled = newEnabled (c.controlWritten v).msgCtl ∧ m.masked = newMasked (c.controlWritten v).msgCtl) := by
  have hcur := exec_cur h
  obtain ⟨c, m', -, hm', heq⟩ := exec_controlWrite_next h
  cases hm.symm.trans hm'
  rw [heq] at herr
  obtain ⟨hflags, hcap, hmsx⟩ := transition_failed herr
  rw [ownFn, hcur, heq]
  exact ⟨c, hcap, hmsx.trans hm, hflags⟩

/-- A guest write of byte 3 succeeds when the tape begins with 5N + 3 `Ok` answers, enough on every ARCH (R305). -/
theorem exec_controlWrite_of_tape_ok {c : Cap} {rest : List Answer} (ho : s.cur.overlaps = false)
    (hc : (ownFn s).cap = some c) (htape : s.oracle.be = List.replicate (5 * m.tbl.length + 3) .ok ++ rest) :
    ∃ u, exec (.capWr8 3 v) s = .next u ∧ u.replies = s.replies ++ [⟨s.cur.agent, .done⟩] ∧
      (ownFn u).cap = some (c.controlWritten v) ∧ (ownFn u).msx = some (m.switched (c.controlWritten v).msgCtl) := by
  have hexec := exec_capWr8_three ho hc hm v
  have hbound : (if s.params.arch = .aarch64 then 5 else 4) * m.tbl.length + 3 ≤ 5 * m.tbl.length + 3 := by
    split <;> omega
  have hdone := transition_replies_of_tape_ok (reg := (c.controlWritten v).msgCtl) htape
    ((transitionCalls_length_le _ _ _ _).trans hbound) s.cur.operands.fn ((ownFn s).controlWritten c v)
  have hrec := transition_fnRec_of_done (fr := (ownFn s).controlWritten c v) hm hdone
  refine ⟨_, hexec, hdone, ?_⟩
  rw [ownFn, exec_cur hexec]
  exact ⟨congrArg FnRec.cap hrec, congrArg FnRec.msx hrec⟩

end

/-- Settles O40: a failed transition keeps the capability's new bits and MSX's old flags (`transition_failed`), and the tape of the second
write holds an `Ok` for each call it can owe (`exec_controlWrite_of_tape_ok`). -/
theorem retryAfterFailureRestoresAgreement : Obligations.RetryAfterFailureRestoresAgreement := by
  intro s t m v e call pos hm h herr
  obtain ⟨ho, -⟩ := serialized_next h
  have hcur := exec_cur h
  obtain ⟨c, hcap, hmsx, hflags⟩ := exec_controlWrite_failed hm h herr
  rw [newEnabled_eq_enableBit, newMasked_eq_functionMaskBit] at hflags
  refine ⟨⟨_, hcap, hmsx, enableBit_controlByte c v, functionMaskBit_controlByte c v, hflags⟩, fun rest => ?_⟩
  obtain ⟨u, hexec, hreplies, hcap', hmsx'⟩ := exec_controlWrite_of_tape_ok (v := v)
    (s := { t with oracle := { t.oracle with be := List.replicate (5 * m.tbl.length + 3) .ok ++ rest } })
    hmsx (hcur ▸ ho) hcap rfl
  rw [hcur] at hreplies
  exact ⟨u, _, _, hexec, hreplies, hcap', hmsx', newEnabled_eq_enableBit _, newMasked_eq_functionMaskBit _, rfl⟩

/-! ## What a guest sees of errors -/

/-- The answer of a transaction, if it gave one by now, is no error. -/
def answersNoError (s t : State) : Prop :=
  t.replies = s.replies ∨ ∃ res, (∀ e, res ≠ .error e) ∧ t.replies = s.replies ++ [⟨s.cur.agent, res⟩]

theorem answersNoError_bytes (s : State) (bytes : List Byte) : answersNoError s (s.reply (.bytes bytes)) :=
  .inr ⟨_, fun _ => Result.noConfusion, rfl⟩

/-- A fallback answers all-ones or nothing (R123, R276). -/
theorem answersNoError_fallback (s : State) (why : FallbackReason) (acc : Access) : answersNoError s (s.fallback why acc) := by
  refine .inr ⟨missed acc, fun e => ?_, by rw [fallback_eq]⟩
  cases acc <;> exact Result.noConfusion

/-- A forwarded access has no answer yet (R76). -/
theorem answersNoError_forwardOrMiss (s : State) (r : Root) (a : CfgAddr) (acc : Access) :
    answersNoError s (forwardOrMiss s r a acc) := by
  rcases forwardOrMiss_cases s r a acc with ⟨-, heq⟩ | ⟨h, -, heq⟩ <;> rw [heq]
  · exact answersNoError_fallback _ _ _
  · exact .inl rfl

theorem ecamAccess_answersNoError {s t : State} {off : Off} {acc : Access} (h : ecamAccess off acc s = .next t) :
    answersNoError s t := by
  obtain ⟨r, -, -, ⟨-, rfl⟩ | ⟨-, -, rfl⟩⟩ := ecamAccess_cases h
  · exact answersNoError_fallback _ _ _
  · exact answersNoError_forwardOrMiss _ _ _ _

theorem dataAccess_answersNoError {s t : State} {lane : BitVec 2} {acc : Access} (h : dataAccess lane acc s = .next t) :
    answersNoError s t := by
  obtain ⟨r, -, -, -, ⟨-, rfl⟩ | ⟨-, -, ⟨-, rfl⟩ | ⟨-, rfl⟩⟩⟩ := dataAccess_cases h
  · exact answersNoError_fallback _ _ _
  · exact answersNoError_fallback _ _ _
  · exact answersNoError_forwardOrMiss _ _ _ _

theorem pioRdAddr_answersNoError {s t : State} {len : BitVec 8} {lane : BitVec 2}
    (h : exec (.pioRdAddr len lane) s = .next t) : answersNoError s t := by
  obtain ⟨r, -, -, -, h⟩ := withPio_next h
  split at h
  · obtain ⟨-, h⟩ := underLock_next h
    cases h
    exact answersNoError_bytes _ _
  · cases h
    exact answersNoError_fallback _ _ _

/-- A read on a function that only looks at its two objects answers bytes (R181, R214). -/
theorem withFunction_answersNoError {s t : State} {bytes : Cap → Msx → List Byte}
    (h : serialized s (withFunction s fun c m => .next (s.reply (.bytes (bytes c m)))) = .next t) : answersNoError s t := by
  obtain ⟨-, h⟩ := serialized_next h
  obtain ⟨c, m, -, -, h⟩ := withFunction_next h
  cases h
  exact answersNoError_bytes _ _

theorem pioRdOor_answersNoError {s t : State} {len : BitVec 8} {off : Off} (h : exec (.pioRdOor len off) s = .next t) :
    answersNoError s t := by
  obtain ⟨r, -, -, -, h⟩ := withPio_next h
  cases h
  exact answersNoError_fallback _ _ _

theorem pbaRd_answersNoError {s t : State} {len : BitVec 8} {off : Off} (h : exec (.pbaRd len off) s = .next t) :
    answersNoError s t := by
  obtain ⟨ho, hfn⟩ := serialized_next h
  obtain ⟨c, m, hc, hm, -⟩ := withFunction_next hfn
  cases hen : m.enabled with
  | false =>
    cases (exec_pbaRd_of_disabled ho hc hm hen len off).symm.trans h
    exact answersNoError_bytes _ _
  | true =>
    cases (exec_pbaRd_of_enabled ho hc hm hen len off).symm.trans h
    exact .inr ⟨_, fun _ => Result.noConfusion, rfl⟩

/-- An error among the replies afterwards was there before. -/
theorem mem_of_answersNoError {s t : State} (h : answersNoError s t) {a : Agent} {e : ErrorCode}
    (hmem : Reply.mk a (.error e) ∈ t.replies) : Reply.mk a (.error e) ∈ s.replies := by
  rcases h with heq | ⟨res, hres, heq⟩
  · rwa [heq] at hmem
  · rw [heq, List.mem_append, List.mem_singleton] at hmem
    exact hmem.resolve_right fun hlast => hres e (congrArg Reply.result hlast).symm

/-- Settles O48: each read answers bytes, falls back, or has no answer yet (`answersNoError`). -/
theorem guestSeesNoError : Obligations.GuestSeesNoError := by
  refine ⟨fun _ _ => rfl, fun i s t a e hread h => mem_of_answersNoError ?_⟩
  rcases hread with ⟨len, off, rfl⟩ | ⟨len, lane, rfl⟩ | ⟨len, lane, rfl⟩ | ⟨len, off, rfl⟩ | ⟨off, rfl⟩ | ⟨len, off, rfl⟩ |
    ⟨len, off, rfl⟩
  · exact ecamAccess_answersNoError h
  · exact pioRdAddr_answersNoError h
  · exact dataAccess_answersNoError h
  · exact pioRdOor_answersNoError h
  · exact withFunction_answersNoError h
  · exact withFunction_answersNoError h
  · exact pbaRd_answersNoError h

/-! ## Refusals before construction -/

/-- Settles O10: every root transaction but `root.create` begins with `withRoot`, the host's after `hostOnly`. -/
theorem rootTransactionsNeedRoot : Obligations.RootTransactionsNeedRoot := by
  intro s hr
  have root (k : Root → Exec) : withRoot s k = .refused .noRoot := withRoot_none hr
  refine ⟨fun _ _ => root _, fun _ _ => root _, fun i hi => ?_, fun hh => ?_⟩
  · obtain ⟨k, hexec⟩ := exec_of_isPioInstr hi s
    exact hexec.trans (root _)
  · have host (k : Root → Exec) : hostOnly s (withRoot s k) = .refused .noRoot := (hostOnly_of_host hh).trans (root k)
    exact ⟨fun _ => host _, fun _ => host _, host _, host _⟩

/-- Settles O46: every transaction on a function but the constructors asks for both objects (`withFunction`), the host's after
`hostOnly`. -/
theorem msixTransactionsNeedTheirObjects : Obligations.MsixTransactionsNeedTheirObjects := by
  intro s ho hnone
  have guest (k : Cap → Msx → Exec) : serialized s (withFunction s k) = .refused .noFn :=
    (serialized_ok ho).trans (withFunction_none hnone)
  refine ⟨fun _ => guest _, fun _ _ => guest _, fun _ _ => guest _, fun _ _ => guest _, fun _ _ => guest _, fun hh => ?_⟩
  have host (k : Cap → Msx → Exec) : hostOnly s (serialized s (withFunction s k)) = .refused .noFn :=
    (hostOnly_of_host hh).trans (guest k)
  exact ⟨fun _ => host _, host _, host _, host _, host _, host _, host _, host _, fun _ => host _, host _, host _⟩

end Sys2Proof.Machine
end

section
/-! PROOF. The statement of 70_reset_and_hazards.md about the number of back-end calls (O53). A transition's bound is
`transitionCalls_length_le`; here are the bounds of a table write and of a PBA read. -/

namespace Sys2Proof.Machine

/-- The most back-end calls one transaction issues on a table of `n` vectors (R305). -/
def callBound (arch : Arch) (n : Nat) : Nat := (if arch = .aarch64 then 5 else 4) * n + 3

/-- On every ARCH a vector is granted four calls. -/
theorem four_mul_add_three_le_callBound (arch : Arch) (n : Nat) : 4 * n + 3 ≤ callBound arch n := by
  unfold callBound
  split <;> omega

/-! ## Calls that were issued -/

theorem length_log_allOk (log : List LogEntry) (calls : List Call) :
    (log ++ allOk calls).length = log.length + calls.length := by
  rw [List.length_append, allOk, List.length_map]

/-- A failing call is one of the calls owed, and those after it are not issued. -/
theorem length_log_failed_le (log : List LogEntry) {calls : List Call} {k : Nat} {c : Call} (hk : calls[k]? = some c)
    (entry : LogEntry) : (log ++ allOk (calls.take k) ++ [entry]).length ≤ log.length + calls.length := by
  have hlt : k < calls.length := (List.getElem?_eq_some_iff.mp hk).1
  rw [List.length_append, length_log_allOk, List.length_take_of_le hlt.le, List.length_singleton]
  omega

/-! ## A table write -/

theorem reprogramCalls_length_le (i j : Nat) (e : Entry) : (reprogramCalls i j e).length ≤ 4 := by
  unfold reprogramCalls
  split
  · exact le_rfl
  · exact Nat.zero_le _

theorem propagateCalls_length_le (i j len : Nat) (masked : Bool) (e : Entry) : (propagateCalls i j len masked e).length ≤ 1 := by
  unfold propagateCalls
  split
  · exact le_rfl
  · exact Nat.zero_le _

theorem tableWriteCalls_length_le (m : Msx) (i j len : Nat) (e : Entry) : (tableWriteCalls m i j len e).length ≤ 5 := by
  unfold tableWriteCalls
  split
  · rw [List.length_append]
    exact Nat.add_le_add (reprogramCalls_length_le i j e) (propagateCalls_length_le i j len m.masked e)
  · exact Nat.zero_le _

/-- A write that addresses an entry finds a table of at least one vector, for which seven calls are granted (R305). -/
theorem tableWriteCalls_length_le_callBound {m : Msx} {off : Off} {len : Nat} {old : Entry}
    (ha : addressedEntry m off len = some old) (arch : Arch) (i j n : Nat) (e : Entry) :
    (tableWriteCalls m i j n e).length ≤ callBound arch m.tbl.length := by
  have hcalls := tableWriteCalls_length_le m i j n e
  have hgranted := four_mul_add_three_le_callBound arch m.tbl.length
  have hindex : tableIndex off < m.tbl.length := (List.getElem?_eq_some_iff.mp (addressedEntry_some ha).2).1
  omega

/-! ## A PBA read -/

theorem lt_length_of_vectorMasked {m : Msx} {v : Nat} (h : vectorMasked m v = true) : v < m.tbl.length := by
  by_contra hge
  rw [vectorMasked, List.getElem?_eq_none (Nat.le_of_not_lt hge)] at h
  cases h

/-- However many bits are read, the vectors queried are distinct vectors of the table (R216). -/
theorem maskedVectors_length_le (m : Msx) (first count : Nat) : (maskedVectors m first count).length ≤ m.tbl.length := by
  have hnodup : (maskedVectors m first count).Nodup := List.Nodup.filter _ List.nodup_range'
  have hsubset : maskedVectors m first count ⊆ List.range m.tbl.length := fun v hv =>
    List.mem_range.mpr (lt_length_of_vectorMasked (List.mem_filter.mp hv).2)
  exact (hnodup.subperm hsubset).length_le.trans_eq List.length_range

theorem pbaBytes_log_length_le (m : Msx) (n k : Nat) (log : List LogEntry) (o : Oracle) :
    (pbaBytes m n k log o).log.length ≤ log.length + m.tbl.length := by
  rw [(pbaBytes_queries m n k log o).1, List.length_append, List.length_map, ← List.length_map (f := Prod.fst), queryAll_vectors]
  exact Nat.add_le_add_left (maskedVectors_length_le m _ _) _

/-! ## Every transaction -/

/-- What a transaction adds to the log of a function that has its table stays within the bound. -/
theorem FnChange.log_length_le {p : Params} {o : Operands} {fr fr' : FnRec} {i : Instr} {m : Msx} (h : FnChange p o fr i fr')
    (hm : fr.msx = some m) : fr'.log.length ≤ fr.log.length + callBound p.arch m.tbl.length := by
  cases h with
  | capNew | capSetctl => exact Nat.le_add_right _ _
  | msxNew n hnone => cases hnone.symm.trans hm
  | unchanged _ m' fr0 reg hs =>
    rw [hs.log]
    exact Nat.le_add_right _ _
  | transitionOk _ m' fr0 reg hs hm' =>
    cases hm.symm.trans hm'
    exact (length_log_allOk _ _).trans_le (Nat.add_le_add_left (transitionCalls_length_le _ _ _ _) _)
  | transitionErr _ m' fr0 reg hs hm' hf k c e hk =>
    cases hm.symm.trans hm'
    exact (length_log_failed_le _ hk _).trans (Nat.add_le_add_left (transitionCalls_length_le _ _ _ _) _)
  | tblWrOk m' off d old hm' ha =>
    cases hm.symm.trans hm'
    exact (length_log_allOk _ _).trans_le (Nat.add_le_add_left (tableWriteCalls_length_le_callBound ha _ _ _ _ _) _)
  | tblWrErr m' off d old hm' ha k c e hk =>
    cases hm.symm.trans hm'
    exact (length_log_failed_le _ hk _).trans (Nat.add_le_add_left (tableWriteCalls_length_le_callBound ha _ _ _ _ _) _)
  | pbaRd m' len off hm' he orc =>
    cases hm.symm.trans hm'
    have hqueries := pbaBytes_log_length_le m len.toNat off.toNat fr.log orc
    have hgranted := four_mul_add_three_le_callBound p.arch m.tbl.length
    dsimp only
    omega

/-- Settles O53: a transaction leaves its function's record alone or makes one change of it (`exec_fnRec`), and each change keeps within
the bound (`FnChange.log_length_le`). -/
theorem callsAreBounded : Obligations.CallsAreBounded := by
  intro i s t m h hm
  rw [ownFn, exec_cur h]
  rcases exec_fnRec h s.cur.operands.fn with hsame | ⟨-, hchange⟩
  · rw [hsame]
    exact Nat.le_add_right _ _
  · exact hchange.log_length_le hm

end Sys2Proof.Machine
end
